-- ==== Sys2Proof/Word.lean ====
section
/-! DEFINITION. The word types of the block (R12) and the two kinds of string it handles (R13). -/

namespace Sys2Proof

/-- `U8`: one byte (R12). -/
abbrev Byte := BitVec 8

/-- `U16`: a CRC value, a residue, a completion handle (R12). -/
abbrev U16 := BitVec 16

/-- The command word of the command port (R100). -/
abbrev Word := BitVec 32

/-- A bit string: the head of the list is position 0, the first bit (R13). -/
abbrev Bits := List Bool

/-- A byte string (R13). -/
abbrev Bytes := List Byte

end Sys2Proof
end

