-- ==== Sys2Proof/Syntax.lean ====
section
/-! DEFINITION. The 30 commands of the command port, one constructor per row of the opcode map (R101). A constructor
carries the row's immediate fields; the operand record travels beside the word (R100) and is read from the port. -/

namespace Sys2Proof

inductive Instr where
  | sysReset
  | crcReset
  | crcUpdate (byte : Byte)
  | crcFinish
  | msgClear (r : Nat)
  | msgSetaddr (r : Nat) (dst src : Int)
  | msgSetcode (r code : Nat)
  | msgSetprio (r : Nat) (prio : Fin 4)
  | msgAdddata (r : Nat)
  | msgHeader (r : Nat)
  | msgHdrlen (r : Nat)
  | msgFirstbits (r n : Nat)
  | msgGet (r : Nat)
  | msgXstart (r : Nat)
  | msgXchunk (r frameBits : Nat)
  | msgAstart (r : Nat)
  | msgAchunk (r frameBits value : Nat)
  | msgAend (r : Nat)
  | frmRxbyte (byte : Byte)
  | frmTimeout
  | frmSend (r : Nat)
  | frmRelease
  | arqOpen (window timeout : Nat)
  | arqSend (handle : U16)
  | arqRecv
  | arqTick
  | arqClose
  | arqReset (hasErr : Bool)
  | arqLowerfail
  | arqNext
  deriving DecidableEq, Repr

end Sys2Proof
end

