-- ==== Sys2Proof/WellFormed.lean ====
section
/-! DEFINITION. A command is well-formed when each of its immediates is a value its field of the command word can
hold (R100, R101). The range checks that a command's own rule makes on a field (R102) are not made here: they answer
RANGE. -/

namespace Sys2Proof

/-- The two-bit register field `imm[23:22]` (R101). -/
abbrev RegField (r : Nat) : Prop := r < 4

/-- An 8-bit two's-complement address immediate (R100, R303). -/
abbrev AddrField (a : Int) : Prop := -128 ≤ a ∧ a ≤ 127

/-- Every immediate fits its field of R101. -/
def Instr.wellFormed : Instr → Bool
  | .sysReset => true
  | .crcReset => true
  | .crcUpdate _ => true
  | .crcFinish => true
  | .msgClear r => decide (RegField r)
  | .msgSetaddr r dst src => decide (RegField r) && decide (AddrField dst) && decide (AddrField src)
  | .msgSetcode r code => decide (RegField r) && decide (code < 256)
  | .msgSetprio r _ => decide (RegField r)
  | .msgAdddata r => decide (RegField r)
  | .msgHeader r => decide (RegField r)
  | .msgHdrlen r => decide (RegField r)
  | .msgFirstbits r n => decide (RegField r) && decide (n < 524288)
  | .msgGet r => decide (RegField r)
  | .msgXstart r => decide (RegField r)
  | .msgXchunk r frameBits => decide (RegField r) && decide (frameBits < 32)
  | .msgAstart r => decide (RegField r)
  | .msgAchunk r frameBits value => decide (RegField r) && decide (frameBits < 32) && decide (value < 131072)
  | .msgAend r => decide (RegField r)
  | .frmRxbyte _ => true
  | .frmTimeout => true
  | .frmSend r => decide (RegField r)
  | .frmRelease => true
  | .arqOpen window timeout => decide (window < 256) && decide (timeout < 65536)
  | .arqSend _ => true
  | .arqRecv => true
  | .arqTick => true
  | .arqClose => true
  | .arqReset _ => true
  | .arqLowerfail => true
  | .arqNext => true

end Sys2Proof
end

