-- ==== Sys2Proof/Decode.lean ====
section
/-! DEFINITION. The command word (R100), the opcode map (R101), its match and mask table (R102), the decoder, total on
every word, and the encoder. -/

namespace Sys2Proof

/-- `w[hi:lo]`: the unsigned value of the bits `hi` down to `lo` of a command word (R12). -/
def field (w : Word) (hi lo : Nat) : Nat := w.toNat / 2 ^ lo % 2 ^ (hi + 1 - lo)

/-- `sext` of an 8-bit immediate (R100). -/
def sext8 (v : Nat) : Int := if v < 128 then (v : Int) else (v : Int) - 256

/-- The 8-bit two's-complement field of an address (R100). -/
def unsext8 (a : Int) : Nat := (a % 256).toNat

/-- Why a word is no command (R103). Both are answered with the status ILLEGAL. -/
inductive DecodeError where
  /-- `op` is not listed in R101. -/
  | reservedOpcode
  /-- A bit of `imm` that the row does not assign is 1. -/
  | unassignedBit
  deriving DecidableEq, Repr

/-- Accepts `i` when the unassigned bits `w[hi:lo]` are all 0 (R100, R103). -/
def needZero (w : Word) (hi lo : Nat) (i : Instr) : Except DecodeError Instr :=
  if field w hi lo = 0 then .ok i else .error .unassignedBit

/-- The opcode `op = word[31:24]` (R100). -/
def opOf (w : Word) : Nat := field w 31 24

/-- The register number `r = imm[23:22]` (R101). -/
def regOf (w : Word) : Nat := field w 23 22

/-- The command a word selects (R100 to R103). -/
def decode (w : Word) : Except DecodeError Instr :=
  match opOf w with
  | 0x01 => needZero w 23 0 .sysReset
  | 0x10 => needZero w 23 0 .crcReset
  | 0x11 => needZero w 23 8 (.crcUpdate (BitVec.ofNat 8 (field w 7 0)))
  | 0x12 => needZero w 23 0 .crcFinish
  | 0x20 => needZero w 21 0 (.msgClear (regOf w))
  | 0x21 => needZero w 21 16 (.msgSetaddr (regOf w) (sext8 (field w 15 8)) (sext8 (field w 7 0)))
  | 0x22 => needZero w 21 8 (.msgSetcode (regOf w) (field w 7 0))
  | 0x23 => needZero w 21 2 (.msgSetprio (regOf w) (Fin.ofNat 4 (field w 1 0)))
  | 0x24 => needZero w 21 0 (.msgAdddata (regOf w))
  | 0x25 => needZero w 21 0 (.msgHeader (regOf w))
  | 0x26 => needZero w 21 0 (.msgHdrlen (regOf w))
  | 0x27 => needZero w 21 19 (.msgFirstbits (regOf w) (field w 18 0))
  | 0x28 => needZero w 21 0 (.msgGet (regOf w))
  | 0x29 => needZero w 21 0 (.msgXstart (regOf w))
  | 0x2A => needZero w 21 5 (.msgXchunk (regOf w) (field w 4 0))
  | 0x2B => needZero w 21 0 (.msgAstart (regOf w))
  | 0x2C => .ok (.msgAchunk (regOf w) (field w 21 17) (field w 16 0))
  | 0x2D => needZero w 21 0 (.msgAend (regOf w))
  | 0x30 => needZero w 23 8 (.frmRxbyte (BitVec.ofNat 8 (field w 7 0)))
  | 0x31 => needZero w 23 0 .frmTimeout
  | 0x32 => needZero w 21 0 (.frmSend (regOf w))
  | 0x33 => needZero w 23 0 .frmRelease
  | 0x40 => .ok (.arqOpen (field w 23 16) (field w 15 0))
  | 0x41 => needZero w 23 16 (.arqSend (BitVec.ofNat 16 (field w 15 0)))
  | 0x42 => needZero w 23 0 .arqRecv
  | 0x43 => needZero w 23 0 .arqTick
  | 0x44 => needZero w 23 0 .arqClose
  | 0x45 => needZero w 23 1 (.arqReset (field w 0 0 == 1))
  | 0x46 => needZero w 23 0 .arqLowerfail
  | 0x47 => needZero w 23 0 .arqNext
  | _ => .error .reservedOpcode

/-- The opcode column of R101. -/
def Instr.opcode : Instr → Nat
  | .sysReset => 0x01
  | .crcReset => 0x10
  | .crcUpdate _ => 0x11
  | .crcFinish => 0x12
  | .msgClear _ => 0x20
  | .msgSetaddr _ _ _ => 0x21
  | .msgSetcode _ _ => 0x22
  | .msgSetprio _ _ => 0x23
  | .msgAdddata _ => 0x24
  | .msgHeader _ => 0x25
  | .msgHdrlen _ => 0x26
  | .msgFirstbits _ _ => 0x27
  | .msgGet _ => 0x28
  | .msgXstart _ => 0x29
  | .msgXchunk _ _ => 0x2A
  | .msgAstart _ => 0x2B
  | .msgAchunk _ _ _ => 0x2C
  | .msgAend _ => 0x2D
  | .frmRxbyte _ => 0x30
  | .frmTimeout => 0x31
  | .frmSend _ => 0x32
  | .frmRelease => 0x33
  | .arqOpen _ _ => 0x40
  | .arqSend _ => 0x41
  | .arqRecv => 0x42
  | .arqTick => 0x43
  | .arqClose => 0x44
  | .arqReset _ => 0x45
  | .arqLowerfail => 0x46
  | .arqNext => 0x47

/-- The value of `imm = word[23:0]`, each field at the place R101 gives it. -/
def Instr.imm : Instr → Nat
  | .sysReset => 0
  | .crcReset => 0
  | .crcUpdate byte => byte.toNat
  | .crcFinish => 0
  | .msgClear r => r * 2 ^ 22
  | .msgSetaddr r dst src => r * 2 ^ 22 + unsext8 dst * 2 ^ 8 + unsext8 src
  | .msgSetcode r code => r * 2 ^ 22 + code
  | .msgSetprio r prio => r * 2 ^ 22 + prio.val
  | .msgAdddata r => r * 2 ^ 22
  | .msgHeader r => r * 2 ^ 22
  | .msgHdrlen r => r * 2 ^ 22
  | .msgFirstbits r n => r * 2 ^ 22 + n
  | .msgGet r => r * 2 ^ 22
  | .msgXstart r => r * 2 ^ 22
  | .msgXchunk r frameBits => r * 2 ^ 22 + frameBits
  | .msgAstart r => r * 2 ^ 22
  | .msgAchunk r frameBits value => r * 2 ^ 22 + frameBits * 2 ^ 17 + value
  | .msgAend r => r * 2 ^ 22
  | .frmRxbyte byte => byte.toNat
  | .frmTimeout => 0
  | .frmSend r => r * 2 ^ 22
  | .frmRelease => 0
  | .arqOpen window timeout => window * 2 ^ 16 + timeout
  | .arqSend handle => handle.toNat
  | .arqRecv => 0
  | .arqTick => 0
  | .arqClose => 0
  | .arqReset hasErr => hasErr.toNat
  | .arqLowerfail => 0
  | .arqNext => 0

/-- The command word of an instruction (R100, R101). -/
def encode (i : Instr) : Word := BitVec.ofNat 32 (i.opcode * 2 ^ 24 + i.imm)

/-- One row of the match and mask table (R102). -/
structure OpRow where
  mnemonic : String
  pattern : Word
  mask : Word
  deriving DecidableEq, Repr

/-- A word selects the command of a row when `word and mask = match` (R102). -/
abbrev OpRow.Selects (row : OpRow) (w : Word) : Prop := w &&& row.mask = row.pattern

/-- The rows of SYS, CRC and FRM. -/
def opcodeTableSysCrcFrm : List OpRow :=
  [ ⟨"SYS.RESET", 0x01000000#32, 0xFFFFFFFF#32⟩,
    ⟨"CRC.RESET", 0x10000000#32, 0xFFFFFFFF#32⟩,
    ⟨"CRC.UPDATE", 0x11000000#32, 0xFFFFFF00#32⟩,
    ⟨"CRC.FINISH", 0x12000000#32, 0xFFFFFFFF#32⟩,
    ⟨"FRM.RXBYTE", 0x30000000#32, 0xFFFFFF00#32⟩,
    ⟨"FRM.TIMEOUT", 0x31000000#32, 0xFFFFFFFF#32⟩,
    ⟨"FRM.SEND", 0x32000000#32, 0xFF3FFFFF#32⟩,
    ⟨"FRM.RELEASE", 0x33000000#32, 0xFFFFFFFF#32⟩ ]

/-- The rows of MSG. -/
def opcodeTableMsg : List OpRow :=
  [ ⟨"MSG.CLEAR", 0x20000000#32, 0xFF3FFFFF#32⟩,
    ⟨"MSG.SETADDR", 0x21000000#32, 0xFF3F0000#32⟩,
    ⟨"MSG.SETCODE", 0x22000000#32, 0xFF3FFF00#32⟩,
    ⟨"MSG.SETPRIO", 0x23000000#32, 0xFF3FFFFC#32⟩,
    ⟨"MSG.ADDDATA", 0x24000000#32, 0xFF3FFFFF#32⟩,
    ⟨"MSG.HEADER", 0x25000000#32, 0xFF3FFFFF#32⟩,
    ⟨"MSG.HDRLEN", 0x26000000#32, 0xFF3FFFFF#32⟩,
    ⟨"MSG.FIRSTBITS", 0x27000000#32, 0xFF380000#32⟩,
    ⟨"MSG.GET", 0x28000000#32, 0xFF3FFFFF#32⟩,
    ⟨"MSG.XSTART", 0x29000000#32, 0xFF3FFFFF#32⟩,
    ⟨"MSG.XCHUNK", 0x2A000000#32, 0xFF3FFFE0#32⟩,
    ⟨"MSG.ASTART", 0x2B000000#32, 0xFF3FFFFF#32⟩,
    ⟨"MSG.ACHUNK", 0x2C000000#32, 0xFF000000#32⟩,
    ⟨"MSG.AEND", 0x2D000000#32, 0xFF3FFFFF#32⟩ ]

/-- The rows of ARQ. -/
def opcodeTableArq : List OpRow :=
  [ ⟨"ARQ.OPEN", 0x40000000#32, 0xFF000000#32⟩,
    ⟨"ARQ.SEND", 0x41000000#32, 0xFFFF0000#32⟩,
    ⟨"ARQ.RECV", 0x42000000#32, 0xFFFFFFFF#32⟩,
    ⟨"ARQ.TICK", 0x43000000#32, 0xFFFFFFFF#32⟩,
    ⟨"ARQ.CLOSE", 0x44000000#32, 0xFFFFFFFF#32⟩,
    ⟨"ARQ.RESET", 0x45000000#32, 0xFFFFFFFE#32⟩,
    ⟨"ARQ.LOWERFAIL", 0x46000000#32, 0xFFFFFFFF#32⟩,
    ⟨"ARQ.NEXT", 0x47000000#32, 0xFFFFFFFF#32⟩ ]

/-- The match and mask table of the 30 commands (R102). -/
def opcodeTable : List OpRow := opcodeTableSysCrcFrm ++ opcodeTableMsg ++ opcodeTableArq

/-- The row's mnemonic (R101). -/
def Instr.mnemonic : Instr → String
  | .sysReset => "SYS.RESET"
  | .crcReset => "CRC.RESET"
  | .crcUpdate _ => "CRC.UPDATE"
  | .crcFinish => "CRC.FINISH"
  | .msgClear _ => "MSG.CLEAR"
  | .msgSetaddr _ _ _ => "MSG.SETADDR"
  | .msgSetcode _ _ => "MSG.SETCODE"
  | .msgSetprio _ _ => "MSG.SETPRIO"
  | .msgAdddata _ => "MSG.ADDDATA"
  | .msgHeader _ => "MSG.HEADER"
  | .msgHdrlen _ => "MSG.HDRLEN"
  | .msgFirstbits _ _ => "MSG.FIRSTBITS"
  | .msgGet _ => "MSG.GET"
  | .msgXstart _ => "MSG.XSTART"
  | .msgXchunk _ _ => "MSG.XCHUNK"
  | .msgAstart _ => "MSG.ASTART"
  | .msgAchunk _ _ _ => "MSG.ACHUNK"
  | .msgAend _ => "MSG.AEND"
  | .frmRxbyte _ => "FRM.RXBYTE"
  | .frmTimeout => "FRM.TIMEOUT"
  | .frmSend _ => "FRM.SEND"
  | .frmRelease => "FRM.RELEASE"
  | .arqOpen _ _ => "ARQ.OPEN"
  | .arqSend _ => "ARQ.SEND"
  | .arqRecv => "ARQ.RECV"
  | .arqTick => "ARQ.TICK"
  | .arqClose => "ARQ.CLOSE"
  | .arqReset _ => "ARQ.RESET"
  | .arqLowerfail => "ARQ.LOWERFAIL"
  | .arqNext => "ARQ.NEXT"

/-- The instruction the decoder reads from a table row's word of `nbits` bits, every bit above them 0. A command is
one 32-bit word (R103), which has no byte order of its own (log 8). -/
def decodeTableWord (nbits w : Nat) : Option Instr :=
  match decode (BitVec.ofNat 32 (w % 2 ^ nbits)) with
  | .ok i => some i
  | .error _ => none

end Sys2Proof
end

