-- ==== Sys2Proof/Config.lean ====
section
/-! DEFINITION. The implementation parameters of R8 that may differ from one build of the block to another. They
are arguments of every operation that reads them and no part of the state (R20, R392). The values this spec's
vectors use are `defaultParams` in Machine/Params.lean. -/

namespace Sys2Proof.Config

/-- The parameters of R8 that its column "fixed by" does not give to the source. The CRC is three total functions of which nothing is
assumed (R131). -/
structure Params where
  /-- One CRC update (R131). -/
  crcStep : U16 → Byte → U16
  /-- The accumulator after restart (R131). -/
  crcInit : U16
  /-- The finishing map (R131). -/
  crcFin : U16 → U16
  /-- `MARKER[p]`, the frame-start byte of priority `p` (R94). -/
  marker : Fin 4 → Byte
  /-- `LINE_STALE_TICKS` (R222). -/
  lineStaleTicks : Nat
  /-- `LINE_MAX`, the capacity of the console-line buffer in bytes (R203). -/
  lineMax : Nat
  /-- `FB_MAX`, the largest chunk width `frame_bits` (R172, R177). -/
  fbMax : Nat
  /-- `NMSG`, the number of message registers (R24). -/
  nmsg : Nat
  /-- `W_MAX`, the largest window (R268). -/
  wMax : Nat
  /-- `T_MIN`, the least `timeout` in ms (R263, R268). -/
  tMin : Nat
  /-- `T_MAX`, the greatest `timeout` in ms (R263). -/
  tMax : Nat
  /-- `Q_MAX`, the depth of the send queue; none where it is unbounded (R270). -/
  qMax : Option Nat
  /-- `P_MAX`, the largest payload in bytes; none where it is unbounded (R270). -/
  pMax : Option Nat
  /-- `ack_delay(T)` (R286). -/
  ackDelay : Nat → Nat

end Sys2Proof.Config
end

