-- ==== Sys2Proof/Machine/Params.lean ====
section
/-! DEFINITION. The fixed literals of the block (R8, R9), the default CRC instance (R133), the default value of every
parameter of R8, and which values of the parameters are legal. -/

namespace Sys2Proof.Machine

/-- `ACK_BYTE` (R97). -/
def ackByte : Byte := 0x06#8

/-- `IDLE_LIMIT`: consecutive idle timeouts tolerated (R222). -/
abbrev idleLimit : Nat := 3

/-- `W_MIN`: the least window (R268). -/
abbrev wMin : Nat := 4

/-- `LEN_MAX`: the largest frame body in bytes (R95). -/
abbrev lenMax : Nat := 32767

/-- The bound on `len(M[r].buf)`, in bits (R25). -/
abbrev bufMax : Nat := 8 * 32767 + 40

/-- `n` rounds of the bitwise CRC-16/XMODEM shift (R133). -/
def xmodemShift : Nat → U16 → U16
  | 0, a => a
  | n + 1, a => xmodemShift n (if a.msb then (a <<< 1) ^^^ 0x1021#16 else a <<< 1)

/-- `crc_step` of the default instance (R133). -/
def xmodemStep (a : U16) (b : Byte) : U16 :=
  xmodemShift 8 (a ^^^ (b.zeroExtend 16 <<< 8))

/-- The default marker bytes 01, 02, 03, 04 (R8). DESIGN CHOICE of the spec (D20), log 4. -/
def defaultMarker (p : Fin 4) : Byte := BitVec.ofNat 8 (p.val + 1)

/-- The "value here" column of R8. DESIGN CHOICE of the spec, log 4: exec and step run at these values. -/
def defaultParams : Config.Params where
  crcStep := xmodemStep
  crcInit := 0x0000#16
  crcFin := id
  marker := defaultMarker
  lineStaleTicks := 20
  lineMax := 256
  fbMax := 16
  nmsg := 2
  wMax := 128
  tMin := 1
  tMax := 65535
  qMax := some 16
  pMax := none
  ackDelay := fun t => t / 4

/-- The legal values of the parameters: R8's column, and for the four parameters for which that column gives none the
values the encoding and the rules leave open (DEDUCED, log 21). -/
structure LegalParams (P : Config.Params) : Prop where
  marker_distinct : ∀ p q, P.marker p = P.marker q → p = q
  marker_plain : ∀ p, P.marker p ≠ ackByte ∧ P.marker p ≠ 0x0A#8 ∧ P.marker p ≠ 0x0D#8 ∧ (P.marker p).toNat < 0xC0
  stale_pos : 1 ≤ P.lineStaleTicks
  line_big : 8 ≤ P.lineMax
  /-- Up to 16 the short form of a chunk is unambiguous (D7, R177). -/
  chunk_width : 1 ≤ P.fbMax ∧ P.fbMax ≤ 16
  /-- The register field has two bits (R101). -/
  registers : 1 ≤ P.nmsg ∧ P.nmsg ≤ 4
  window_range : 4 ≤ P.wMax ∧ P.wMax ≤ 255
  /-- The operand of ARQ.OPEN, a field of 16 bits, cannot exceed `T_MAX` (R268). -/
  timeout_range : P.tMin ≤ P.tMax ∧ 65535 ≤ P.tMax
  queue_pos : ∀ n, P.qMax = some n → 1 ≤ n
  payload_pos : ∀ n, P.pMax = some n → 1 ≤ n
  ack_in_time : ∀ t, P.ackDelay t ≤ t

end Sys2Proof.Machine
end

