-- ==== Sys2Proof/Machine/State.lean ====
section
/-! DEFINITION. The whole state of one block instance (10_state.md R20 to R43), the command port and the answer it gives
(R10, R11, R100, R104, R105), and the state right after reset (R43, R390). All of it is plain data. -/

namespace Sys2Proof.Machine

/-! ## Messages -/

/-- A message value (R21). -/
structure Msg where
  /-- Destination address, in -4 .. 127 where present. -/
  dst : Option Int
  /-- Source address, in -4 .. 127 where present. -/
  src : Option Int
  /-- Message class, in 0 .. 255 where present; none while the header is incomplete. -/
  code : Option Nat
  /-- Payload bits; while `code` is none during reception, every bit received so far. -/
  buf : Bits
  /-- Transmission priority, carried out of band. -/
  prio : Fin 4
  /-- Extraction cursor; none when no extraction is open. -/
  xpos : Option Nat
  deriving DecidableEq, Repr

/-- `EMPTY` (R23). -/
def Msg.empty : Msg := { dst := none, src := none, code := none, buf := [], prio := 0, xpos := none }

/-! ## The CRC unit -/

/-- The host-visible CRC accumulator (R28). -/
structure Crc where
  acc : U16
  deriving DecidableEq, Repr

/-! ## The framer -/

/-- The receive state of the framer (R31). -/
inductive FrmState where
  | idle | len | len2 | data | crc1 | crc2 | utf8
  deriving DecidableEq, Repr

/-- The framer's record (R30). -/
structure Frm where
  s : FrmState
  prioIn : Fin 4
  lenIn : Nat
  crc : U16
  res : U16
  idleCnt : Nat
  mIn : Msg
  hold : Msg
  holdValid : Bool
  line : Bytes
  lineAge : Nat
  utf8Rem : Nat
  tmoEn : Bool
  deriving DecidableEq, Repr

/-! ## The ARQ engine -/

/-- Life cycle of a channel (R36). -/
inductive Phase where
  | unopened | opened | closed
  deriving DecidableEq, Repr

/-- One entry of `pend`: payload, retransmit deadline, completion handle (R36). -/
structure PendEntry where
  payload : Bytes
  deadline : Nat
  handle : U16
  deriving DecidableEq, Repr

/-- One entry of `sendq` (R36). -/
structure Queued where
  payload : Bytes
  handle : U16
  deriving DecidableEq, Repr

/-- A table indexed by sequence number: the pairs (index, entry) with the indices strictly rising, an absent index
standing for `None` (log 10). -/
abbrev Table (α : Type) := List (Nat × α)

/-- The ARQ session record (R36). -/
structure Arq where
  phase : Phase
  window : Nat
  timeout : Nat
  sendHead : Nat
  sendTail : Nat
  recvHead : Nat
  recvTail : Nat
  pend : Table PendEntry
  oor : Table Bytes
  sendq : List Queued
  resetLevel : Fin 4
  resetDeadline : Nat
  ackPending : Bool
  ackDeadline : Nat
  deriving DecidableEq, Repr

/-- A configuration proposal: `t` the timeout in ms, `m` the window (R110). -/
structure ArqCfg where
  t : Nat
  m : Nat
  deriving DecidableEq, Repr

/-- A message of the channel below the ARQ unit (R110). `a` is the mark of a reset message. -/
structure ArqMsg where
  s : Int
  r : Int
  x : Option (List Nat) := none
  /-- The payload, of any length (log 22). -/
  d : Option Bytes := none
  a : Bool := false
  c : Option ArqCfg := none
  n : Option (Fin 4) := none
  e : Option Bytes := none
  deriving DecidableEq, Repr

/-! ## What a command answers -/

/-- Status codes (R104); `ended` is END. -/
inductive Status where
  | ok | illegal | range | state | busy | closed | ended | malformed
  deriving DecidableEq, Repr

/-- The record MSG.GET returns (R168). -/
structure MsgFields where
  dst : Option Int
  src : Option Int
  code : Option Nat
  prio : Fin 4
  len : Nat
  data : Bytes
  xpos : Option Nat
  deriving DecidableEq, Repr

/-- The result value of a command (R104). -/
inductive Value where
  /-- No value. -/
  | none
  /-- A bit string (MSG.HEADER, MSG.FIRSTBITS). -/
  | bits (b : Bits)
  /-- A number (CRC.FINISH, MSG.HDRLEN, MSG.XCHUNK). -/
  | num (n : Nat)
  /-- The record of MSG.GET. -/
  | fields (f : MsgFields)
  /-- An optional number (ARQ.NEXT). -/
  | optNum (o : Option Nat)
  deriving DecidableEq, Repr

/-- Error kinds, the argument of `report_error` (R352). -/
inductive ErrKind where
  | crc | overflow | lost | header | arqBound | arqMalformed
  deriving DecidableEq, Repr

/-- Completion results (R360). -/
inductive Completion where
  | ok
  | closed
  | resetError (e : Bytes)
  | transport (err : Bytes)
  deriving DecidableEq, Repr

/-- The argument of the `process` event (R105, log 13). -/
structure Delivered where
  dst : Option Int
  src : Option Int
  code : Option Nat
  prio : Fin 4
  data : Bytes
  deriving DecidableEq, Repr

/-- Output events (R105). -/
inductive Event where
  | reportError (kind : ErrKind)
  | setTimeout (enable : Bool)
  | process (msg : Delivered)
  | processAck
  | dataOut (bytes : Bytes)
  | consoleLine (bytes : Bytes)
  | lowerSend (msg : ArqMsg)
  | dispatch (payload : Bytes)
  | sendDone (handle : U16) (result : Completion)
  deriving DecidableEq, Repr

/-- What a command yields: a result (status, value) and its ordered events (R10). -/
structure Answer where
  status : Status
  value : Value
  events : List Event
  deriving DecidableEq, Repr

/-! ## The command port -/

/-- The operand record beside a command word (R100): every operand R101 names in that column, of which a command
reads those of its own row. DESIGN CHOICE, log 3. -/
structure Operands where
  /-- `bytes` of MSG.ADDDATA. -/
  bytes : Bytes := []
  /-- `payload` of ARQ.SEND. -/
  payload : Bytes := []
  /-- `err` of ARQ.RESET and ARQ.LOWERFAIL. -/
  err : Bytes := []
  /-- `msg` of ARQ.RECV. -/
  msg : ArqMsg := { s := 0, r := 0 }
  /-- `now`, in ms (R261). -/
  now : Nat := 0
  deriving DecidableEq, Repr

/-- One command: the word and the operand record (R10, R100). -/
structure Command where
  word : Word
  operands : Operands := {}
  deriving DecidableEq, Repr

/-- The command port and its answer: the MODEL's own fields. `issued` is what the host has issued and the block has not
yet taken, oldest first (log 1); `operands` is the record of the command being executed (log 3); `answer` is what the
last command answered, none before the first (log 2). DESIGN CHOICE. -/
structure Port where
  issued : List Command
  operands : Operands
  answer : Option Answer
  deriving DecidableEq, Repr

/-- The state of one block instance (R20), with the port. -/
structure State where
  crc : Crc
  /-- The message registers `M[0 .. NMSG-1]` (R24). -/
  msgs : List Msg
  frm : Frm
  arq : Arq
  port : Port
  deriving DecidableEq, Repr

/-- No command of the block stops the machine: "every command word and every operand value has a defined result, which
for illegal ones is a refusal" (93_implementation_defined.md part 1), and such a refusal is an answer of the port (R11),
a next state. So there is no fault, and nobody raises one. -/
inductive Fault where
  deriving DecidableEq, Repr

/-- Why the model gives an instruction no meaning. -/
inductive Refusal where
  /-- Raised by `exec` for an instruction that has no meaning yet; none is left, so nobody raises it. Safe: nothing
  follows from a refused instruction. -/
  | notModelled (mnemonic : String)
  deriving DecidableEq, Repr

/-! ## Reset -/

/-- The framer after reset (R43). -/
def Frm.reset (P : Config.Params) : Frm :=
  { s := .idle, prioIn := 0, lenIn := 0, crc := P.crcInit, res := 0, idleCnt := 0, mIn := Msg.empty,
    hold := Msg.empty, holdValid := false, line := [], lineAge := 0, utf8Rem := 0, tmoEn := false }

/-- The ARQ record after reset (R43). -/
def Arq.reset : Arq :=
  { phase := .unopened, window := 4, timeout := 1, sendHead := 0, sendTail := 0, recvHead := 0, recvTail := 0,
    pend := [], oor := [], sendq := [], resetLevel := 0, resetDeadline := 0, ackPending := false, ackDeadline := 0 }

/-- Every field of crc, M, frm and arq at its reset value, the port as given (R43, R390). -/
def State.resetUnits (P : Config.Params) (port : Port) : State :=
  { crc := ⟨P.crcInit⟩, msgs := List.replicate P.nmsg Msg.empty, frm := Frm.reset P, arq := Arq.reset, port := port }

/-- The port before the host has issued anything. DESIGN CHOICE, log 6. -/
def Port.reset : Port := { issued := [], operands := {}, answer := none }

/-- The machine right after reset (R43, R390). -/
def State.reset : State := State.resetUnits defaultParams Port.reset

end Sys2Proof.Machine
end

