-- ==== Sys2Proof/Machine/Ops.lean ====
section
/-! DEFINITION. The named operations over the block's storage: bit and byte strings (R12, R13, R61), bit buffers
(R14, R62), tables (R36), message registers (R24), the event list with the error report that takes the place of a trap
(R351, R364), and the command port (R10, R11, R100). -/

namespace Sys2Proof.Machine

/-! ## Bit strings -/

/-- `bits(v, n)`: the n-bit string of `v`, most significant bit first (R13). -/
def bitsOfNat : (n v : Nat) → Bits
  | 0, _ => []
  | n + 1, v => v.testBit n :: bitsOfNat n v

/-- `uint(B)`: the unsigned value of `B`, position 0 the most significant bit (R13). -/
def uint (B : Bits) : Nat := B.foldl (fun a b => 2 * a + b.toNat) 0

/-- `zeros(n)` (R13). -/
def zeros (n : Nat) : Bits := List.replicate n false

/-- `slice(B, i, j)`: positions `i` up to but not including `j` (R13). -/
def slice (B : Bits) (i j : Nat) : Bits := (B.drop i).take (j - i)

/-- `bytes_of` of the whole bytes of a bit string; the bits after the last whole byte are left out (R13, R22, R61). -/
def bytesOf : Bits → Bytes
  | b7 :: b6 :: b5 :: b4 :: b3 :: b2 :: b1 :: b0 :: rest =>
    BitVec.ofNat 8 (uint [b7, b6, b5, b4, b3, b2, b1, b0]) :: bytesOf rest
  | _ => []

/-- `bits(b, 8)` of one byte (R13). -/
def byteBits (b : Byte) : Bits := bitsOfNat 8 b.toNat

/-- `bits_of(S)` (R13). -/
def bitsOf (S : Bytes) : Bits := S.flatMap byteBits

/-- `bit_length(v)` for `v` below `2 ^ n` (R12). -/
def bitLength : (n v : Nat) → Nat
  | 0, _ => 0
  | n + 1, v => if v.testBit n then n + 1 else bitLength n v

/-- `MemRead(B, pos, n)` (R14). -/
def memRead (B : Bits) (pos n : Nat) : Nat := uint (slice B pos (pos + n))

/-- `MemWrite(B, n, v)`: buffers are append-only (R14, R62). -/
def memWrite (B : Bits) (n v : Nat) : Bits := B ++ bitsOfNat n v

/-- The number of bits missing to the next byte boundary, 0 on a boundary (R164). -/
def padBits (len : Nat) : Nat := (8 - len % 8) % 8

/-- `take(B, 8 * (len(B) div 8))`: the whole bytes of a buffer (R22, R178). -/
def wholeBytes (B : Bits) : Bits := B.take (8 * (B.length / 8))

/-! ## Tables -/

/-- `t[q]` (R14). -/
def tableGet {α : Type} : Table α → Nat → Option α
  | [], _ => none
  | (k, v) :: t, q => if k = q then some v else tableGet t q

/-- `t[q] <- Some v`, the indices kept strictly rising (R14, log 10). -/
def tableSet {α : Type} : Table α → Nat → α → Table α
  | [], q, v => [(q, v)]
  | (k, w) :: t, q, v =>
    if q < k then (q, v) :: (k, w) :: t
    else if q = k then (q, v) :: t
    else (k, w) :: tableSet t q v

/-- `t[q] <- None` (R14, log 10). -/
def tableErase {α : Type} : Table α → Nat → Table α
  | [], _ => []
  | (k, w) :: t, q => if k = q then tableErase t q else (k, w) :: tableErase t q

/-- The canonical form of a table: indices strictly rising (log 10). -/
abbrev TableWf {α : Type} (t : Table α) : Prop := (t.map Prod.fst).Pairwise (· < ·)

/-! ## Message registers -/

/-- `M[r]`; none where `r >= NMSG`, the length of the register file (R24, R101). -/
def State.msg? (s : State) (r : Nat) : Option Msg := s.msgs[r]?

/-- `M[r] <- m` (R14, R24). -/
def State.setMsg (s : State) (r : Nat) (m : Msg) : State := { s with msgs := s.msgs.set r m }

/-! ## Events -/

/-- A unit's record together with the events its command has emitted so far, in order (R10, R76). -/
structure Acc (σ : Type) where
  st : σ
  ev : List Event
  deriving DecidableEq, Repr

/-- The start of a command: no event emitted yet. -/
def Acc.start {σ : Type} (st : σ) : Acc σ := { st := st, ev := [] }

/-- `emit ev(args)` (R14). -/
def Acc.emit {σ : Type} (x : Acc σ) (e : Event) : Acc σ := { x with ev := x.ev ++ [e] }

/-- An assignment to fields of the unit's record. -/
def Acc.upd {σ : Type} (x : Acc σ) (f : σ → σ) : Acc σ := { x with st := f x.st }

/-- `raise K`: the error report, the block's only form of trap. It appends the report at this point and the command
goes on; nothing is saved, no mode changes, control never leaves the command (R14, R351, R364, R365). -/
def Acc.raise {σ : Type} (x : Acc σ) (k : ErrKind) : Acc σ := x.emit (.reportError k)

/-! ## The command port -/

/-- The command returns its status, value and events (R10). -/
def State.answer (s : State) (status : Status) (value : Value) (events : List Event) : State :=
  { s with port := { s.port with answer := some { status := status, value := value, events := events } } }

/-- `refuse(S)`: the named status, no state written, no event (R11). -/
def State.refuse (s : State) (status : Status) : State := s.answer status .none []

/-- `return (OK, value)` of a command that emits no event. -/
def State.done (s : State) (value : Value) : State := s.answer .ok value []

/-- A framer command ends: its record is written and its events are answered, status OK. -/
def State.commitFrm (s : State) (x : Acc Frm) : State := ({ s with frm := x.st } : State).answer .ok .none x.ev

/-- An ARQ command ends: its record is written and its events are answered, status OK. -/
def State.commitArq (s : State) (x : Acc Arq) : State := ({ s with arq := x.st } : State).answer .ok .none x.ev

/-- The block takes the oldest issued command: its word, and the state with the command off the list and its operand
record at the port; none when the host has issued nothing (R10, R75, log 1). -/
def State.fetch (s : State) : Option (Word × State) :=
  match s.port.issued with
  | [] => none
  | c :: rest => some (c.word, { s with port := { s.port with issued := rest, operands := c.operands } })

/-- A word that is no command is refused with ILLEGAL (R103). -/
def State.illegal (s : State) : State := s.refuse .illegal

/-- The oldest issued command's word replaced by `w`, its operand record kept; a command with a blank record where
none is issued. -/
def Port.overwriteWord (p : Port) (w : Word) : Port :=
  match p.issued with
  | [] => { p with issued := [{ word := w }] }
  | c :: rest => { p with issued := { c with word := w } :: rest }

/-! ## The numbers this spec gives -/

/-- The status codes of R104. -/
def statusCode : Status → Nat
  | .ok => 0
  | .illegal => 1
  | .range => 2
  | .state => 3
  | .busy => 4
  | .closed => 5
  | .ended => 6
  | .malformed => 7

/-- The event ids of R105. -/
def eventId : Event → Nat
  | .reportError _ => 1
  | .setTimeout _ => 2
  | .process _ => 3
  | .processAck => 4
  | .dataOut _ => 5
  | .consoleLine _ => 6
  | .lowerSend _ => 7
  | .dispatch _ => 8
  | .sendDone _ _ => 9

/-- The error kind codes of R352. -/
def errKindCode : ErrKind → Nat
  | .crc => 1
  | .overflow => 2
  | .lost => 3
  | .header => 4
  | .arqBound => 5
  | .arqMalformed => 6

/-- The completion result codes of R360. -/
def completionCode : Completion → Nat
  | .ok => 0
  | .closed => 1
  | .resetError _ => 2
  | .transport _ => 3

/-- The suggested encoding of `frm.s` (R31); no command reads it. -/
def frmStateCode : FrmState → Nat
  | .idle => 0
  | .len => 1
  | .len2 => 2
  | .data => 3
  | .crc1 => 4
  | .crc2 => 5
  | .utf8 => 6

end Sys2Proof.Machine
end

