-- ==== Sys2Proof/Machine/Flags.lean ====
section
/-! DEFINITION. The flags and predicates of the block (R27, R37, R38): which are state and which are derived. The block
has no condition-code register. -/

namespace Sys2Proof.Machine

/-- "Header incomplete": `M[r].code = None` (R27). -/
def Msg.headerIncomplete (m : Msg) : Bool := m.code.isNone

/-- `in_reset` (R27, R37). -/
def Arq.inReset (a : Arq) : Bool := decide (a.resetLevel ≠ 0)

/-- The continuation flag of a chunk value: bit `frame_bits` (R27, R99). -/
def continuationFlag (fb value : Nat) : Bool := value.testBit fb

/-- The framer is quiescent: `Idle` with an empty console line (R16, R204). -/
def Frm.quiescent (f : Frm) : Bool := decide (f.s = .idle) && f.line.isEmpty

/-- The value `frm.tmo_en` is brought to by `SyncTimeout` (R204). -/
def Frm.wantTimeout (f : Frm) : Bool := !f.quiescent

/-- `fwd(a, b) = (a - b) mod W` on the integers (R38, R301; log 15 for a window of 0). -/
def fwd (W a b : Nat) : Nat := (((a : Int) - (b : Int)) % (W : Int)).toNat

/-- `half = W div 2` (R38). -/
def Arq.half (a : Arq) : Nat := a.window / 2

/-- `inflight` (R38). -/
def Arq.inflight (a : Arq) : Nat := fwd a.window a.sendHead a.sendTail

/-- `rspan` (R38). -/
def Arq.rspan (a : Arq) : Nat := fwd a.window a.recvHead a.recvTail

/-- `next(q) = (q + 1) mod W` (R38). -/
def Arq.nextSeq (a : Arq) (q : Nat) : Nat := (q + 1) % a.window

/-- Window space is available: `inflight < half` (R266). -/
def Arq.hasSpace (a : Arq) : Bool := decide (a.inflight < a.half)

end Sys2Proof.Machine
end

