-- ==== Sys2Proof/Machine/Header.lean ====
section
/-! DEFINITION. The message header (R90 to R93, R150 to R154), the views derived from it (R22), and the
header-detecting append (R176). -/

namespace Sys2Proof.Machine

/-- The three fields of a complete header. -/
structure Hdr where
  dst : Int
  src : Int
  code : Nat
  deriving DecidableEq, Repr

/-- `addr_w(a)` (R22). -/
def addrW (a : Int) : Nat := if a < 0 then 3 else 8

/-- `code_w` of the two addresses (R22): 2, 5 or 8 bits. -/
def codeW (dst src : Int) : Nat :=
  if dst < 0 ∧ src < 0 then 2 else if 0 ≤ dst ∧ 0 ≤ src then 8 else 5

/-- `hdr_bits` (R22). -/
def hdrBits (dst src : Int) : Nat := addrW dst + addrW src + codeW dst src

/-- `header_len` in bytes (R22). -/
def headerLen (dst src : Int) : Nat := hdrBits dst src / 8

/-- `enc_addr(a)` (R91). -/
def encAddr (a : Int) : Bits :=
  if a < 0 then true :: bitsOfNat 2 (a + 4).toNat else false :: bitsOfNat 7 a.toNat

/-- `dec_addr` of one address field (R91). -/
def decAddr : Bits → Int
  | true :: v => (uint v : Int) - 4
  | v => (uint v : Int)

/-- `enc_header` (R90, R152). -/
def encHeader (h : Hdr) : Bits :=
  encAddr h.dst ++ encAddr h.src ++ bitsOfNat (codeW h.dst h.src) h.code

/-- The header fields of a message, where all three are present. -/
def Msg.hdr? (m : Msg) : Option Hdr :=
  match m.dst, m.src, m.code with
  | some dst, some src, some code => some { dst := dst, src := src, code := code }
  | _, _, _ => none

/-- `NeedHeader(m)`: the header, or the status the command is refused with (R153). -/
def needHeader (m : Msg) : Except Status Hdr :=
  match m.hdr? with
  | none => .error .state
  | some h => if h.code < 2 ^ codeW h.dst h.src then .ok h else .error .range

/-- `stream(m)` of a message with header `h` (R154). -/
def streamOf (h : Hdr) (m : Msg) : Bits := encHeader h ++ m.buf

/-- `T(m)`, the length of the stream (R154). -/
def streamLen (h : Hdr) (m : Msg) : Nat := hdrBits h.dst h.src + m.buf.length

/-- `data(m)`: the whole bytes of the payload (R22, R168). -/
def Msg.data (m : Msg) : Bytes := bytesOf (wholeBytes m.buf)

/-- The width of an address field, from its tag bit (R92, R176). -/
def tagW (t : Bool) : Nat := if t then 3 else 8

/-- The header's length in bits, from the two tag bits (R92, R176). -/
def tagHdrBits (t1 t2 : Bool) : Nat :=
  if t1 && t2 then 8 else if !t1 && !t2 then 24 else 16

/-- Header detection in a bit buffer: once the tag bits and all the header's bits are present, the three fields and
the bits after the header (R92, R176). -/
def headerSplit (b : Bits) : Option (Hdr × Bits) :=
  match b[0]? with
  | none => none
  | some t1 =>
    match b[tagW t1]? with
    | none => none
    | some t2 =>
      if tagHdrBits t1 t2 ≤ b.length then
        some ({ dst := decAddr (slice b 0 (tagW t1)),
                src := decAddr (slice b (tagW t1) (tagW t1 + tagW t2)),
                code := uint (slice b (tagW t1 + tagW t2) (tagHdrBits t1 t2)) },
              b.drop (tagHdrBits t1 t2))
      else none

/-- `Append(m, B)`, the header-detecting append (R176). -/
def Msg.append (m : Msg) (B : Bits) : Msg :=
  match m.code with
  | some _ => { m with buf := m.buf ++ B }
  | none =>
    match headerSplit (m.buf ++ B) with
    | none => { m with buf := m.buf ++ B }
    | some (h, rest) => { m with dst := some h.dst, src := some h.src, code := some h.code, buf := rest }

/-- The fields a `process` event carries (R105, R219). -/
def Msg.delivered (m : Msg) : Delivered :=
  { dst := m.dst, src := m.src, code := m.code, prio := m.prio, data := m.data }

/-- The record MSG.GET returns (R168). -/
def Msg.fields (m : Msg) : MsgFields :=
  { dst := m.dst, src := m.src, code := m.code, prio := m.prio, len := m.buf.length, data := m.data, xpos := m.xpos }

end Sys2Proof.Machine
end

