-- ==== Sys2Proof/Machine/Operands.lean ====
section
/-! DEFINITION. The operand forms of the commands: the register operand with its refusal (R101), the header a command
needs (R153), the chunk width and the chunk value (R67, R99, R172, R177), and the operand record (R100). -/

namespace Sys2Proof.Machine

/-- The register operand: `f` runs on `M[r]`; `r >= NMSG` is refused with RANGE (R101, R355). -/
def State.withMsg (s : State) (r : Nat) (f : Msg → State) : State :=
  match s.msg? r with
  | none => s.refuse .range
  | some m => f m

/-- `NeedHeader(m)` inside a command: `f` runs on the header; otherwise the refusal of R153. -/
def State.withHeader (s : State) (m : Msg) (f : Hdr → State) : State :=
  match needHeader m with
  | .error st => s.refuse st
  | .ok h => f h

/-- The legal chunk widths, 1 .. FB_MAX (R67). -/
abbrev FrameBitsOk (P : Config.Params) (fb : Nat) : Prop := 1 ≤ fb ∧ fb ≤ P.fbMax

/-- A MSG.SETADDR address that the port refuses: below -4 (R161). -/
abbrev AddrRefused (a : Int) : Prop := a < -4

/-- The chunk MSG.XCHUNK takes from stream `S` at position `pos` with `k > 0` bits remaining: its value and the cursor
after it, in the full, short (flagged) and padded forms of R99 and R172. -/
def chunkAt (S : Bits) (pos k fb : Nat) : Nat × Nat :=
  if fb ≤ k then (memRead S pos fb, pos + fb)
  else if 8 ≤ fb - k then (2 ^ fb + memRead S pos k, S.length)
  else (memRead S pos k * 2 ^ (fb - k), S.length)

/-- The bits missing to the next byte boundary, 1 .. 8: what a flagged chunk carries (R177). -/
def missingBits (len : Nat) : Nat := 8 - len % 8

/-- The bits a chunk value carries on reception, given the length of the buffer it is appended to: how many, and their
value; or the refusal of R177. -/
def chunkBits (len fb value : Nat) : Except Status (Nat × Nat) :=
  if 2 ^ (fb + 1) ≤ value then .error .malformed
  else if continuationFlag fb value then
    if fb < missingBits len + 8 ∨ 2 ^ missingBits len ≤ value % 2 ^ fb then .error .malformed
    else .ok (missingBits len, value % 2 ^ fb)
  else .ok (fb, value)

/-- `now` of the operand record (R261). -/
def State.now (s : State) : Nat := s.port.operands.now

end Sys2Proof.Machine
end

