-- ==== Sys2Proof/Machine/ArqOps.lean ====
section
/-! DEFINITION. The shared operations of the ARQ engine (44_arq_engine.md, section 2): message constructors, release and
failure of sends, the state reset, allocation, draining. -/

namespace Sys2Proof.Machine

/-! ## Messages -/

/-- `XList()`: the sequence numbers buffered out of order, ascending from `recv_tail` (R264). ARQ.SEND and ARQ.TICK read
`oor` through it, as R264, R266 and R288 say, although R60's table lists ARQ.RECV alone as a reader of `oor`. DEDUCED,
log 23. -/
def Arq.xList (a : Arq) : List Nat :=
  ((List.range (a.rspan - 1)).map fun i => (a.recvTail + (i + 1)) % a.window).filter fun q => (tableGet a.oor q).isSome

/-- The field `x` of an outgoing message: present when the list is non-empty (R264). -/
def Arq.xField (a : Arq) : Option (List Nat) := if a.xList = [] then none else some a.xList

/-- `MkData(q)` with the payload of `pend[q]` (R264). -/
def mkData (a : Arq) (q : Nat) (payload : Bytes) : ArqMsg :=
  { s := q, r := a.recvTail, x := a.xField, d := some payload }

/-- `MkAck()` (R264). -/
def mkAck (a : Arq) : ArqMsg := { s := a.sendHead, r := a.recvTail, x := a.xField }

/-- `MkReset(n, e)` (R264). -/
def mkReset (a : Arq) (n : Fin 4) (e : Option Bytes) : ArqMsg :=
  { s := if n = 1 then -1 else 0, r := if n = 1 then -1 else 0, a := true, n := some n,
    c := if n = 1 ∨ n = 2 then some { t := a.timeout, m := a.window } else none, e := e }

/-- Emission of a message that carries `r`, which clears `ack_pending` (R264). -/
def sendCarrier (msg : ArqMsg) (x : Acc Arq) : Acc Arq :=
  (x.emit (.lowerSend msg)).upd fun a => { a with ackPending := false }

/-- Emission of the reset message of a level (R264). -/
def sendReset (n : Fin 4) (e : Option Bytes) (x : Acc Arq) : Acc Arq := x.emit (.lowerSend (mkReset x.st n e))

/-! ## Completion of sends -/

/-- `Release(q, res)` (R265). -/
def release (res : Completion) (x : Acc Arq) (q : Nat) : Acc Arq :=
  match tableGet x.st.pend q with
  | none => x
  | some entry => (x.emit (.sendDone entry.handle res)).upd fun a => { a with pend := tableErase a.pend q }

/-- The `n` sequence numbers from `send_tail` on, modulo the window (R265). -/
def Arq.fromTail (a : Arq) (n : Nat) : List Nat := (List.range n).map fun i => (a.sendTail + i) % a.window

/-- `Release` of each of a list of sequence numbers, in order. -/
def releaseAll (res : Completion) (qs : List Nat) (x : Acc Arq) : Acc Arq := qs.foldl (release res) x

/-- The completion of the queued sends, oldest first (R265). -/
def failQueue (res : Completion) (queue : List Queued) (x : Acc Arq) : Acc Arq :=
  queue.foldl (fun y p => y.emit (.sendDone p.handle res)) x

/-- `FailAll(res)` (R265). -/
def failAll (res : Completion) (x : Acc Arq) : Acc Arq :=
  (failQueue res x.st.sendq (releaseAll res (x.st.fromTail x.st.inflight) x)).upd fun a => { a with sendq := [] }

/-- The in-flight sends not yet released, in sequence order (R265). -/
def Arq.requeued (a : Arq) : List Queued :=
  (a.fromTail a.inflight).filterMap fun q =>
    (tableGet a.pend q).map fun entry => { payload := entry.payload, handle := entry.handle }

/-- `ResetState()` (R265). -/
def Arq.resetState (a : Arq) : Arq :=
  { a with sendq := a.requeued ++ a.sendq, pend := [], oor := [], sendHead := 0, sendTail := 0, recvHead := 0,
           recvTail := 0, ackPending := false }

/-! ## Allocation -/

/-- `Alloc(p, h, now)` (R266). -/
def alloc (payload : Bytes) (handle : U16) (now : Nat) (x : Acc Arq) : Acc Arq :=
  let q := x.st.sendHead
  let y := x.upd fun a =>
    { a with pend := tableSet a.pend q { payload := payload, deadline := now + a.timeout, handle := handle },
             sendHead := a.nextSeq q }
  sendCarrier (mkData y.st q payload) y

/-- The loop of `StartQueued(now)` over the queue (R267). -/
def startFrom (now : Nat) : List Queued → Acc Arq → Acc Arq
  | [], x => x
  | p :: rest, x =>
    if x.st.resetLevel = 0 ∧ x.st.hasSpace then
      startFrom now rest (alloc p.payload p.handle now (x.upd fun a => { a with sendq := rest }))
    else x

/-- `StartQueued(now)` (R267). -/
def startQueued (now : Nat) (x : Acc Arq) : Acc Arq := startFrom now x.st.sendq x

/-! ## Reception -/

/-- At most `n` rounds of the loop of `Drain()` (R285). -/
def drainFor : Nat → Acc Arq → Acc Arq
  | 0, x => x
  | n + 1, x =>
    match tableGet x.st.oor x.st.recvTail with
    | none => x
    | some payload =>
      drainFor n ((x.emit (.dispatch payload)).upd fun a =>
        { a with oor := tableErase a.oor a.recvTail, recvTail := a.nextSeq a.recvTail })

/-- `Drain()`: each round takes an entry out of `oor`, so as many rounds as `oor` has entries are all of them (R285,
R411). -/
def drain (x : Acc Arq) : Acc Arq := drainFor x.st.oor.length x

/-- `ProcessAck(r)` (R281). -/
def processAck (r : Nat) (x : Acc Arq) : Acc Arq :=
  if fwd x.st.window r x.st.sendTail ≤ x.st.inflight then
    (releaseAll .ok (x.st.fromTail (fwd x.st.window r x.st.sendTail)) x).upd fun a => { a with sendTail := r }
  else x

/-- `ProcessX(x)` (R283). -/
def processX (qs : List Nat) (x : Acc Arq) : Acc Arq :=
  qs.foldl
    (fun y q => if fwd y.st.window q y.st.sendTail < y.st.inflight then release .ok y q else y) x

/-- The buffering half of `AcceptData(s, d)`: a duplicate keeps the first copy (R284). -/
def Arq.buffer (a : Arq) (s : Nat) (d : Bytes) : Arq :=
  { a with oor := if (tableGet a.oor s).isNone then tableSet a.oor s d else a.oor,
           recvHead := if a.rspan ≤ fwd a.window s a.recvTail then a.nextSeq s else a.recvHead }

/-- `AcceptData(s, d)` (R284). -/
def acceptData (s : Nat) (d : Bytes) (x : Acc Arq) : Acc Arq :=
  if fwd x.st.window s x.st.recvTail < x.st.half then drain (x.upd fun a => a.buffer s d) else x

/-- `MarkAck(now)` (R286). -/
def markAck (P : Config.Params) (now : Nat) (x : Acc Arq) : Acc Arq :=
  if x.st.ackPending then x
  else x.upd fun a => { a with ackPending := true, ackDeadline := now + P.ackDelay a.timeout }

/-- `Merge(c)` (R282). -/
def Arq.merge (a : Arq) (c : ArqCfg) : Arq :=
  { a with timeout := max a.timeout c.t, window := min a.window c.m }

/-! ## Deadlines -/

/-- Whether entry `e` is retransmitted before entry `b`: the lesser deadline, then the lesser distance from
`send_tail` (R288). -/
def Arq.moreOverdue (a : Arq) (e b : Nat × PendEntry) : Bool :=
  decide (e.2.deadline < b.2.deadline) ||
    (e.2.deadline == b.2.deadline && decide (fwd a.window e.1 a.sendTail < fwd a.window b.1 a.sendTail))

/-- The single most overdue of the entries whose deadline has come (R288). -/
def Arq.mostOverdue (a : Arq) (now : Nat) : Option (Nat × PendEntry) :=
  (a.pend.filter fun e => decide (e.2.deadline ≤ now)).foldl
    (fun best e =>
      match best with
      | none => some e
      | some b => if a.moreOverdue e b then some e else some b) none

/-- The deadlines of R276: those of `pend`, and `ack_deadline` while `ack_pending = 1`. -/
def Arq.deadlines (a : Arq) : List Nat :=
  a.pend.map (fun e => e.2.deadline) ++ if a.ackPending then [a.ackDeadline] else []

/-- The minimum of a list, none of the empty one. -/
def minimumOf : List Nat → Option Nat
  | [] => none
  | d :: ds => some (ds.foldl min d)

/-- The result of ARQ.NEXT (R276). -/
def Arq.nextDeadline (a : Arq) : Option Nat :=
  if a.phase ≠ .opened then none
  else if a.inReset then some a.resetDeadline
  else minimumOf a.deadlines

end Sys2Proof.Machine
end

