-- ==== Sys2Proof/Machine/Arq.lean ====
section
/-! DEFINITION. The ARQ engine (44_arq_engine.md): ARQ.OPEN, ARQ.SEND, ARQ.RECV, ARQ.TICK, ARQ.CLOSE, ARQ.RESET,
ARQ.LOWERFAIL, ARQ.NEXT. -/

namespace Sys2Proof.Machine

/-! ## ARQ.OPEN and ARQ.SEND -/

/-- The session record a channel opens with (R268). -/
def Arq.opening (a : Arq) (window timeout now : Nat) : Arq :=
  { a with phase := .opened, window := window, timeout := timeout, sendq := [], pend := [], oor := [], sendHead := 0,
           sendTail := 0, recvHead := 0, recvTail := 0, ackPending := false, ackDeadline := 0, resetLevel := 1,
           resetDeadline := now + timeout }

/-- ARQ.OPEN (R268). -/
def arqOpen (P : Config.Params) (window timeout : Nat) (s : State) : State :=
  if s.arq.phase = .opened then s.refuse .state
  else if window < wMin ∨ P.wMax < window ∨ timeout < P.tMin then s.refuse .range
  else s.commitArq (sendReset 1 none (Acc.start (s.arq.opening window timeout s.now)))

/-- The payload is longer than `P_MAX` (R270). -/
def payloadTooLong (P : Config.Params) (payload : Bytes) : Bool :=
  match P.pMax with
  | none => false
  | some n => decide (n < payload.length)

/-- The queue holds `Q_MAX` sends already (R270). -/
def queueFull (P : Config.Params) (a : Arq) : Bool :=
  match P.qMax with
  | none => false
  | some n => decide (n ≤ a.sendq.length)

/-- ARQ.SEND (R270). -/
def arqSend (P : Config.Params) (handle : U16) (s : State) : State :=
  match s.arq.phase with
  | .unopened => s.refuse .state
  | .closed => s.refuse .closed
  | .opened =>
    if payloadTooLong P s.port.operands.payload then s.refuse .range
    else if s.arq.resetLevel = 0 ∧ s.arq.sendq = [] ∧ s.arq.hasSpace then
      s.commitArq (alloc s.port.operands.payload handle s.now (Acc.start s.arq))
    else if queueFull P s.arq then s.refuse .busy
    else
      s.commitArq ((Acc.start s.arq).upd fun a =>
        { a with sendq := a.sendq ++ [{ payload := s.port.operands.payload, handle := handle }] })

/-! ## ARQ.RECV -/

/-- A configuration proposal violates a bound (R263). -/
def cfgOutOfBounds (P : Config.Params) (c : ArqCfg) : Bool :=
  decide (c.m < wMin) || decide (c.t < P.tMin) || decide (P.tMax < c.t)

/-- What is wrong with a reset message: none where it is well-formed (R263, case 1). -/
def resetMsgFault (P : Config.Params) (msg : ArqMsg) : Option ErrKind :=
  if msg.n = none ∨ ((msg.n = some 1 ∨ msg.n = some 2) ∧ msg.c = none) then some .arqMalformed
  else
    match msg.c with
    | none => none
    | some c => if cfgOutOfBounds P c then some .arqBound else none

/-- An integer is a sequence number of the window `W`: in `0 .. W-1` (R263). -/
abbrev IsSeq (W : Nat) (v : Int) : Prop := 0 ≤ v ∧ v < (W : Int)

/-- A normal message violates no bound (R263, case 2). -/
def normalMsgOk (W : Nat) (msg : ArqMsg) : Bool :=
  decide (IsSeq W msg.s) && decide (IsSeq W msg.r) && (msg.x.getD []).all fun q => decide (q < W)

/-- A reset message carrying `e` fails every send first (R273). -/
def failOnError (msg : ArqMsg) (x : Acc Arq) : Acc Arq :=
  match msg.e with
  | none => x
  | some e => failAll (.resetError e) x

/-- Reset message, `n = 0` (R274). -/
def recvTerminal (x : Acc Arq) : Acc Arq :=
  (failAll .closed x).upd fun a => { a.resetState with resetLevel := 0, phase := .closed }

/-- Reset message, `n = 1` (R275). -/
def recvLevel1 (c : ArqCfg) (now : Nat) (x : Acc Arq) : Acc Arq :=
  sendReset 2 none (x.upd fun a =>
    { a.resetState.merge c with resetLevel := 2, resetDeadline := now + (a.resetState.merge c).timeout })

/-- Reset message, `n = 2` (R277). -/
def recvLevel2 (c : ArqCfg) (now : Nat) (x : Acc Arq) : Acc Arq :=
  if x.st.inReset then
    startQueued now (sendReset 3 none (x.upd fun a => { a.merge c with resetLevel := 0 }))
  else sendReset 3 none x

/-- Reset message, `n = 3` (R278). -/
def recvLevel3 (now : Nat) (x : Acc Arq) : Acc Arq :=
  if x.st.resetLevel = 2 then startQueued now (x.upd fun a => { a with resetLevel := 0 }) else x

/-- A well-formed reset message by its level (R271). At levels 1 and 2 a well-formed message carries `c`. -/
def recvResetMsg (msg : ArqMsg) (now : Nat) (x : Acc Arq) : Acc Arq :=
  match msg.n, msg.c with
  | some 0, _ => recvTerminal x
  | some 1, some c => recvLevel1 c now x
  | some 2, some c => recvLevel2 c now x
  | some 3, _ => recvLevel3 now x
  | _, _ => x

/-- A normal message while `in_reset` (R279). -/
def recvDuringReset (now : Nat) (x : Acc Arq) : Acc Arq :=
  sendReset x.st.resetLevel none (x.upd fun a => { a with resetDeadline := now + a.timeout })

/-- The data part of a normal message (R280). A `d` longer than a finite `P_MAX` is buffered and dispatched like any other:
no rule tests its length. DESIGN CHOICE, log 22. -/
def recvData (P : Config.Params) (msg : ArqMsg) (now : Nat) (x : Acc Arq) : Acc Arq :=
  match msg.d with
  | none => x
  | some d => markAck P now (acceptData msg.s.toNat d x)

/-- The bare acknowledgement at the end of R280: when no send is in flight (R287). -/
def ackIfIdle (x : Acc Arq) : Acc Arq :=
  if x.st.ackPending ∧ x.st.pend = [] then sendCarrier (mkAck x.st) x else x

/-- A normal message at level 0, after the bound check (R280). -/
def recvNormal (P : Config.Params) (msg : ArqMsg) (now : Nat) (x : Acc Arq) : Acc Arq :=
  ackIfIdle (startQueued now (recvData P msg now (processX (msg.x.getD []) (processAck msg.r.toNat x))))

/-- A message received in phase `Open` (R263, R271). -/
def recvOpen (P : Config.Params) (msg : ArqMsg) (now : Nat) (x : Acc Arq) : Acc Arq :=
  if msg.a then
    match resetMsgFault P msg with
    | some kind => x.raise kind
    | none => recvResetMsg msg now (failOnError msg x)
  else if x.st.inReset then recvDuringReset now x
  else if normalMsgOk x.st.window msg then recvNormal P msg now x
  else x.raise .arqBound

/-- A message received in phase `Closed` (R272). -/
def recvClosed (msg : ArqMsg) (x : Acc Arq) : Acc Arq :=
  if msg.a ∧ msg.n = some 0 then x else sendReset 0 none x

/-- ARQ.RECV (R271). -/
def arqRecv (P : Config.Params) (s : State) : State :=
  match s.arq.phase with
  | .unopened => s.refuse .state
  | .closed => s.commitArq (recvClosed s.port.operands.msg (Acc.start s.arq))
  | .opened => s.commitArq (recvOpen P s.port.operands.msg s.now (Acc.start s.arq))

/-! ## ARQ.NEXT and ARQ.TICK -/

/-- ARQ.NEXT (R276). -/
def arqNext (s : State) : State := s.done (.optNum s.arq.nextDeadline)

/-- The retransmission of entry `q` (R288). -/
def retransmit (q : Nat) (entry : PendEntry) (now : Nat) (x : Acc Arq) : Acc Arq :=
  (sendCarrier (mkData x.st q entry.payload) x).upd fun a =>
    { a with pend := tableSet a.pend q { entry with deadline := now + a.timeout } }

/-- One wake-up of an open channel (R288). -/
def tickOpen (now : Nat) (x : Acc Arq) : Acc Arq :=
  if x.st.inReset then
    if x.st.resetDeadline ≤ now then
      (sendReset x.st.resetLevel none x).upd fun a => { a with resetDeadline := now + a.timeout }
    else x
  else
    match x.st.mostOverdue now with
    | some (q, entry) => retransmit q entry now x
    | none => if x.st.ackPending ∧ x.st.ackDeadline ≤ now then sendCarrier (mkAck x.st) x else x

/-- ARQ.TICK (R288). -/
def arqTick (s : State) : State :=
  if s.arq.phase = .opened then s.commitArq (tickOpen s.now (Acc.start s.arq)) else s.done .none

/-! ## ARQ.CLOSE, ARQ.RESET, ARQ.LOWERFAIL -/

/-- Closure: every send completes with `res`, then the session is reset and closed (R289, R291). -/
def closeWith (res : Completion) (x : Acc Arq) : Acc Arq :=
  (failAll res x).upd fun a => { a.resetState with resetLevel := 0, phase := .closed }

/-- ARQ.CLOSE (R289). -/
def arqClose (s : State) : State :=
  match s.arq.phase with
  | .unopened => s.refuse .state
  | .opened => s.commitArq (closeWith .closed (Acc.start s.arq))
  | .closed => s.done .none

/-- The body of ARQ.RESET, with the error of the operand record where there is one (R290). -/
def resetOpen (e : Option Bytes) (now : Nat) (x : Acc Arq) : Acc Arq :=
  let y :=
    match e with
    | none => x
    | some err => failAll (.resetError err) x
  sendReset 1 e (y.upd fun a => { a.resetState with resetLevel := 1, resetDeadline := now + a.timeout })

/-- ARQ.RESET (R290). -/
def arqReset (hasErr : Bool) (s : State) : State :=
  match s.arq.phase with
  | .unopened => s.refuse .state
  | .closed => s.refuse .closed
  | .opened =>
    s.commitArq (resetOpen (if hasErr then some s.port.operands.err else none) s.now (Acc.start s.arq))

/-- ARQ.LOWERFAIL (R291). -/
def arqLowerfail (s : State) : State :=
  match s.arq.phase with
  | .unopened => s.refuse .state
  | .opened => s.commitArq (closeWith (.transport s.port.operands.err) (Acc.start s.arq))
  | .closed => s.done .none

/-! ## The meanings -/

/-- ARQ.OPEN at the default parameters (R268). -/
def execArqOpen (window timeout : Nat) (s : State) : Host.Outcome State Fault Refusal :=
  .next (arqOpen defaultParams window timeout s)

/-- ARQ.SEND at the default parameters (R270). -/
def execArqSend (handle : U16) (s : State) : Host.Outcome State Fault Refusal :=
  .next (arqSend defaultParams handle s)

/-- ARQ.RECV at the default parameters (R271). -/
def execArqRecv (s : State) : Host.Outcome State Fault Refusal := .next (arqRecv defaultParams s)

/-- ARQ.TICK (R288). -/
def execArqTick (s : State) : Host.Outcome State Fault Refusal := .next (arqTick s)

/-- ARQ.CLOSE (R289). -/
def execArqClose (s : State) : Host.Outcome State Fault Refusal := .next (arqClose s)

/-- ARQ.RESET (R290). -/
def execArqReset (hasErr : Bool) (s : State) : Host.Outcome State Fault Refusal := .next (arqReset hasErr s)

/-- ARQ.LOWERFAIL (R291). -/
def execArqLowerfail (s : State) : Host.Outcome State Fault Refusal := .next (arqLowerfail s)

/-- ARQ.NEXT (R276). -/
def execArqNext (s : State) : Host.Outcome State Fault Refusal := .next (arqNext s)

end Sys2Proof.Machine
end

