-- ==== Sys2Proof/Machine/Crc.lean ====
section
/-! DEFINITION. The CRC unit (41_crc16.md): CRC.RESET, CRC.UPDATE, CRC.FINISH, and `crc16` of a byte string, which the
framer uses too. -/

namespace Sys2Proof.Machine

/-- The accumulator after the bytes `S` from the value `a` (R132). -/
def crcFold (P : Config.Params) (a : U16) (S : Bytes) : U16 := S.foldl P.crcStep a

/-- `crc16(S)` (R132). -/
def crc16 (P : Config.Params) (S : Bytes) : U16 := P.crcFin (crcFold P P.crcInit S)

/-- The two CRC bytes of a frame, `c[15:8]` then `c[7:0]` (R63, R96). -/
def crcBytes (c : U16) : Bytes := [c.extractLsb' 8 8, c.extractLsb' 0 8]

/-- CRC.RESET (R134). -/
def crcReset (P : Config.Params) (s : State) : State :=
  ({ s with crc := { acc := P.crcInit } } : State).done .none

/-- CRC.UPDATE (R135). -/
def crcUpdate (P : Config.Params) (byte : Byte) (s : State) : State :=
  ({ s with crc := { acc := P.crcStep s.crc.acc byte } } : State).done .none

/-- CRC.FINISH (R136). -/
def crcFinish (P : Config.Params) (s : State) : State :=
  s.done (.num (P.crcFin s.crc.acc).toNat)

/-- CRC.RESET at the default parameters (R134). -/
def execCrcReset (s : State) : Host.Outcome State Fault Refusal := .next (crcReset defaultParams s)

/-- CRC.UPDATE at the default parameters (R135). -/
def execCrcUpdate (byte : Byte) (s : State) : Host.Outcome State Fault Refusal :=
  .next (crcUpdate defaultParams byte s)

/-- CRC.FINISH at the default parameters (R136). -/
def execCrcFinish (s : State) : Host.Outcome State Fault Refusal := .next (crcFinish defaultParams s)

end Sys2Proof.Machine
end

