-- ==== Sys2Proof/Machine/Frm.lean ====
section
/-! DEFINITION. The serial framer (43_serial_framer.md): FRM.RXBYTE, FRM.TIMEOUT, FRM.SEND, FRM.RELEASE. -/

namespace Sys2Proof.Machine

/-! ## Helpers -/

/-- `FlushLine()` (R202). -/
def flushLine (x : Acc Frm) : Acc Frm :=
  if x.st.line = [] then x.upd fun f => { f with line := [], lineAge := 0 }
  else (x.emit (.consoleLine x.st.line)).upd fun f => { f with line := [], lineAge := 0 }

/-- `PutLine(b)` (R203). -/
def putLine (P : Config.Params) (b : Byte) (x : Acc Frm) : Acc Frm :=
  (if x.st.line.length = P.lineMax then flushLine x else x).upd fun f =>
    { f with line := f.line ++ [b], lineAge := 0 }

/-- `SyncTimeout()` (R204). -/
def syncTimeout (x : Acc Frm) : Acc Frm :=
  if x.st.wantTimeout = x.st.tmoEn then x
  else (x.upd fun f => { f with tmoEn := x.st.wantTimeout }).emit (.setTimeout x.st.wantTimeout)

/-- The class of a byte received in `Idle` (R98). -/
inductive ByteClass where
  | ack
  | mark (p : Fin 4)
  | lead (n : Nat)
  | eol
  | text
  deriving DecidableEq, Repr

/-- The priority whose marker `b` is; the least one where an illegal choice of markers repeats a byte (log 4). -/
def markerOf (P : Config.Params) (b : Byte) : Option (Fin 4) :=
  if P.marker 0 = b then some 0
  else if P.marker 1 = b then some 1
  else if P.marker 2 = b then some 2
  else if P.marker 3 = b then some 3
  else none

/-- The run length `7 - bit_length(b xor 0xFF)` of a lead byte (R98, R306). -/
def runLength (b : Byte) : Nat := 7 - bitLength 8 (b ^^^ 0xFF#8).toNat

/-- Classification of a byte received in `Idle`, in the order of R98. -/
def classify (P : Config.Params) (b : Byte) : ByteClass :=
  if b = ackByte then .ack
  else
    match markerOf P b with
    | some p => .mark p
    | none =>
      if 0xC0 ≤ b.toNat then .lead (runLength b)
      else if b = 0x0A#8 ∨ b = 0x0D#8 then .eol
      else .text

/-- `EnterBody()` (R213). -/
def enterBody (P : Config.Params) (x : Acc Frm) : Acc Frm :=
  x.upd fun f => { f with crc := P.crcInit, s := if f.lenIn = 0 then .crc1 else .data }

/-! ## One received byte -/

/-- A byte in `Idle` (R206 to R210). -/
def rxIdle (P : Config.Params) (b : Byte) (x : Acc Frm) : Acc Frm :=
  match classify P b with
  | .ack => x.emit .processAck
  | .mark p => (flushLine x).upd fun f => { f with mIn := Msg.empty, prioIn := p, lenIn := 0, s := .len }
  | .lead n => (putLine P b x).upd fun f => { f with utf8Rem := n, s := .utf8 }
  | .eol => flushLine x
  | .text => putLine P b x

/-- The first length byte (R211). -/
def rxLen (P : Config.Params) (b : Byte) (x : Acc Frm) : Acc Frm :=
  if b.msb then x.upd fun f => { f with lenIn := (b.toNat % 128) * 256, s := .len2 }
  else enterBody P (x.upd fun f => { f with lenIn := b.toNat })

/-- The second length byte (R212). -/
def rxLen2 (P : Config.Params) (b : Byte) (x : Acc Frm) : Acc Frm :=
  enterBody P (x.upd fun f => { f with lenIn := f.lenIn ||| b.toNat })

/-- One body byte (R214). -/
def rxData (P : Config.Params) (b : Byte) (x : Acc Frm) : Acc Frm :=
  x.upd fun f =>
    { f with crc := P.crcStep f.crc b, mIn := f.mIn.append (byteBits b), lenIn := f.lenIn - 1,
             s := if f.lenIn - 1 = 0 then .crc1 else f.s }

/-- The first CRC byte (R215). -/
def rxCrc1 (P : Config.Params) (b : Byte) (x : Acc Frm) : Acc Frm :=
  x.upd fun f => { f with res := P.crcFin f.crc ^^^ (b.zeroExtend 16 <<< 8), s := .crc2 }

/-- Acceptance of a frame (R219). -/
def acceptFrame (x : Acc Frm) : Acc Frm :=
  let held : Msg := { x.st.mIn with prio := x.st.prioIn, xpos := none }
  ((x.upd fun f => { f with hold := held, holdValid := true }).emit (.process held.delivered)).emit (.dataOut [ackByte])

/-- The outcome of a complete frame, in the order of the tests of R216: CRC error (R217), malformed header (R218),
overflow (R220), accept (R219). -/
def frameOutcome (x : Acc Frm) : Acc Frm :=
  if x.st.res ≠ 0 then x.raise .crc
  else if x.st.mIn.headerIncomplete then x.raise .header
  else if x.st.holdValid then x.raise .overflow
  else acceptFrame x

/-- The second CRC byte (R216). -/
def rxCrc2 (b : Byte) (x : Acc Frm) : Acc Frm :=
  (frameOutcome (x.upd fun f => { f with res := f.res ^^^ b.zeroExtend 16, s := .idle })).upd fun f =>
    { f with mIn := Msg.empty }

/-- One byte of a UTF-8 run (R221). -/
def rxUtf8 (P : Config.Params) (b : Byte) (x : Acc Frm) : Acc Frm :=
  (putLine P b x).upd fun f => { f with utf8Rem := f.utf8Rem - 1, s := if f.utf8Rem - 1 = 0 then .idle else f.s }

/-- The receive step by state, without `SyncTimeout` (R205). -/
def rxByState (P : Config.Params) (b : Byte) (x : Acc Frm) : Acc Frm :=
  match x.st.s with
  | .idle => rxIdle P b x
  | .utf8 => rxUtf8 P b x
  | .len => rxLen P b x
  | .len2 => rxLen2 P b x
  | .data => rxData P b x
  | .crc1 => rxCrc1 P b x
  | .crc2 => rxCrc2 b x

/-- The framer's step on one byte (R205). -/
def rxByte (P : Config.Params) (b : Byte) (f : Frm) : Acc Frm :=
  syncTimeout (rxByState P b (Acc.start { f with idleCnt := 0 }))

/-! ## The periodic timeout -/

/-- The fourth consecutive idle timeout (R222). -/
def lostFrame (x : Acc Frm) : Acc Frm :=
  let y := x.raise .lost
  (if x.st.s = .utf8 then flushLine y else y).upd fun f =>
    { f with mIn := Msg.empty, lenIn := 0, utf8Rem := 0, idleCnt := 0, s := .idle }

/-- FRM.TIMEOUT outside `Idle` (R222). -/
def timeoutBusy (x : Acc Frm) : Acc Frm :=
  let y := x.upd fun f => { f with idleCnt := f.idleCnt + 1 }
  if idleLimit < y.st.idleCnt then lostFrame y else y

/-- FRM.TIMEOUT in `Idle` (R222). -/
def timeoutIdle (P : Config.Params) (x : Acc Frm) : Acc Frm :=
  if x.st.line = [] then x
  else
    let y := x.upd fun f => { f with lineAge := f.lineAge + 1 }
    if P.lineStaleTicks < y.st.lineAge then flushLine y else y

/-- The framer's step on one timeout (R222). -/
def rxTimeout (P : Config.Params) (f : Frm) : Acc Frm :=
  syncTimeout (if f.s = .idle then timeoutIdle P (Acc.start f) else timeoutBusy (Acc.start f))

/-! ## Sending -/

/-- The length field of a frame (R95, R224). -/
def lengthField (L : Nat) : Bytes :=
  if L < 128 then [BitVec.ofNat 8 L] else [0x80#8 ||| BitVec.ofNat 8 (L / 256), BitVec.ofNat 8 L]

/-- The frame body: header bytes, then data bytes (R94, R224). -/
def frameBody (h : Hdr) (m : Msg) : Bytes := bytesOf (encHeader h) ++ m.data

/-- The frame on the line (R94, R224). -/
def frameBytes (P : Config.Params) (prio : Fin 4) (body : Bytes) : Bytes :=
  [P.marker prio] ++ lengthField body.length ++ body ++ crcBytes (crc16 P body)

/-! ## The commands -/

/-- FRM.RXBYTE (R205). -/
def frmRxbyte (P : Config.Params) (byte : Byte) (s : State) : State := s.commitFrm (rxByte P byte s.frm)

/-- FRM.TIMEOUT (R222). -/
def frmTimeout (P : Config.Params) (s : State) : State := s.commitFrm (rxTimeout P s.frm)

/-- FRM.SEND (R224). -/
def frmSend (P : Config.Params) (r : Nat) (s : State) : State :=
  s.withMsg r fun m => s.withHeader m fun h =>
    if m.buf.length % 8 ≠ 0 then s.refuse .state
    else if lenMax < (frameBody h m).length then s.refuse .range
    else s.answer .ok .none [.dataOut (frameBytes P m.prio (frameBody h m))]

/-- FRM.RELEASE (R223). -/
def frmRelease (s : State) : State :=
  ({ s with frm := { s.frm with holdValid := false, hold := Msg.empty } } : State).done .none

/-! ## The meanings -/

/-- FRM.RXBYTE at the default parameters (R205). -/
def execFrmRxbyte (byte : Byte) (s : State) : Host.Outcome State Fault Refusal :=
  .next (frmRxbyte defaultParams byte s)

/-- FRM.TIMEOUT at the default parameters (R222). -/
def execFrmTimeout (s : State) : Host.Outcome State Fault Refusal := .next (frmTimeout defaultParams s)

/-- FRM.SEND at the default parameters (R224). -/
def execFrmSend (r : Nat) (s : State) : Host.Outcome State Fault Refusal := .next (frmSend defaultParams r s)

/-- FRM.RELEASE (R223). -/
def execFrmRelease (s : State) : Host.Outcome State Fault Refusal := .next (frmRelease s)

end Sys2Proof.Machine
end

