-- ==== Sys2Proof/Machine/Msg.lean ====
section
/-! DEFINITION. The message codec (42_message_codec.md): the 14 MSG commands. Of the
parameters they read FB_MAX alone, and none emits an event. -/

namespace Sys2Proof.Machine

/-! ## Building a message -/

/-- MSG.CLEAR (R160). -/
def msgClear (r : Nat) (s : State) : State :=
  s.withMsg r fun _ => (s.setMsg r Msg.empty).done .none

/-- MSG.SETADDR (R161). -/
def msgSetaddr (r : Nat) (dst src : Int) (s : State) : State :=
  s.withMsg r fun m =>
    if AddrRefused dst ∨ AddrRefused src then s.refuse .range
    else (s.setMsg r { m with dst := some dst, src := some src, xpos := none }).done .none

/-- MSG.SETCODE (R162). -/
def msgSetcode (r code : Nat) (s : State) : State :=
  s.withMsg r fun m => (s.setMsg r { m with code := some code, xpos := none }).done .none

/-- MSG.SETPRIO (R163). -/
def msgSetprio (r : Nat) (prio : Fin 4) (s : State) : State :=
  s.withMsg r fun m => (s.setMsg r { m with prio := prio }).done .none

/-- MSG.ADDDATA (R164). -/
def msgAdddata (r : Nat) (s : State) : State :=
  s.withMsg r fun m =>
    if bufMax < m.buf.length + padBits m.buf.length + 8 * s.port.operands.bytes.length then s.refuse .range
    else
      (s.setMsg r { m with buf := m.buf ++ zeros (padBits m.buf.length) ++ bitsOf s.port.operands.bytes }).done .none

/-! ## Reading a message -/

/-- MSG.HEADER (R165). -/
def msgHeader (r : Nat) (s : State) : State :=
  s.withMsg r fun m => s.withHeader m fun h => s.done (.bits (encHeader h))

/-- MSG.HDRLEN (R166). -/
def msgHdrlen (r : Nat) (s : State) : State :=
  s.withMsg r fun m =>
    match m.dst, m.src with
    | some dst, some src => s.done (.num (headerLen dst src))
    | _, _ => s.refuse .state

/-- MSG.FIRSTBITS (R167). -/
def msgFirstbits (r n : Nat) (s : State) : State :=
  s.withMsg r fun m => s.withHeader m fun h =>
    if streamLen h m < n then s.refuse .range else s.done (.bits ((streamOf h m).take n))

/-- MSG.GET (R168). -/
def msgGet (r : Nat) (s : State) : State :=
  s.withMsg r fun m => s.done (.fields m.fields)

/-! ## Extraction into chunks -/

/-- MSG.XSTART (R171). -/
def msgXstart (r : Nat) (s : State) : State :=
  s.withMsg r fun m => s.withHeader m fun _ => (s.setMsg r { m with xpos := some 0 }).done .none

/-- MSG.XCHUNK (R172). The bits remaining are counted as a natural number: a cursor that MSG.AEND has left beyond the
end has none remaining and answers END. DEDUCED, log 7. -/
def msgXchunk (P : Config.Params) (r frameBits : Nat) (s : State) : State :=
  s.withMsg r fun m =>
    if ¬ FrameBitsOk P frameBits then s.refuse .range
    else
      match m.xpos with
      | none => s.refuse .state
      | some pos => s.withHeader m fun h =>
        if (streamOf h m).length - pos = 0 then s.answer .ended .none []
        else
          (s.setMsg r { m with xpos := some (chunkAt (streamOf h m) pos ((streamOf h m).length - pos) frameBits).2 }).done
            (.num (chunkAt (streamOf h m) pos ((streamOf h m).length - pos) frameBits).1)

/-! ## Assembly from chunks -/

/-- MSG.ASTART (R175). -/
def msgAstart (r : Nat) (s : State) : State :=
  s.withMsg r fun _ => (s.setMsg r Msg.empty).done .none

/-- MSG.ACHUNK (R177). -/
def msgAchunk (P : Config.Params) (r frameBits value : Nat) (s : State) : State :=
  s.withMsg r fun m =>
    if ¬ FrameBitsOk P frameBits then s.refuse .range
    else
      match chunkBits m.buf.length frameBits value with
      | .error st => s.refuse st
      | .ok (n, low) =>
        if bufMax < m.buf.length + n then s.refuse .range
        else (s.setMsg r (m.append (bitsOfNat n low))).done .none

/-- MSG.AEND (R178). -/
def msgAend (r : Nat) (s : State) : State :=
  s.withMsg r fun m =>
    if m.headerIncomplete then s.refuse .state
    else (s.setMsg r { m with buf := wholeBytes m.buf }).done .none

/-! ## The meanings -/

/-- MSG.CLEAR (R160). -/
def execMsgClear (r : Nat) (s : State) : Host.Outcome State Fault Refusal := .next (msgClear r s)

/-- MSG.SETADDR (R161). -/
def execMsgSetaddr (r : Nat) (dst src : Int) (s : State) : Host.Outcome State Fault Refusal :=
  .next (msgSetaddr r dst src s)

/-- MSG.SETCODE (R162). -/
def execMsgSetcode (r code : Nat) (s : State) : Host.Outcome State Fault Refusal := .next (msgSetcode r code s)

/-- MSG.SETPRIO (R163). -/
def execMsgSetprio (r : Nat) (prio : Fin 4) (s : State) : Host.Outcome State Fault Refusal :=
  .next (msgSetprio r prio s)

/-- MSG.ADDDATA (R164). -/
def execMsgAdddata (r : Nat) (s : State) : Host.Outcome State Fault Refusal := .next (msgAdddata r s)

/-- MSG.HEADER (R165). -/
def execMsgHeader (r : Nat) (s : State) : Host.Outcome State Fault Refusal := .next (msgHeader r s)

/-- MSG.HDRLEN (R166). -/
def execMsgHdrlen (r : Nat) (s : State) : Host.Outcome State Fault Refusal := .next (msgHdrlen r s)

/-- MSG.FIRSTBITS (R167). -/
def execMsgFirstbits (r n : Nat) (s : State) : Host.Outcome State Fault Refusal := .next (msgFirstbits r n s)

/-- MSG.GET (R168). -/
def execMsgGet (r : Nat) (s : State) : Host.Outcome State Fault Refusal := .next (msgGet r s)

/-- MSG.XSTART (R171). -/
def execMsgXstart (r : Nat) (s : State) : Host.Outcome State Fault Refusal := .next (msgXstart r s)

/-- MSG.XCHUNK at the default parameters (R172). -/
def execMsgXchunk (r frameBits : Nat) (s : State) : Host.Outcome State Fault Refusal :=
  .next (msgXchunk defaultParams r frameBits s)

/-- MSG.ASTART (R175). -/
def execMsgAstart (r : Nat) (s : State) : Host.Outcome State Fault Refusal := .next (msgAstart r s)

/-- MSG.ACHUNK at the default parameters (R177). -/
def execMsgAchunk (r frameBits value : Nat) (s : State) : Host.Outcome State Fault Refusal :=
  .next (msgAchunk defaultParams r frameBits value s)

/-- MSG.AEND (R178). -/
def execMsgAend (r : Nat) (s : State) : Host.Outcome State Fault Refusal := .next (msgAend r s)

end Sys2Proof.Machine
end

