-- ==== Sys2Proof/Machine/Sys.lean ====
section
/-! DEFINITION. SYS.RESET (70_reset_and_hazards.md R390). -/

namespace Sys2Proof.Machine

/-- SYS.RESET: every field of crc, M, frm and arq to its reset value; no event. The port is the host's side and stays
(R390, log 9). -/
def sysReset (P : Config.Params) (s : State) : State := (State.resetUnits P s.port).done .none

/-- SYS.RESET at the default parameters (R390). -/
def execSysReset (s : State) : Host.Outcome State Fault Refusal := .next (sysReset defaultParams s)

end Sys2Proof.Machine
end

