-- ==== Sys2Proof/Machine/Dispatch.lean ====
section
/-! DEFINITION. The meaning of every command, one arm per constructor, at the default parameters (R8, log 4). -/

namespace Sys2Proof.Machine

/-- The effect of one command (R101). -/
def exec (i : Instr) (s : State) : Host.Outcome State Fault Refusal :=
  match i with
  | .sysReset => Sys2Proof.Machine.execSysReset s
  | .crcReset => Sys2Proof.Machine.execCrcReset s
  | .crcUpdate byte => Sys2Proof.Machine.execCrcUpdate byte s
  | .crcFinish => Sys2Proof.Machine.execCrcFinish s
  | .msgClear r => Sys2Proof.Machine.execMsgClear r s
  | .msgSetaddr r dst src => Sys2Proof.Machine.execMsgSetaddr r dst src s
  | .msgSetcode r code => Sys2Proof.Machine.execMsgSetcode r code s
  | .msgSetprio r prio => Sys2Proof.Machine.execMsgSetprio r prio s
  | .msgAdddata r => Sys2Proof.Machine.execMsgAdddata r s
  | .msgHeader r => Sys2Proof.Machine.execMsgHeader r s
  | .msgHdrlen r => Sys2Proof.Machine.execMsgHdrlen r s
  | .msgFirstbits r n => Sys2Proof.Machine.execMsgFirstbits r n s
  | .msgGet r => Sys2Proof.Machine.execMsgGet r s
  | .msgXstart r => Sys2Proof.Machine.execMsgXstart r s
  | .msgXchunk r frameBits => Sys2Proof.Machine.execMsgXchunk r frameBits s
  | .msgAstart r => Sys2Proof.Machine.execMsgAstart r s
  | .msgAchunk r frameBits value => Sys2Proof.Machine.execMsgAchunk r frameBits value s
  | .msgAend r => Sys2Proof.Machine.execMsgAend r s
  | .frmRxbyte byte => Sys2Proof.Machine.execFrmRxbyte byte s
  | .frmTimeout => Sys2Proof.Machine.execFrmTimeout s
  | .frmSend r => Sys2Proof.Machine.execFrmSend r s
  | .frmRelease => Sys2Proof.Machine.execFrmRelease s
  | .arqOpen window timeout => Sys2Proof.Machine.execArqOpen window timeout s
  | .arqSend handle => Sys2Proof.Machine.execArqSend handle s
  | .arqRecv => Sys2Proof.Machine.execArqRecv s
  | .arqTick => Sys2Proof.Machine.execArqTick s
  | .arqClose => Sys2Proof.Machine.execArqClose s
  | .arqReset hasErr => Sys2Proof.Machine.execArqReset hasErr s
  | .arqLowerfail => Sys2Proof.Machine.execArqLowerfail s
  | .arqNext => Sys2Proof.Machine.execArqNext s

end Sys2Proof.Machine
end

