-- ==== Sys2Proof/Machine/Step.lean ====
section
/-! DEFINITION. One step of the block: it takes the oldest command the host has issued, decodes its word and executes
it (R10, R75). -/

namespace Sys2Proof.Machine

/-- One step. With no command issued nothing happens (R366); a word that is no command is refused with ILLEGAL (R103);
otherwise the command has its effect, on the state in which it is off the list and its operand record is at the port. -/
def step (s : State) : Host.Outcome State Fault Refusal :=
  match s.fetch with
  | none => .next s
  | some (w, s') =>
    match decode w with
    | .error _ => .next s'.illegal
    | .ok i => exec i s'

/-- The state whose next step fetches the command word `w` of `nbits` bits (log 1). -/
def State.withFetchWord (s : State) (nbits w : Nat) : State :=
  { s with port := s.port.overwriteWord (BitVec.ofNat 32 (w % 2 ^ nbits)) }

end Sys2Proof.Machine
end

