-- ==== Sys2Proof/Machine/Assembly.lean ====
section
/-! DEFINITION. The notation of a command (R106) and the pseudo-commands with their expansions (R107; log 17). Neither is
seen by the block: a pseudo-command is the list of commands the host issues. -/

namespace Sys2Proof.Machine

/-! ## Pseudo-commands -/

/-- A command whose operand record is the blank one. -/
def plain (i : Instr) : Command := { word := encode i }

/-- A command with a byte string in its operand record. -/
def withBytes (i : Instr) (bytes : Bytes) : Command := { word := encode i, operands := { bytes := bytes } }

/-- `MSG.BUILD Mr, dst, src, code, prio, bytes` (R107). -/
def msgBuild (r : Nat) (dst src : Int) (code : Nat) (prio : Fin 4) (bytes : Bytes) : List Command :=
  [ plain (.msgClear r), plain (.msgSetaddr r dst src), plain (.msgSetcode r code), plain (.msgSetprio r prio),
    withBytes (.msgAdddata r) bytes ]

/-- `FRM.RXBYTES [b0 ... bk]` (R107). -/
def frmRxbytes (bytes : Bytes) : List Command := bytes.map fun b => plain (.frmRxbyte b)

/-- `CRC.OVER [b0 ... bk]` (R107). -/
def crcOver (bytes : Bytes) : List Command :=
  plain .crcReset :: bytes.map (fun b => plain (.crcUpdate b)) ++ [plain .crcFinish]

/-- `MSG.XALL Mr, fb` (R107) on a stream of `total` bits: MSG.XSTART, then MSG.XCHUNK until it returns END, which is
one command for each begun chunk and one for END. -/
def msgXall (r fb total : Nat) : List Command :=
  plain (.msgXstart r) :: List.replicate ((total + fb - 1) / fb + 1) (plain (.msgXchunk r fb))

/-! ## Notation -/

/-- A hexadecimal digit. -/
def hexDigit (n : Nat) : String := String.ofList [Nat.digitChar n]

/-- A byte as two hexadecimal digits. -/
def hexByte (b : Byte) : String := hexDigit (b.toNat / 16) ++ hexDigit (b.toNat % 16)

/-- Strings joined with a separator. -/
def joinWith (sep : String) : List String → String
  | [] => ""
  | [x] => x
  | x :: rest => x ++ sep ++ joinWith sep rest

/-- A byte string as hexadecimal bytes separated by spaces inside brackets (R106). -/
def showBytes (bytes : Bytes) : String := "[" ++ joinWith " " (bytes.map hexByte) ++ "]"

/-- A number, in decimal (R106). -/
def showNat (n : Nat) : String := toString n

/-- An address, which may be negative (R106). -/
def showInt (i : Int) : String := if i < 0 then "-" ++ toString i.natAbs else toString i.natAbs

/-- A message register (R106). -/
def showReg (r : Nat) : String := "M" ++ showNat r

/-- The opening and closing braces of a record. -/
def braced (text : String) : String := String.ofList [Char.ofNat 123] ++ text ++ String.ofList [Char.ofNat 125]

/-- One optional field of a record. -/
def showField {α : Type} (key : String) (f : α → String) : Option α → List String
  | none => []
  | some v => [key ++ ":" ++ f v]

/-- An `ArqMsg` (R106). -/
def showArqMsg (m : ArqMsg) : String :=
  braced (joinWith ", "
    ([ "s:" ++ showInt m.s, "r:" ++ showInt m.r ]
      ++ showField "x" (fun x => "[" ++ joinWith ", " (x.map showNat) ++ "]") m.x
      ++ showField "d" showBytes m.d
      ++ (if m.a then ["a:\"r\""] else [])
      ++ showField "n" (fun n => showNat n.val) m.n
      ++ showField "c" (fun c => braced ("t:" ++ showNat c.t ++ ", m:" ++ showNat c.m)) m.c
      ++ showField "e" showBytes m.e))

/-- `now` as `@t` (R106). -/
def showNow (o : Operands) : String := " @" ++ showNat o.now

/-- The operands of a command, positional in the order of R101, then those of the record (R106). -/
def showOperands (i : Instr) (o : Operands) : String :=
  match i with
  | .sysReset => ""
  | .crcReset => ""
  | .crcUpdate byte => " 0x" ++ hexByte byte
  | .crcFinish => ""
  | .msgClear r => " " ++ showReg r
  | .msgSetaddr r dst src => " " ++ joinWith ", " [showReg r, showInt dst, showInt src]
  | .msgSetcode r code => " " ++ joinWith ", " [showReg r, showNat code]
  | .msgSetprio r prio => " " ++ joinWith ", " [showReg r, showNat prio.val]
  | .msgAdddata r => " " ++ joinWith ", " [showReg r, showBytes o.bytes]
  | .msgHeader r => " " ++ showReg r
  | .msgHdrlen r => " " ++ showReg r
  | .msgFirstbits r n => " " ++ joinWith ", " [showReg r, showNat n]
  | .msgGet r => " " ++ showReg r
  | .msgXstart r => " " ++ showReg r
  | .msgXchunk r frameBits => " " ++ joinWith ", " [showReg r, showNat frameBits]
  | .msgAstart r => " " ++ showReg r
  | .msgAchunk r frameBits value => " " ++ joinWith ", " [showReg r, showNat frameBits, showNat value]
  | .msgAend r => " " ++ showReg r
  | .frmRxbyte byte => " 0x" ++ hexByte byte
  | .frmTimeout => ""
  | .frmSend r => " " ++ showReg r
  | .frmRelease => ""
  | .arqOpen window timeout => " " ++ joinWith ", " [showNat window, showNat timeout] ++ showNow o
  | .arqSend handle => " " ++ joinWith ", " [showNat handle.toNat, showBytes o.payload] ++ showNow o
  | .arqRecv => " " ++ showArqMsg o.msg ++ showNow o
  | .arqTick => showNow o
  | .arqClose => ""
  | .arqReset hasErr => (if hasErr then " err=" ++ showBytes o.err else "") ++ showNow o
  | .arqLowerfail => " err=" ++ showBytes o.err
  | .arqNext => ""

/-- A command in the notation of R106. -/
def showCommand (i : Instr) (o : Operands) : String := i.mnemonic ++ showOperands i o

end Sys2Proof.Machine
end

