-- ==== Sys2Proof/Machine/Parametric.lean ====
section
/-! DEFINITION. The block at any choice of the parameters of R8: "a claim should quantify over the parameter". exec and
step are the instance at the default values (log 4). -/

namespace Sys2Proof.Machine

/-- The effect of one command at the parameters `P` (R8, R101). -/
def execWith (P : Config.Params) (i : Instr) (s : State) : State :=
  match i with
  | .sysReset => sysReset P s
  | .crcReset => crcReset P s
  | .crcUpdate byte => crcUpdate P byte s
  | .crcFinish => crcFinish P s
  | .msgClear r => msgClear r s
  | .msgSetaddr r dst src => msgSetaddr r dst src s
  | .msgSetcode r code => msgSetcode r code s
  | .msgSetprio r prio => msgSetprio r prio s
  | .msgAdddata r => msgAdddata r s
  | .msgHeader r => msgHeader r s
  | .msgHdrlen r => msgHdrlen r s
  | .msgFirstbits r n => msgFirstbits r n s
  | .msgGet r => msgGet r s
  | .msgXstart r => msgXstart r s
  | .msgXchunk r frameBits => msgXchunk P r frameBits s
  | .msgAstart r => msgAstart r s
  | .msgAchunk r frameBits value => msgAchunk P r frameBits value s
  | .msgAend r => msgAend r s
  | .frmRxbyte byte => frmRxbyte P byte s
  | .frmTimeout => frmTimeout P s
  | .frmSend r => frmSend P r s
  | .frmRelease => frmRelease s
  | .arqOpen window timeout => arqOpen P window timeout s
  | .arqSend handle => arqSend P handle s
  | .arqRecv => arqRecv P s
  | .arqTick => arqTick s
  | .arqClose => arqClose s
  | .arqReset hasErr => arqReset hasErr s
  | .arqLowerfail => arqLowerfail s
  | .arqNext => arqNext s

/-- One step at the parameters `P`. -/
def stepWith (P : Config.Params) (s : State) : State :=
  match s.fetch with
  | none => s
  | some (w, s') =>
    match decode w with
    | .error _ => s'.illegal
    | .ok i => execWith P i s'

/-- `n` steps at the parameters `P`. -/
def runWith (P : Config.Params) : Nat → State → State
  | 0, s => s
  | n + 1, s => runWith P n (stepWith P s)

/-- The framer fed with a string of received bytes: the record and every event in order (R76, R205). -/
def rxBytes (P : Config.Params) : Bytes → Acc Frm → Acc Frm
  | [], x => x
  | b :: rest, x => rxBytes P rest { st := (rxByte P b x.st).st, ev := x.ev ++ (rxByte P b x.st).ev }

/-- The framer given `n` timeouts in a row: the record and every event in order (R76, R222). -/
def rxTimeouts (P : Config.Params) : Nat → Acc Frm → Acc Frm
  | 0, x => x
  | n + 1, x => rxTimeouts P n { st := (rxTimeout P x.st).st, ev := x.ev ++ (rxTimeout P x.st).ev }

end Sys2Proof.Machine
end

