-- ==== Sys2Proof/Safety.lean ====
section
/-! DEFINITION. The invariants of the state that every command keeps (R21, R25, R30, R35, R36, R38, R39, R312), in the
terms the statements use. All of them are decidable. -/

namespace Sys2Proof.Machine

/-! ## Messages -/

/-- A present address is in -4 .. 127 (R21, R151). -/
def addrOk : Option Int → Bool
  | none => true
  | some a => decide (-4 ≤ a) && decide (a ≤ 127)

/-- A present code is in 0 .. 255 (R21). -/
def codeOk : Option Nat → Bool
  | none => true
  | some c => decide (c < 256)

/-- An open extraction has a header that can be encoded, and its cursor is not beyond the end of the message (R26, R171),
but for the at most 7 bits beyond the last whole byte that MSG.AEND may have dropped below it (log 7); so it is inside the
longest stream the buffer's bound admits (log 18). -/
def cursorOk (m : Msg) : Bool :=
  match m.xpos with
  | none => true
  | some pos =>
    match needHeader m with
    | .error _ => false
    | .ok h => decide (pos ≤ hdrBits h.dst h.src + 8 * (m.buf.length / 8) + 7) && decide (pos ≤ 24 + bufMax)

/-- The ranges of a message register's fields (R21, R25). -/
abbrev MsgInv (m : Msg) : Prop :=
  addrOk m.dst = true ∧ addrOk m.src = true ∧ codeOk m.code = true ∧ m.buf.length ≤ bufMax ∧ cursorOk m = true

/-- The two addresses are present exactly when the code is: a message filled by header detection alone (R176). -/
abbrev HdrAllOrNone (m : Msg) : Prop := m.dst.isSome = m.code.isSome ∧ m.src.isSome = m.code.isSome

/-- A message of the framer: whole bytes, no extraction, at most `bits` payload bits (R33, R312). -/
abbrev FramerMsgInv (m : Msg) (bits : Nat) : Prop :=
  addrOk m.dst = true ∧ addrOk m.src = true ∧ codeOk m.code = true ∧ HdrAllOrNone m ∧ m.xpos = none ∧
    m.buf.length % 8 = 0 ∧ m.buf.length ≤ bits

/-! ## The framer -/

/-- The states inside a binary frame (R35). -/
def inFrame : FrmState → Bool
  | .len => true
  | .len2 => true
  | .data => true
  | .crc1 => true
  | .crc2 => true
  | .idle => false
  | .utf8 => false

/-- R35 (a): the timeout is enabled exactly while the framer is not quiescent. -/
abbrev TimeoutInv (f : Frm) : Prop := f.tmoEn = f.wantTimeout

/-- R35 (b): no console text is buffered inside a frame. -/
abbrev LineInv (f : Frm) : Prop := inFrame f.s = true → f.line = []

/-- R35 (c): a UTF-8 run is open exactly in `Utf8`. -/
abbrev Utf8Inv (f : Frm) : Prop := 0 < f.utf8Rem ↔ f.s = .utf8

/-- R35 (d): body bytes are still to come in `Data`. -/
abbrev LenInv (f : Frm) : Prop := f.s = .data → 0 < f.lenIn

/-- R35 (e): no idle timeout is counted in `Idle`. -/
abbrev IdleInv (f : Frm) : Prop := f.s = .idle → f.idleCnt = 0

/-- The ranges of R30. -/
abbrev FrmRanges (P : Config.Params) (f : Frm) : Prop :=
  f.lenIn ≤ lenMax ∧ f.idleCnt ≤ idleLimit ∧ f.line.length ≤ P.lineMax ∧ f.lineAge ≤ P.lineStaleTicks ∧ f.utf8Rem ≤ 7

/-- The message under assembly: empty outside the body and CRC states, and never longer than the frame allows. -/
abbrev AssemblyInv (f : Frm) : Prop :=
  FramerMsgInv f.mIn (8 * lenMax) ∧
    (f.s = .data → f.mIn.buf.length + 8 * f.lenIn ≤ 8 * lenMax) ∧
    (f.s = .data ∨ f.s = .crc1 ∨ f.s = .crc2 ∨ f.mIn = Msg.empty)

/-- The held message: complete while it is valid, `EMPTY` otherwise (R219, R223). -/
abbrev HoldInv (f : Frm) : Prop :=
  FramerMsgInv f.hold (8 * lenMax) ∧
    (f.holdValid = true → f.hold.code.isSome = true) ∧ (f.holdValid = false → f.hold = Msg.empty)

/-- The invariants of the framer (R30, R33, R35). -/
abbrev FrmInv (P : Config.Params) (f : Frm) : Prop :=
  TimeoutInv f ∧ LineInv f ∧ Utf8Inv f ∧ LenInv f ∧ IdleInv f ∧ FrmRanges P f ∧ AssemblyInv f ∧ HoldInv f

/-! ## The ARQ engine -/

/-- The range of `timeout`, its lower end from ARQ.OPEN on: the field is unused before (R36). -/
def timeoutOk (P : Config.Params) (a : Arq) : Bool :=
  (decide (a.phase = .unopened) || decide (P.tMin ≤ a.timeout)) && decide (a.timeout ≤ P.tMax)

/-- The ranges of R36; `reset_level` never rests at 3 (R37). -/
abbrev ArqRanges (P : Config.Params) (a : Arq) : Prop :=
  wMin ≤ a.window ∧ a.window ≤ P.wMax ∧ timeoutOk P a = true ∧ a.sendHead < a.window ∧
    a.sendTail < a.window ∧ a.recvHead < a.window ∧ a.recvTail < a.window ∧ a.resetLevel ≠ 3

/-- The window invariant (R38). -/
abbrev WindowInv (a : Arq) : Prop := a.inflight ≤ a.half ∧ a.rspan ≤ a.half

/-- R39 (a): `pend` holds only sequence numbers in flight. -/
abbrev PendInv (a : Arq) : Prop :=
  TableWf a.pend ∧ ∀ e ∈ a.pend, e.1 < a.window ∧ fwd a.window e.1 a.sendTail < a.inflight

/-- R39 (b): `oor` holds only sequence numbers beyond a gap. -/
abbrev OorInv (a : Arq) : Prop :=
  TableWf a.oor ∧
    ∀ e ∈ a.oor, e.1 < a.window ∧ 0 < fwd a.window e.1 a.recvTail ∧ fwd a.window e.1 a.recvTail < a.rspan

/-- The sequence state of a session that has exchanged nothing. -/
abbrev SequenceClear (a : Arq) : Prop :=
  a.sendHead = 0 ∧ a.sendTail = 0 ∧ a.recvHead = 0 ∧ a.recvTail = 0 ∧ a.pend = [] ∧ a.oor = [] ∧ a.ackPending = false

/-- R39 (c): while `in_reset` the sequence state is clear. -/
abbrev ResetInv (a : Arq) : Prop := a.inReset = true → SequenceClear a

/-- R39 (d): sends wait only while `in_reset` or while the window is full. -/
abbrev QueueInv (a : Arq) : Prop :=
  a.phase = .opened → a.sendq ≠ [] → a.inReset = true ∨ a.inflight = a.half

/-- R39, last sentence: a channel that is not open holds nothing. -/
abbrev PhaseInv (a : Arq) : Prop :=
  a.phase ≠ .opened → SequenceClear a ∧ a.sendq = [] ∧ a.resetLevel = 0

/-- The invariants of the ARQ engine (R36 to R39). -/
abbrev ArqInv (P : Config.Params) (a : Arq) : Prop :=
  ArqRanges P a ∧ WindowInv a ∧ PendInv a ∧ OorInv a ∧ ResetInv a ∧ QueueInv a ∧ PhaseInv a

/-! ## The block -/

/-- No payload accepted for sending is longer than `P_MAX` (R36, R270; log 22 for the received ones). -/
def sendsFit (P : Config.Params) (a : Arq) : Bool :=
  (a.pend.all fun e => !payloadTooLong P e.2.payload) && a.sendq.all fun p => !payloadTooLong P p.payload

/-- The invariants of the whole state; the register file has `NMSG` registers (R20, R24). -/
abbrev State.Inv (P : Config.Params) (s : State) : Prop :=
  s.msgs.length = P.nmsg ∧ (∀ m ∈ s.msgs, MsgInv m) ∧ FrmInv P s.frm ∧ ArqInv P s.arq ∧ sendsFit P s.arq = true

/-- The bound on the sends the unit holds: `Q_MAX` queued ones and half a window in flight (R265, R312). -/
def sendsBounded (P : Config.Params) (a : Arq) : Bool :=
  match P.qMax with
  | none => true
  | some n => decide (a.sendq.length + a.pend.length ≤ n + P.wMax / 2)

/-- The number of error reports among the events of a command (R365). -/
def reportCount (ev : List Event) : Nat :=
  (ev.filter fun e => match e with | .reportError _ => true | _ => false).length

/-- What the next state keeps when a command does not concern a unit. -/
abbrev SameExceptPort (s t : State) : Prop :=
  t.crc = s.crc ∧ t.msgs = s.msgs ∧ t.frm = s.frm ∧ t.arq = s.arq

/-- The events of the last command; none before the first. -/
def State.events (s : State) : List Event := (s.port.answer.map Answer.events).getD []

/-- The status of the last command. -/
def State.status (s : State) : Option Status := s.port.answer.map Answer.status

/-! ## Console text -/

/-- The console text the events hand to the host, in order (R202). -/
def consoleOut (ev : List Event) : Bytes :=
  ev.flatMap fun e => match e with | .consoleLine bytes => bytes | _ => []

/-- The byte is console text: it arrives in a UTF-8 run, or in `Idle` as a lead byte or as text (R98, R221). -/
def isConsoleText (P : Config.Params) (b : Byte) (f : Frm) : Bool :=
  match f.s with
  | .utf8 => true
  | .idle =>
    match classify P b with
    | .lead _ => true
    | .text => true
    | _ => false
  | _ => false

/-! ## Sends and deliveries -/

/-- The sends in flight that are not yet completed, in sequence order from `send_tail` on, as entries of the queue. -/
def Arq.unfinished (a : Arq) : List Queued :=
  (List.range a.inflight).filterMap fun i =>
    (tableGet a.pend ((a.sendTail + i) % a.window)).map fun e => { payload := e.payload, handle := e.handle }

/-- The handles of the sends a session has not completed: in flight, in sequence order, then queued, oldest first. -/
def Arq.outstanding (a : Arq) : List U16 := (a.unfinished ++ a.sendq).map Queued.handle

/-- The handles of the sends a session holds, without an order. -/
def Arq.handles (a : Arq) : List U16 := a.pend.map (fun e => e.2.handle) ++ a.sendq.map Queued.handle

/-- The handles completed by the events, in order. -/
def doneHandles (ev : List Event) : List U16 :=
  ev.filterMap fun e => match e with | .sendDone handle _ => some handle | _ => none

/-- The payloads dispatched by the events, in order. -/
def dispatched (ev : List Event) : List Bytes :=
  ev.filterMap fun e => match e with | .dispatch payload => some payload | _ => none

/-- The messages sent to the channel below by the events, in order. -/
def lowerSends (ev : List Event) : List ArqMsg :=
  ev.filterMap fun e => match e with | .lowerSend msg => some msg | _ => none

/-- The handle of the send a command has accepted: that of an ARQ.SEND answered OK. -/
def acceptedHandle (i : Instr) (t : State) : List U16 :=
  match i with
  | .arqSend handle => if t.status = some .ok then [handle] else []
  | _ => []

/-! ## Chunks -/

/-- At most `n` MSG.XCHUNK commands of width `fb` on register `r`, until one does not return a chunk: the chunks and the
state after the last command. -/
def extractAll (P : Config.Params) : Nat → Nat → Nat → State → List Nat × State
  | 0, _, _, s => ([], s)
  | n + 1, r, fb, s =>
    match (msgXchunk P r fb s).port.answer with
    | some { status := .ok, value := .num v, events := _ } =>
      (v :: (extractAll P n r fb (msgXchunk P r fb s)).1, (extractAll P n r fb (msgXchunk P r fb s)).2)
    | _ => ([], msgXchunk P r fb s)

/-- MSG.ACHUNK of width `fb` on register `r` for each of a list of chunks: the state after them, none where one of them
is not answered OK. -/
def assembleAll (P : Config.Params) : List Nat → Nat → Nat → State → Option State
  | [], _, _, s => some s
  | v :: vs, r, fb, s =>
    if (msgAchunk P r fb v s).status = some .ok then assembleAll P vs r fb (msgAchunk P r fb v s) else none

end Sys2Proof.Machine
end

