-- ==== Sys2Proof/Certificates/Slice0/Obligations.lean ====
section
/-! DEFINITION. The statements for the provers. Where a statement depends on a parameter of R8 it is made for every
choice of the parameters (execWith) and for exec, which is the instance at the default values (log 4). The answer of a
command is read at the port (log 2). -/

open Sys2Proof Sys2Proof.Machine

/-! ## Encoding -/

/-- R100, R101: no bit of an encoding is dropped. -/
def Obligations.DecodeOfEncode : Prop :=
  ∀ i : Instr, i.wellFormed = true → decode (encode i) = .ok i

/-- R100, R103: a word that decodes is the word of the command it decodes to, and each of its fields fits. -/
def Obligations.EncodeOfDecode : Prop :=
  ∀ (w : Word) (i : Instr), decode w = .ok i → i.wellFormed = true ∧ encode i = w

/-- R102, R103: the decoder selects exactly as the match and mask table does, and no word is selected by two rows. -/
def Obligations.DecodeAgreesWithTable : Prop :=
  ∀ w : Word,
    (∀ i, decode w = .ok i → ∃ row ∈ opcodeTable, row.mnemonic = i.mnemonic ∧ row.Selects w) ∧
    (∀ row ∈ opcodeTable, row.Selects w → ∃ i, decode w = .ok i ∧ i.mnemonic = row.mnemonic) ∧
    (∀ a ∈ opcodeTable, ∀ b ∈ opcodeTable, a.Selects w → b.Selects w → a = b)

/-- The words written out in R161, R268, R270 and R102, and one word of each other unit, decode to their commands. -/
def Obligations.SpecWordsDecode : Prop :=
  decode 0x01000000#32 = .ok .sysReset ∧
  decode 0x110000AB#32 = .ok (.crcUpdate 0xAB#8) ∧
  decode 0x2100FC05#32 = .ok (.msgSetaddr 0 (-4) 5) ∧
  decode 0x2A400010#32 = .ok (.msgXchunk 1 16) ∧
  decode 0x2C609C05#32 = .ok (.msgAchunk 1 16 0x9C05) ∧
  decode 0x3000009C#32 = .ok (.frmRxbyte 0x9C#8) ∧
  decode 0x4008003C#32 = .ok (.arqOpen 8 60) ∧
  decode 0x41000007#32 = .ok (.arqSend 7#16) ∧
  decode 0x45000001#32 = .ok (.arqReset true)

/-! ## The step -/

/-- R10, R75 and log 1 (the model's choice of a list of issued commands): a step takes the oldest issued command and runs
the instruction its word decodes to, with its operand record at the port; with none issued it changes nothing. -/
def Obligations.StepRunsDecoded : Prop :=
  ∀ s : State,
    (s.port.issued = [] → step s = .next s) ∧
    ∀ (c : Command) (rest : List Command) (i : Instr), s.port.issued = c :: rest → decode c.word = .ok i →
      step s = exec i { s with port := { s.port with issued := rest, operands := c.operands } }

/-- R103: a word that matches no row is refused with ILLEGAL, no state is written and no event is emitted; the listed
opcodes are reserved. -/
def Obligations.StepRefusesIllegalWord : Prop :=
  (∀ (s : State) (c : Command) (rest : List Command), s.port.issued = c :: rest →
    (∀ row ∈ opcodeTable, ¬ row.Selects c.word) →
      step s = .next { s with port := ⟨rest, c.operands, some ⟨.illegal, .none, []⟩⟩ }) ∧
  ∀ w : Word,
    (opOf w = 0x00 ∨ (0x02 ≤ opOf w ∧ opOf w ≤ 0x0F) ∨ (0x13 ≤ opOf w ∧ opOf w ≤ 0x1F) ∨
      (0x2E ≤ opOf w ∧ opOf w ≤ 0x2F) ∨ (0x34 ≤ opOf w ∧ opOf w ≤ 0x3F) ∨ 0x48 ≤ opOf w) →
    ∀ row ∈ opcodeTable, ¬ row.Selects w

/-- R10 and part 1 of 93_implementation_defined.md: every command has a defined result. Of the port's fields (log 2, the
model's own) exec writes the answer alone, and the answer is never ILLEGAL. -/
def Obligations.EveryCommandAnswers : Prop :=
  ∀ (i : Instr) (s : State), ∃ (t : State) (a : Answer),
    exec i s = .next t ∧ t.port = { s.port with answer := some a } ∧ a.status ≠ .illegal

/-- R11: a command whose answer is not OK writes no state, returns no value and emits no event. -/
def Obligations.RefusalChangesNothing : Prop :=
  ∀ (P : Config.Params) (i : Instr) (s : State) (a : Answer),
    (execWith P i s).port.answer = some a → a.status ≠ .ok →
      SameExceptPort s (execWith P i s) ∧ a.value = .none ∧ a.events = []

/-- R365: a command emits at most one error report. -/
def Obligations.AtMostOneReport : Prop :=
  ∀ (P : Config.Params) (i : Instr) (s : State), reportCount (execWith P i s).events ≤ 1

/-- R313, R24: a command writes the state of its own unit and no other; the unit is the high half of the opcode. -/
def Obligations.UnitsWriteTheirOwnState : Prop :=
  ∀ (P : Config.Params) (i : Instr) (s : State),
    (i.opcode / 16 = 1 → execWith P i s = { s with crc := (execWith P i s).crc, port := (execWith P i s).port }) ∧
    (i.opcode / 16 = 2 →
      execWith P i s = { s with msgs := (execWith P i s).msgs, port := (execWith P i s).port }) ∧
    (i.opcode / 16 = 3 → execWith P i s = { s with frm := (execWith P i s).frm, port := (execWith P i s).port }) ∧
    (i.opcode / 16 = 4 → execWith P i s = { s with arq := (execWith P i s).arq, port := (execWith P i s).port })

/-- R313: what a command answers and leaves in its unit depends on that unit's state and on the operand record alone;
the framer's commands read the message registers too (R24, FRM.SEND). -/
def Obligations.UnitsReadTheirOwnState : Prop :=
  ∀ (P : Config.Params) (i : Instr) (s t : State), s.port.operands = t.port.operands →
    (i.opcode / 16 = 1 → s.crc = t.crc →
      (execWith P i s).crc = (execWith P i t).crc ∧
        (execWith P i s).port.answer = (execWith P i t).port.answer) ∧
    (i.opcode / 16 = 2 → s.msgs = t.msgs →
      (execWith P i s).msgs = (execWith P i t).msgs ∧
        (execWith P i s).port.answer = (execWith P i t).port.answer) ∧
    (i.opcode / 16 = 3 → s.msgs = t.msgs → s.frm = t.frm →
      (execWith P i s).frm = (execWith P i t).frm ∧
        (execWith P i s).port.answer = (execWith P i t).port.answer) ∧
    (i.opcode / 16 = 4 → s.arq = t.arq →
      (execWith P i s).arq = (execWith P i t).arq ∧
        (execWith P i s).port.answer = (execWith P i t).port.answer)

/-! ## Reset and the invariants -/

/-- R43: every field's reset value. -/
def Obligations.ResetValues : Prop :=
  (∀ (P : Config.Params) (port : Port),
    State.resetUnits P port =
      { crc := { acc := P.crcInit }, msgs := List.replicate P.nmsg Msg.empty,
        frm := { s := .idle, prioIn := 0, lenIn := 0, crc := P.crcInit, res := 0, idleCnt := 0, mIn := Msg.empty,
                 hold := Msg.empty, holdValid := false, line := [], lineAge := 0, utf8Rem := 0, tmoEn := false },
        arq := { phase := .unopened, window := 4, timeout := 1, sendHead := 0, sendTail := 0, recvHead := 0,
                 recvTail := 0, pend := [], oor := [], sendq := [], resetLevel := 0, resetDeadline := 0,
                 ackPending := false, ackDeadline := 0 },
        port := port }) ∧
  Msg.empty = { dst := none, src := none, code := none, buf := [], prio := 0, xpos := none } ∧
  State.reset = State.resetUnits defaultParams State.reset.port ∧ State.reset.msgs = [Msg.empty, Msg.empty]

/-- R390, and log 9 (DEDUCED: the commands already issued stay): SYS.RESET brings every field of crc, M, frm and arq to
its reset value and emits nothing. -/
def Obligations.SysResetRestores : Prop :=
  ∀ s : State,
    exec .sysReset s = .next ((State.resetUnits defaultParams s.port).answer .ok .none []) ∧
    ∀ P : Config.Params, execWith P .sysReset s = (State.resetUnits P s.port).answer .ok .none []

/-- R20, R21, R24, R25, R35, R38, R39: the invariants hold right after reset, at every legal choice of the parameters
(log 21). Two of their clauses are the model's: the bound of the extraction cursor (logs 7, 18) and the canonical form of
the tables (log 10). -/
def Obligations.InvariantAtReset : Prop :=
  State.Inv defaultParams State.reset ∧
  ∀ P : Config.Params, LegalParams P → ∀ port : Port, State.Inv P (State.resetUnits P port)

/-- R20, R21, R24, R25, R26, R35, R36, R38, R39, R312: every step keeps the invariants of the messages, the framer, the
window and the payloads accepted for sending, at every legal choice of the parameters (log 21). The spec marks R35 and R39
as derived; two clauses are the model's: the bound of the extraction cursor (logs 7, 18) and the canonical form of the
tables (log 10). -/
def Obligations.InvariantKept : Prop :=
  (∀ s t : State, State.Inv defaultParams s → step s = .next t → State.Inv defaultParams t) ∧
  ∀ P : Config.Params, LegalParams P → ∀ s : State, State.Inv P s → State.Inv P (stepWith P s)

/-- R312, R265: the unit never holds more than `Q_MAX` sends beside half a window. -/
def Obligations.SendsStayBounded : Prop :=
  ∀ (P : Config.Params) (i : Instr) (s : State), ArqInv P s.arq → sendsBounded P s.arq = true →
    sendsBounded P (execWith P i s).arq = true

/-! ## The CRC unit -/

/-- R134. -/
def Obligations.CrcReset : Prop :=
  encode .crcReset = 0x10000000#32 ∧
  ∀ s : State,
    exec .crcReset s = .next (({ s with crc := { acc := defaultParams.crcInit } } : State).answer .ok .none []) ∧
    ∀ P : Config.Params,
      execWith P .crcReset s = ({ s with crc := { acc := P.crcInit } } : State).answer .ok .none []

/-- R135, with its example at the default instance. -/
def Obligations.CrcUpdate : Prop :=
  (defaultParams.crcStep 0x0000#16 0x41#8 = 0x58E5#16 ∧ defaultParams.crcStep 0x58E5#16 0x42#8 = 0x567B#16) ∧
  ∀ (byte : Byte) (s : State),
    (encode (.crcUpdate byte)).toNat = 0x11000000 + byte.toNat ∧
    exec (.crcUpdate byte) s =
      .next (({ s with crc := { acc := defaultParams.crcStep s.crc.acc byte } } : State).answer .ok .none []) ∧
    ∀ P : Config.Params,
      execWith P (.crcUpdate byte) s =
        ({ s with crc := { acc := P.crcStep s.crc.acc byte } } : State).answer .ok .none []

/-- R136, with its example at the default instance. -/
def Obligations.CrcFinish : Prop :=
  encode .crcFinish = 0x12000000#32 ∧
  defaultParams.crcFin ([0x31#8, 0x32#8, 0x33#8, 0x34#8, 0x35#8, 0x36#8, 0x37#8, 0x38#8, 0x39#8].foldl
    defaultParams.crcStep defaultParams.crcInit) = 0x31C3#16 ∧
  ∀ s : State,
    exec .crcFinish s = .next (s.answer .ok (.num (defaultParams.crcFin s.crc.acc).toNat) []) ∧
    ∀ P : Config.Params, execWith P .crcFinish s = s.answer .ok (.num (P.crcFin s.crc.acc).toNat) []

/-- R132, R134 to R136, R107: CRC.OVER of a byte string answers its `crc16`, at every choice of the parameters. -/
def Obligations.CrcOfStream : Prop :=
  ∀ (P : Config.Params) (bytes : Bytes) (rest : List Command) (s : State), s.port.issued = crcOver bytes ++ rest →
    runWith P (bytes.length + 2) s =
      { s with
        crc := { acc := bytes.foldl P.crcStep P.crcInit }
        port := ⟨rest, {}, some ⟨.ok, .num (P.crcFin (bytes.foldl P.crcStep P.crcInit)).toNat, []⟩⟩ }

/-- R138, which the spec marks as derived: a framer that has taken in the body `B` reports no CRC error exactly when the
two bytes that follow are `crc16(B)`, at every choice of the parameters. -/
def Obligations.CrcResidueLaw : Prop :=
  ∀ (P : Config.Params) (B : Bytes) (c1 c2 : Byte) (f : Machine.Frm), f.s = .crc1 → f.crc = B.foldl P.crcStep P.crcInit →
    (.reportError .crc ∉ (rxBytes P [c1, c2] (Acc.start f)).ev ↔
      P.crcFin (B.foldl P.crcStep P.crcInit) = c1 ++ c2)

/-- R139, the document's frame integrity: whatever other values the two CRC bytes of a frame take on the line, a single
bit's change among them, a framer in `Idle` reports a CRC error, calls no `process`, sends no acknowledgement, keeps the
held message, and is back in `Idle`. The spec marks it as derived. -/
def Obligations.FrameIntegrity : Prop :=
  ∀ P : Config.Params, LegalParams P → ∀ (p : Fin 4) (body : Bytes) (c1 c2 : Byte) (f : Machine.Frm),
    body.length ≤ 32767 → f.s = .idle → [c1, c2] ≠ crcBytes (crc16 P body) →
    let x := rxBytes P ((frameBytes P p body).take ((frameBytes P p body).length - 2) ++ [c1, c2]) (Acc.start f)
    .reportError .crc ∈ x.ev ∧ (∀ m, .process m ∉ x.ev) ∧ (∀ bytes, .dataOut bytes ∉ x.ev) ∧
      x.st.hold = f.hold ∧ x.st.holdValid = f.holdValid ∧ x.st.s = .idle

/-! ## The message codec -/

/-- R101, R355: a register number at or beyond `NMSG` is refused with RANGE by every command that names a register. That
the register file has `NMSG` registers is a clause of InvariantKept. -/
def Obligations.RegisterOutOfRange : Prop :=
  ∀ (r : Nat) (dst src : Int) (code n frameBits value : Nat) (prio : Fin 4) (s : State),
    ∀ i ∈ [Instr.msgClear r, .msgSetaddr r dst src, .msgSetcode r code, .msgSetprio r prio, .msgAdddata r, .msgHeader r,
        .msgHdrlen r, .msgFirstbits r n, .msgGet r, .msgXstart r, .msgXchunk r frameBits, .msgAstart r,
        .msgAchunk r frameBits value, .msgAend r, .frmSend r],
      (s.msgs.length = 2 → 2 ≤ r → exec i s = .next (s.answer .range .none [])) ∧
      ∀ P : Config.Params, s.msgs.length = P.nmsg → P.nmsg ≤ r → execWith P i s = s.answer .range .none []

/-- R160, R162, R163, R175: MSG.CLEAR, MSG.ASTART, MSG.SETCODE and MSG.SETPRIO on a register that exists. -/
def Obligations.MsgClearAstartSetcodeSetprio : Prop :=
  ∀ (r code : Nat) (prio : Fin 4) (s : State) (m : Msg), s.msg? r = some m →
    exec (.msgClear r) s = .next ((s.setMsg r Msg.empty).answer .ok .none []) ∧
    exec (.msgAstart r) s = .next ((s.setMsg r Msg.empty).answer .ok .none []) ∧
    exec (.msgSetcode r code) s = .next ((s.setMsg r { m with code := some code, xpos := none }).answer .ok .none []) ∧
    exec (.msgSetprio r prio) s = .next ((s.setMsg r { m with prio := prio }).answer .ok .none [])

/-- R161. -/
def Obligations.MsgSetaddr : Prop :=
  (∀ (r : Nat) (dst src : Int), (Instr.msgSetaddr r dst src).wellFormed = true →
    (encode (.msgSetaddr r dst src)).toNat = 0x21000000 + r * 2 ^ 22 + (dst % 256).toNat * 2 ^ 8 + (src % 256).toNat) ∧
  ∀ (r : Nat) (dst src : Int) (s : State) (m : Msg), s.msg? r = some m →
    exec (.msgSetaddr r dst src) s =
      .next (if dst < -4 ∨ src < -4 then s.answer .range .none []
        else (s.setMsg r { m with dst := some dst, src := some src, xpos := none }).answer .ok .none [])

/-- R164. -/
def Obligations.MsgAdddata : Prop :=
  (∀ r, r < 4 → (encode (.msgAdddata r)).toNat = 0x24000000 + r * 2 ^ 22) ∧
  ∀ (r : Nat) (s : State) (m : Msg), s.msg? r = some m →
    let pad := (8 - m.buf.length % 8) % 8
    let bytes := s.port.operands.bytes
    exec (.msgAdddata r) s =
      .next (if 8 * 32767 + 40 < m.buf.length + pad + 8 * bytes.length then s.answer .range .none []
        else (s.setMsg r { m with
          buf := m.buf ++ List.replicate pad false ++ (bytes.flatMap fun b => bitsOfNat 8 b.toNat) }).answer .ok .none [])

/-- R165, R166 with R90, R91, R153: MSG.HEADER and MSG.HDRLEN. A negative address is the bit 1 and the two bits of
`a + 4`, another the bit 0 and the seven bits of `a`; the code follows in 2, 5 or 8 bits; the most significant bit of each
field comes first. -/
def Obligations.MsgHeaderAndHdrlen : Prop :=
  ∀ (r : Nat) (s : State) (m : Msg), s.msg? r = some m →
    (m.dst = none ∨ m.src = none ∨ m.code = none → exec (.msgHeader r) s = .next (s.answer .state .none [])) ∧
    (m.dst = none ∨ m.src = none → exec (.msgHdrlen r) s = .next (s.answer .state .none [])) ∧
    ∀ dst src, m.dst = some dst → m.src = some src →
      exec (.msgHdrlen r) s =
        .next (s.answer .ok (.num (if dst < 0 ∧ src < 0 then 1 else if 0 ≤ dst ∧ 0 ≤ src then 3 else 2)) []) ∧
      ∀ code, m.code = some code →
        let address : Int → Bits := fun a =>
          if a < 0 then true :: [1, 0].map (a + 4).toNat.testBit
          else false :: [6, 5, 4, 3, 2, 1, 0].map a.toNat.testBit
        let width := if dst < 0 ∧ src < 0 then 2 else if 0 ≤ dst ∧ 0 ≤ src then 8 else 5
        exec (.msgHeader r) s =
          .next (if code < 2 ^ width then
              s.answer .ok (.bits (address dst ++ address src ++ (List.range width).reverse.map code.testBit)) []
            else s.answer .range .none [])

/-- R167, R168: MSG.FIRSTBITS and MSG.GET. -/
def Obligations.MsgFirstbitsAndGet : Prop :=
  ∀ (r n : Nat) (s : State) (m : Msg), s.msg? r = some m →
    exec (.msgGet r) s =
      .next (s.answer .ok (.fields
        { dst := m.dst, src := m.src, code := m.code, prio := m.prio, len := m.buf.length,
          data := bytesOf (m.buf.take (8 * (m.buf.length / 8))), xpos := m.xpos }) []) ∧
    (∀ st, needHeader m = .error st → exec (.msgFirstbits r n) s = .next (s.answer st .none [])) ∧
    ∀ h, needHeader m = .ok h →
      exec (.msgFirstbits r n) s =
        .next (if (encHeader h ++ m.buf).length < n then s.answer .range .none []
          else s.answer .ok (.bits ((encHeader h ++ m.buf).take n)) [])

/-- R171, R178: MSG.XSTART and MSG.AEND. -/
def Obligations.MsgXstartAndAend : Prop :=
  ∀ (r : Nat) (s : State) (m : Msg), s.msg? r = some m →
    (∀ st, needHeader m = .error st → exec (.msgXstart r) s = .next (s.answer st .none [])) ∧
    (∀ h, needHeader m = .ok h → exec (.msgXstart r) s = .next ((s.setMsg r { m with xpos := some 0 }).answer .ok .none [])) ∧
    (m.code = none → exec (.msgAend r) s = .next (s.answer .state .none [])) ∧
    (∀ c, m.code = some c →
      exec (.msgAend r) s =
        .next ((s.setMsg r { m with buf := m.buf.take (8 * (m.buf.length / 8)) }).answer .ok .none []))

/-- R172 at every `FB_MAX`, and log 7 (DEDUCED: a cursor beyond the end answers END): MSG.XCHUNK in its full, short and
padded forms, at the end, and refused. The last clause is R26: a chunk never takes the cursor beyond the end of the
message, and so not beyond `8 * 32767 + 24` on a payload that a frame can carry (R25; log 18 for longer ones). -/
def Obligations.MsgXchunk : Prop :=
  ∀ (r fb : Nat) (s : State) (m : Msg), s.msg? r = some m →
    let effect : Config.Params → (State → Prop) → Prop := fun P answers =>
      (fb < 1 ∨ P.fbMax < fb → answers (s.answer .range .none [])) ∧
      (1 ≤ fb → fb ≤ P.fbMax →
        (m.xpos = none → answers (s.answer .state .none [])) ∧
        ∀ pos, m.xpos = some pos →
          (∀ st, needHeader m = .error st → answers (s.answer st .none [])) ∧
          ∀ h, needHeader m = .ok h →
            let S := encHeader h ++ m.buf
            let k := S.length - pos
            answers (if k = 0 then s.answer .ended .none []
              else if fb ≤ k then
                (s.setMsg r { m with xpos := some (pos + fb) }).answer .ok (.num (uint ((S.drop pos).take fb))) []
              else if 8 ≤ fb - k then
                (s.setMsg r { m with xpos := some S.length }).answer .ok (.num (2 ^ fb + uint (S.drop pos))) []
              else
                (s.setMsg r { m with xpos := some S.length }).answer .ok
                  (.num (uint (S.drop pos) * 2 ^ (fb - k))) []))
    effect defaultParams (fun t => exec (.msgXchunk r fb) s = .next t) ∧
    ∀ P : Config.Params,
      effect P (fun t => execWith P (.msgXchunk r fb) s = t) ∧
      ((execWith P (.msgXchunk r fb) s).status = some .ok →
        ∃ m' pos', (execWith P (.msgXchunk r fb) s).msg? r = some m' ∧ m'.xpos = some pos' ∧
          (∀ h, needHeader m = .ok h → pos' ≤ streamLen h m) ∧
          (m.buf.length ≤ 8 * 32767 → pos' ≤ 8 * 32767 + 24))

/-- R177 at every `FB_MAX`: MSG.ACHUNK with and without the flag, and refused. -/
def Obligations.MsgAchunk : Prop :=
  ∀ (r fb value : Nat) (s : State) (m : Msg), s.msg? r = some m →
    let effect : Config.Params → (State → Prop) → Prop := fun P answers =>
      (fb < 1 ∨ P.fbMax < fb → answers (s.answer .range .none [])) ∧
      (1 ≤ fb → fb ≤ P.fbMax →
        let n := 8 - m.buf.length % 8
        answers (if 2 ^ (fb + 1) ≤ value then s.answer .malformed .none []
          else if value < 2 ^ fb then
            if 8 * 32767 + 40 < m.buf.length + fb then s.answer .range .none []
            else (s.setMsg r (m.append (bitsOfNat fb value))).answer .ok .none []
          else if fb < n + 8 ∨ 2 ^ n ≤ value - 2 ^ fb then s.answer .malformed .none []
          else if 8 * 32767 + 40 < m.buf.length + n then s.answer .range .none []
          else (s.setMsg r (m.append (bitsOfNat n (value - 2 ^ fb)))).answer .ok .none []))
    effect defaultParams (fun t => exec (.msgAchunk r fb value) s = .next t) ∧
    ∀ P : Config.Params, effect P (fun t => execWith P (.msgAchunk r fb value) s = t)

/-- R180: a header, appended to the empty message in pieces of any sizes with any payload bits behind it, comes back with
its addresses and its code, and leaves the payload bits. The spec marks it as derived. -/
def Obligations.HeaderRoundTrip : Prop :=
  ∀ (h : Hdr) (pieces : List Bits) (rest : Bits), -4 ≤ h.dst → h.dst ≤ 127 → -4 ≤ h.src → h.src ≤ 127 →
    h.code < 2 ^ codeW h.dst h.src → pieces.flatten = encHeader h ++ rest →
    pieces.foldl Msg.append Msg.empty =
      { Msg.empty with dst := some h.dst, src := some h.src, code := some h.code, buf := rest }

/-- R181: the chunks of a byte-aligned message that a frame can carry, extracted at any width to END and assembled on
another register, are all accepted and give the message back. The spec marks it as derived; the bound on the payload is
the model's premise (log 14), and widths above 16 are none (log 21). -/
def Obligations.ChunkRoundTrip : Prop :=
  ∀ P : Config.Params, LegalParams P → ∀ (s : State) (r r' fb n : Nat) (m : Msg) (h : Hdr), s.msg? r = some m →
    r ≠ r' → r' < s.msgs.length → needHeader m = .ok h → addrOk m.dst = true → addrOk m.src = true →
    m.buf.length % 8 = 0 → m.buf.length ≤ 8 * 32767 → 1 ≤ fb → fb ≤ P.fbMax → streamLen h m < n →
    let x := extractAll P n r fb (msgXstart r s)
    x.2.status = some .ended ∧
    ∃ t m', assembleAll P x.1 r' fb (msgAstart r' x.2) = some t ∧ (msgAend r' t).status = some .ok ∧
      (msgAend r' t).msg? r' = some m' ∧ m'.dst = m.dst ∧ m'.src = m.src ∧ m'.code = m.code ∧ m'.buf = m.buf

/-- R182 at every `FB_MAX` of 8 or more: for a byte-aligned message the chunks of width 8 are the body bytes FRM.SEND writes, and appending those bytes
one at a time gives the message back. The spec marks it as derived. -/
def Obligations.WidthAgreement : Prop :=
  ∀ (P : Config.Params) (s : State) (r n : Nat) (m : Msg) (h : Hdr), 8 ≤ P.fbMax → s.msg? r = some m →
    needHeader m = .ok h → addrOk m.dst = true → addrOk m.src = true → m.buf.length % 8 = 0 → streamLen h m < n →
    (extractAll P n r 8 (msgXstart r s)).1 = (frameBody h m).map BitVec.toNat ∧
    (frameBody h m).foldl (fun u b => u.append (byteBits b)) Msg.empty =
      { Msg.empty with dst := m.dst, src := m.src, code := m.code, buf := m.buf }

/-! ## The framer -/

/-- R206, R207 with R204, R205: in `Idle`, the acknowledgement byte is reported and changes nothing but the idle counter;
a marker byte ends a pending console line, records its priority and starts a frame. -/
def Obligations.RxAckAndMarker : Prop :=
  ∀ s : State, s.frm.s = .idle → TimeoutInv s.frm →
    let acked := s.commitFrm ⟨{ s.frm with idleCnt := 0 }, [.processAck]⟩
    exec (.frmRxbyte 0x06#8) s = .next acked ∧
    (∀ P : Config.Params, execWith P (.frmRxbyte 0x06#8) s = acked) ∧
    ∀ p : Fin 4,
      let started := s.commitFrm
        ⟨{ s.frm with idleCnt := 0, mIn := Msg.empty, prioIn := p, lenIn := 0, s := .len, line := [], lineAge := 0,
                      tmoEn := true },
          if s.frm.line = [] then [.setTimeout true] else [.consoleLine s.frm.line]⟩
      exec (.frmRxbyte (defaultParams.marker p)) s = .next started ∧
      ∀ P : Config.Params, LegalParams P → execWith P (.frmRxbyte (P.marker p)) s = started

/-- R208, R209, R210 with R202 to R205: in `Idle`, a lead byte starts a UTF-8 run of the length of R98's table, CR and LF
flush the console line, any other byte that is no acknowledgement and no marker is put in it; a full line is flushed
first. -/
def Obligations.RxConsoleByte : Prop :=
  ∀ (b : Byte) (s : State), s.frm.s = .idle → TimeoutInv s.frm → b ≠ 0x06#8 →
    let put : Config.Params → Machine.Frm := fun P =>
      { s.frm with idleCnt := 0, line := (if s.frm.line.length = P.lineMax then [] else s.frm.line) ++ [b],
                   lineAge := 0, tmoEn := true }
    let putEvents : Config.Params → List Event := fun P =>
      if s.frm.line = [] then [.setTimeout true]
      else if s.frm.line.length = P.lineMax then [.consoleLine s.frm.line] else []
    let run := if b.toNat < 0xE0 then 1 else if b.toNat < 0xF0 then 2 else if b.toNat < 0xF8 then 3
      else if b.toNat < 0xFC then 4 else if b.toNat < 0xFE then 5 else if b.toNat = 0xFE then 6 else 7
    let after : Config.Params → State := fun P =>
      if 0xC0 ≤ b.toNat then s.commitFrm ⟨{ put P with utf8Rem := run, s := .utf8 }, putEvents P⟩
      else if b = 0x0A#8 ∨ b = 0x0D#8 then
        s.commitFrm ⟨{ s.frm with idleCnt := 0, line := [], lineAge := 0, tmoEn := false },
          if s.frm.line = [] then [] else [.consoleLine s.frm.line, .setTimeout false]⟩
      else s.commitFrm ⟨put P, putEvents P⟩
    ((∀ p, defaultParams.marker p ≠ b) → exec (.frmRxbyte b) s = .next (after defaultParams)) ∧
    ∀ P : Config.Params, LegalParams P → (∀ p, P.marker p ≠ b) → execWith P (.frmRxbyte b) s = after P

/-- R211, R212, R213 with R204, R205: the length bytes. -/
def Obligations.RxLengthByte : Prop :=
  ∀ (b : Byte) (s : State), TimeoutInv s.frm →
    let enter : Config.Params → Nat → State := fun P n =>
      s.commitFrm ⟨{ s.frm with idleCnt := 0, lenIn := n, crc := P.crcInit, s := if n = 0 then .crc1 else .data }, []⟩
    let long := s.commitFrm ⟨{ s.frm with idleCnt := 0, lenIn := (b.toNat - 128) * 256, s := .len2 }, []⟩
    (s.frm.s = .len → b.toNat < 128 →
      exec (.frmRxbyte b) s = .next (enter defaultParams b.toNat) ∧
      ∀ P : Config.Params, execWith P (.frmRxbyte b) s = enter P b.toNat) ∧
    (s.frm.s = .len → 128 ≤ b.toNat →
      exec (.frmRxbyte b) s = .next long ∧ ∀ P : Config.Params, execWith P (.frmRxbyte b) s = long) ∧
    (s.frm.s = .len2 →
      exec (.frmRxbyte b) s = .next (enter defaultParams (s.frm.lenIn ||| b.toNat)) ∧
      ∀ P : Config.Params, execWith P (.frmRxbyte b) s = enter P (s.frm.lenIn ||| b.toNat))

/-- R214, R215 with R204, R205: a body byte and the first CRC byte. -/
def Obligations.RxBodyAndCrc1 : Prop :=
  ∀ (b : Byte) (s : State), TimeoutInv s.frm →
    (s.frm.s = .data → 0 < s.frm.lenIn →
      let after : Config.Params → State := fun P =>
        s.commitFrm
          ⟨{ s.frm with idleCnt := 0, crc := P.crcStep s.frm.crc b, mIn := s.frm.mIn.append (bitsOfNat 8 b.toNat),
                        lenIn := s.frm.lenIn - 1, s := if s.frm.lenIn = 1 then .crc1 else .data }, []⟩
      exec (.frmRxbyte b) s = .next (after defaultParams) ∧
      ∀ P : Config.Params, execWith P (.frmRxbyte b) s = after P) ∧
    (s.frm.s = .crc1 →
      let after : Config.Params → State := fun P =>
        s.commitFrm
          ⟨{ s.frm with idleCnt := 0, res := P.crcFin s.frm.crc ^^^ (b.zeroExtend 16 <<< 8), s := .crc2 }, []⟩
      exec (.frmRxbyte b) s = .next (after defaultParams) ∧
      ∀ P : Config.Params, execWith P (.frmRxbyte b) s = after P)

/-- R216 to R220 with R204, R205: the second CRC byte, with its four outcomes in the order of the tests. -/
def Obligations.RxFrameEnd : Prop :=
  ∀ (b : Byte) (s : State), TimeoutInv s.frm → s.frm.s = .crc2 → s.frm.line = [] →
    let res := s.frm.res ^^^ b.zeroExtend 16
    let f : Machine.Frm := { s.frm with idleCnt := 0, res := res, s := .idle, mIn := Msg.empty, tmoEn := false }
    let after :=
      if res ≠ 0 then s.commitFrm ⟨f, [.reportError .crc, .setTimeout false]⟩
      else if s.frm.mIn.code = none then s.commitFrm ⟨f, [.reportError .header, .setTimeout false]⟩
      else if s.frm.holdValid = true then s.commitFrm ⟨f, [.reportError .overflow, .setTimeout false]⟩
      else s.commitFrm
        ⟨{ f with hold := { s.frm.mIn with prio := s.frm.prioIn, xpos := none }, holdValid := true },
          [.process { dst := s.frm.mIn.dst, src := s.frm.mIn.src, code := s.frm.mIn.code, prio := s.frm.prioIn,
                      data := s.frm.mIn.data },
           .dataOut [0x06#8], .setTimeout false]⟩
    exec (.frmRxbyte b) s = .next after ∧ ∀ P : Config.Params, execWith P (.frmRxbyte b) s = after

/-- R221 with R203 to R205: a byte of a UTF-8 run is console text whatever its value. -/
def Obligations.RxUtf8Byte : Prop :=
  ∀ (b : Byte) (s : State), TimeoutInv s.frm → s.frm.s = .utf8 → 0 < s.frm.utf8Rem →
    let after : Config.Params → State := fun P =>
      s.commitFrm
        ⟨{ s.frm with idleCnt := 0, line := (if s.frm.line.length = P.lineMax then [] else s.frm.line) ++ [b],
                      lineAge := 0, utf8Rem := s.frm.utf8Rem - 1, s := if s.frm.utf8Rem = 1 then .idle else .utf8 },
          if s.frm.line.length = P.lineMax then [.consoleLine s.frm.line] else []⟩
    exec (.frmRxbyte b) s = .next (after defaultParams) ∧
    ∀ P : Config.Params, LegalParams P → execWith P (.frmRxbyte b) s = after P

/-- R222 with R204: FRM.TIMEOUT outside `Idle` counts, and at the fourth count discards the partial frame with a report;
in `Idle` it ages a buffered console line and flushes it once stale. -/
def Obligations.FrmTimeout : Prop :=
  ∀ s : State, TimeoutInv s.frm → LineInv s.frm →
    let after : Config.Params → State := fun P =>
      if s.frm.s ≠ .idle then
        if s.frm.idleCnt < 3 then s.commitFrm ⟨{ s.frm with idleCnt := s.frm.idleCnt + 1 }, []⟩
        else s.commitFrm
          ⟨{ s.frm with mIn := Msg.empty, lenIn := 0, utf8Rem := 0, idleCnt := 0, s := .idle, line := [],
                        lineAge := if s.frm.s = .utf8 then 0 else s.frm.lineAge, tmoEn := false },
            [.reportError .lost] ++ (if s.frm.line = [] then [] else [.consoleLine s.frm.line]) ++ [.setTimeout false]⟩
      else if s.frm.line = [] then s.answer .ok .none []
      else if s.frm.lineAge < P.lineStaleTicks then s.commitFrm ⟨{ s.frm with lineAge := s.frm.lineAge + 1 }, []⟩
      else s.commitFrm
        ⟨{ s.frm with line := [], lineAge := 0, tmoEn := false }, [.consoleLine s.frm.line, .setTimeout false]⟩
    exec .frmTimeout s = .next (after defaultParams) ∧ ∀ P : Config.Params, execWith P .frmTimeout s = after P

/-- R223, R224: FRM.RELEASE, and FRM.SEND with its refusals and the bytes of the frame. -/
def Obligations.FrmReleaseAndSend : Prop :=
  ∀ s : State,
    exec .frmRelease s = .next (s.commitFrm ⟨{ s.frm with holdValid := false, hold := Msg.empty }, []⟩) ∧
    ∀ (r : Nat) (m : Msg), s.msg? r = some m →
      (∀ st, needHeader m = .error st → exec (.frmSend r) s = .next (s.answer st .none [])) ∧
      ∀ h, needHeader m = .ok h →
        let body := bytesOf (encHeader h) ++ bytesOf (m.buf.take (8 * (m.buf.length / 8)))
        let L := body.length
        let after : Config.Params → State := fun P =>
          let c := P.crcFin (body.foldl P.crcStep P.crcInit)
          if m.buf.length % 8 ≠ 0 then s.answer .state .none []
          else if 32767 < L then s.answer .range .none []
          else s.answer .ok .none
            [.dataOut ([P.marker m.prio] ++
              (if L < 128 then [BitVec.ofNat 8 L] else [0x80#8 ||| BitVec.ofNat 8 (L / 256), BitVec.ofNat 8 (L % 256)]) ++
              body ++ [c.extractLsb' 8 8, c.extractLsb' 0 8])]
        exec (.frmSend r) s = .next (after defaultParams) ∧ ∀ P : Config.Params, execWith P (.frmSend r) s = after P

/-- R227: from any state four timeouts in a row bring the framer to `Idle`, and after `LINE_STALE_TICKS + 1` more it is
quiescent with the timeout stopped. The spec marks it as derived. -/
def Obligations.FramerRecovery : Prop :=
  ∀ (P : Config.Params) (f : Machine.Frm), IdleInv f →
    (rxTimeouts P 4 (Acc.start f)).st.s = .idle ∧ (rxTimeouts P 4 (Acc.start f)).st.idleCnt = 0 ∧
    ∀ n, 4 + (P.lineStaleTicks + 1) ≤ n →
      (rxTimeouts P n (Acc.start f)).st.s = .idle ∧ (rxTimeouts P n (Acc.start f)).st.line = [] ∧
        (rxTimeouts P n (Acc.start f)).st.tmoEn = false

/-- R226, the loop-back law: the bytes FRM.SEND writes for a message, received by a framer in `Idle` with the hold free,
end a pending console line, start the timeout where it was stopped, hand over exactly that message, acknowledge it, stop
the timeout, and leave the framer in `Idle` with the message held. The spec marks it as derived. -/
def Obligations.LoopBack : Prop :=
  ∀ P : Config.Params, LegalParams P → ∀ (s : State) (r : Nat) (m : Msg) (h : Hdr) (f : Machine.Frm) (bytes : Bytes),
    s.msg? r = some m → needHeader m = .ok h → addrOk m.dst = true → addrOk m.src = true →
    (execWith P (.frmSend r) s).port.answer = some ⟨.ok, .none, [.dataOut bytes]⟩ →
    f.s = .idle → f.holdValid = false → TimeoutInv f →
    let x := rxBytes P bytes (Acc.start f)
    x.ev = (if f.line = [] then [.setTimeout true] else [.consoleLine f.line]) ++
      [.process { dst := m.dst, src := m.src, code := m.code, prio := m.prio, data := m.data },
       .dataOut [0x06#8], .setTimeout false] ∧
    x.st.s = .idle ∧ x.st.holdValid = true ∧ x.st.hold = { m with xpos := none } ∧ x.st.line = [] ∧
      x.st.mIn = Msg.empty ∧ x.st.tmoEn = false

/-- R203, R221, R222: no console byte is lost or reordered: what a byte or a timeout hands out as console lines, followed
by what stays in the line, is the line as it was, followed by the byte where it is console text. -/
def Obligations.ConsoleBytesKept : Prop :=
  ∀ (P : Config.Params) (f : Machine.Frm),
    (∀ b : Byte, consoleOut (rxByte P b f).ev ++ (rxByte P b f).st.line =
      f.line ++ if isConsoleText P b f then [b] else []) ∧
    consoleOut (rxTimeout P f).ev ++ (rxTimeout P f).st.line = f.line

/-! ## The ARQ engine -/

/-- R38, R301: `fwd(a, b)` is the number of steps from `b` on to `a` in the circle of `W` sequence numbers; `half`,
`inflight` and `rspan`. -/
def Obligations.SequenceArithmetic : Prop :=
  (∀ W a b : Nat, a < W → b < W → fwd W a b < W ∧ (b + fwd W a b) % W = a) ∧
  ∀ (P : Config.Params) (a : Arq), ArqRanges P a →
    a.half = a.window / 2 ∧ a.inflight < a.window ∧ (a.sendTail + a.inflight) % a.window = a.sendHead ∧
      a.rspan < a.window ∧ (a.recvTail + a.rspan) % a.window = a.recvHead

/-- R264: the list `x` of an outgoing message names the sequence numbers buffered beyond `recv_tail`, in ascending order
from it, and is absent where there are none; in a session that keeps its invariant, those are all that `oor` holds. -/
def Obligations.ArqSelectiveList : Prop :=
  ∀ (P : Config.Params) (a : Arq), ArqRanges P a →
    let buffered : Nat → Prop := fun q =>
      q < a.window ∧ 1 ≤ fwd a.window q a.recvTail ∧ fwd a.window q a.recvTail < a.rspan ∧ tableGet a.oor q ≠ none
    (a.xField = none ↔ ∀ q, ¬ buffered q) ∧
    (∀ L, a.xField = some L →
      L ≠ [] ∧ (∀ q, q ∈ L ↔ buffered q) ∧
        L.Pairwise fun p q => fwd a.window p a.recvTail < fwd a.window q a.recvTail) ∧
    (ArqInv P a → ∀ q, buffered q ↔ tableGet a.oor q ≠ none)

/-- R268. -/
def Obligations.ArqOpen : Prop :=
  (∀ w t, w < 256 → t < 65536 → (encode (.arqOpen w t)).toNat = 0x40000000 + w * 2 ^ 16 + t) ∧
  ∀ (w t : Nat) (s : State),
    let after : Config.Params → State := fun P =>
      if s.arq.phase = .opened then s.answer .state .none []
      else if w < 4 ∨ P.wMax < w ∨ t < P.tMin then s.answer .range .none []
      else s.commitArq
        ⟨{ phase := .opened, window := w, timeout := t, sendHead := 0, sendTail := 0, recvHead := 0, recvTail := 0,
           pend := [], oor := [], sendq := [], resetLevel := 1, resetDeadline := s.port.operands.now + t,
           ackPending := false, ackDeadline := 0 },
          [.lowerSend { s := -1, r := -1, a := true, n := some 1, c := some ⟨t, w⟩ }]⟩
    exec (.arqOpen w t) s = .next (after defaultParams) ∧ ∀ P : Config.Params, execWith P (.arqOpen w t) s = after P

/-- R270 with R266: an accepted send goes out at once where the window has space and nothing is queued, and otherwise
waits; with `Q_MAX` waiting it is refused. -/
def Obligations.ArqSend : Prop :=
  ∀ (handle : U16) (s : State),
    let a := s.arq
    let payload := s.port.operands.payload
    let sent := s.commitArq
      ⟨{ a with pend := tableSet a.pend a.sendHead ⟨payload, s.port.operands.now + a.timeout, handle⟩,
                sendHead := (a.sendHead + 1) % a.window, ackPending := false },
        [.lowerSend { s := a.sendHead, r := a.recvTail, x := a.xField, d := some payload }]⟩
    let queued := s.commitArq ⟨{ a with sendq := a.sendq ++ [⟨payload, handle⟩] }, []⟩
    let free := a.resetLevel = 0 ∧ a.sendq = [] ∧ a.inflight < a.window / 2
    (a.phase = .unopened → exec (.arqSend handle) s = .next (s.answer .state .none [])) ∧
    (a.phase = .closed → exec (.arqSend handle) s = .next (s.answer .closed .none [])) ∧
    (a.phase = .opened → free → exec (.arqSend handle) s = .next sent) ∧
    (a.phase = .opened → ¬ free → a.sendq.length < 16 → exec (.arqSend handle) s = .next queued) ∧
    (a.phase = .opened → ¬ free → 16 ≤ a.sendq.length → exec (.arqSend handle) s = .next (s.answer .busy .none [])) ∧
    ∀ P : Config.Params, a.phase = .opened →
      (∀ n, P.pMax = some n → n < payload.length → execWith P (.arqSend handle) s = s.answer .range .none []) ∧
      ((∀ n, P.pMax = some n → payload.length ≤ n) →
        (free → execWith P (.arqSend handle) s = sent) ∧
        (¬ free → (∀ n, P.qMax = some n → a.sendq.length < n) → execWith P (.arqSend handle) s = queued) ∧
        (∀ n, ¬ free → P.qMax = some n → n ≤ a.sendq.length →
          execWith P (.arqSend handle) s = s.answer .busy .none []))

/-- R266, R267: `StartQueued` at level 0 starts as many queued sends as the window has space for, oldest first, each with
its deadline, and leaves everything else as it was. -/
def Obligations.StartQueuedFillsWindow : Prop :=
  ∀ (P : Config.Params) (now : Nat) (a : Arq), ArqRanges P a → TableWf a.pend → a.inflight ≤ a.half → a.resetLevel = 0 →
    let n := min a.sendq.length (a.half - a.inflight)
    let x := startQueued now (Acc.start a)
    x.st = { a with sendq := a.sendq.drop n, sendHead := (a.sendHead + n) % a.window, pend := x.st.pend,
                    ackPending := if n = 0 then a.ackPending else false } ∧
    (∀ i p, i < n → a.sendq[i]? = some p →
      tableGet x.st.pend ((a.sendHead + i) % a.window) = some ⟨p.payload, now + a.timeout, p.handle⟩) ∧
    (∀ q, (∀ i, i < n → q ≠ (a.sendHead + i) % a.window) → tableGet x.st.pend q = tableGet a.pend q) ∧
    x.ev = (a.sendq.take n).mapIdx fun i p =>
      .lowerSend { s := ((a.sendHead + i) % a.window : Nat), r := a.recvTail, x := a.xField, d := some p.payload }

/-- R263, R271, R272: ARQ.RECV before the channel is opened and after it is closed, and the messages that an open channel
drops with a report, at every choice of the parameters. -/
def Obligations.ArqRecvNotOpenOrDropped : Prop :=
  ∀ s : State,
    let msg := s.port.operands.msg
    let W := s.arq.window
    let badReset := msg.n = none ∨ ((msg.n = some 1 ∨ msg.n = some 2) ∧ msg.c = none)
    let effect : Config.Params → (State → Prop) → Prop := fun P answers =>
      (s.arq.phase = .unopened → answers (s.answer .state .none [])) ∧
      (s.arq.phase = .closed → msg.a = true → msg.n = some 0 → answers (s.answer .ok .none [])) ∧
      (s.arq.phase = .closed → ¬ (msg.a = true ∧ msg.n = some 0) →
        answers (s.answer .ok .none [.lowerSend { s := 0, r := 0, a := true, n := some 0 }])) ∧
      (s.arq.phase = .opened → msg.a = true → badReset →
        answers (s.answer .ok .none [.reportError .arqMalformed])) ∧
      (s.arq.phase = .opened → msg.a = true → ¬ badReset → ∀ c, msg.c = some c →
        c.m < 4 ∨ c.t < P.tMin ∨ P.tMax < c.t → answers (s.answer .ok .none [.reportError .arqBound])) ∧
      (s.arq.phase = .opened → msg.a = false → s.arq.resetLevel = 0 →
        (msg.s < 0 ∨ (W : Int) ≤ msg.s ∨ msg.r < 0 ∨ (W : Int) ≤ msg.r ∨ ∃ q ∈ msg.x.getD [], W ≤ q) →
        answers (s.answer .ok .none [.reportError .arqBound]))
    effect defaultParams (fun t => exec .arqRecv s = .next t) ∧
    ∀ P : Config.Params, effect P (fun t => execWith P .arqRecv s = t)

/-- R273, R274, R275 with R265, R282: a terminal reset completes every send and closes the channel; a level-1 reset
re-queues the sends in flight, merges the configuration and answers at level 2; an error it carries fails every send
first. -/
def Obligations.ArqRecvTerminalAndLevel1 : Prop :=
  ∀ s : State, s.arq.phase = .opened → s.port.operands.msg.a = true → 0 < s.arq.window →
    let a := s.arq
    let msg := s.port.operands.msg
    let effect : Config.Params → (State → Prop) → Prop := fun P answers =>
      (∀ c, msg.c = some c → 4 ≤ c.m ∧ P.tMin ≤ c.t ∧ c.t ≤ P.tMax) →
      (msg.n = some 0 →
        answers (s.commitArq
          ⟨{ a with phase := .closed, sendq := [], pend := [], oor := [], sendHead := 0, sendTail := 0, recvHead := 0,
                    recvTail := 0, ackPending := false, resetLevel := 0 },
            a.outstanding.map fun h =>
              .sendDone h (match msg.e with | none => .closed | some e => .resetError e)⟩)) ∧
      (∀ c, msg.n = some 1 → msg.c = some c →
        answers (s.commitArq
          ⟨{ a with sendq := (match msg.e with | none => a.unfinished ++ a.sendq | some _ => []), pend := [], oor := [],
                    sendHead := 0, sendTail := 0, recvHead := 0, recvTail := 0, ackPending := false,
                    timeout := max a.timeout c.t, window := min a.window c.m, resetLevel := 2,
                    resetDeadline := s.port.operands.now + max a.timeout c.t },
            (match msg.e with | none => [] | some e => a.outstanding.map fun h => .sendDone h (.resetError e)) ++
              [.lowerSend { s := 0, r := 0, a := true, n := some 2,
                            c := some ⟨max a.timeout c.t, min a.window c.m⟩ }]⟩))
    effect defaultParams (fun t => exec .arqRecv s = .next t) ∧
    ∀ P : Config.Params, effect P (fun t => execWith P .arqRecv s = t)

/-- R277, R278, R279 with R273, R282: the end of the handshake, its repeats, an error they carry, which fails every send
first (in a session that keeps its invariant), and a normal message that arrives during the handshake. -/
def Obligations.ArqRecvHandshake : Prop :=
  ∀ s : State, s.arq.phase = .opened →
    let a := s.arq
    let msg := s.port.operands.msg
    let now := s.port.operands.now
    let third : Event := .lowerSend { s := 0, r := 0, a := true, n := some 3 }
    let effect : Config.Params → (State → Prop) → Prop := fun P answers =>
      (msg.a = true → (∀ c, msg.c = some c → 4 ≤ c.m ∧ P.tMin ≤ c.t ∧ c.t ≤ P.tMax) →
        (msg.e = none →
          (∀ c, msg.n = some 2 → msg.c = some c →
            (a.resetLevel ≠ 0 →
              answers (s.commitArq (startQueued now
                ⟨{ a with timeout := max a.timeout c.t, window := min a.window c.m, resetLevel := 0 }, [third]⟩))) ∧
            (a.resetLevel = 0 → answers (s.answer .ok .none [third]))) ∧
          (msg.n = some 3 →
            (a.resetLevel = 2 → answers (s.commitArq (startQueued now ⟨{ a with resetLevel := 0 }, []⟩))) ∧
            (a.resetLevel ≠ 2 → answers (s.answer .ok .none [])))) ∧
        (∀ e, msg.e = some e → ArqInv P a →
          let failed : Arq := { a with sendq := [], pend := [] }
          let dones : List Event := a.outstanding.map fun h => .sendDone h (.resetError e)
          (∀ c, msg.n = some 2 → msg.c = some c →
            (a.resetLevel ≠ 0 →
              answers (s.commitArq
                ⟨{ failed with timeout := max a.timeout c.t, window := min a.window c.m, resetLevel := 0 },
                  dones ++ [third]⟩)) ∧
            (a.resetLevel = 0 → answers (s.commitArq ⟨failed, dones ++ [third]⟩))) ∧
          (msg.n = some 3 →
            (a.resetLevel = 2 → answers (s.commitArq ⟨{ failed with resetLevel := 0 }, dones⟩)) ∧
            (a.resetLevel ≠ 2 → answers (s.commitArq ⟨failed, dones⟩))))) ∧
      (msg.a = false → (a.resetLevel = 1 ∨ a.resetLevel = 2) →
        answers (s.commitArq
          ⟨{ a with resetDeadline := now + a.timeout },
            [.lowerSend { s := if a.resetLevel = 1 then -1 else 0, r := if a.resetLevel = 1 then -1 else 0, a := true,
                          n := some a.resetLevel, c := some ⟨a.timeout, a.window⟩ }]⟩))
    effect defaultParams (fun t => exec .arqRecv s = .next t) ∧
    ∀ P : Config.Params, effect P (fun t => execWith P .arqRecv s = t)

/-- R280, R281, R283, R286, R287 with R263: what a normal message does to the sends and to the acknowledgements. An `r`
inside the sends in flight completes those it covers, in sequence order, and moves `send_tail`; then each entry of `x`
still in flight is completed, in list order, and `send_tail` stays; data marks an acknowledgement, an earlier deadline
being kept; queued sends start; an acknowledgement still pending goes out at once where no send is left in `pend`. What the
data does to the receiving side is ArqDataDelivery's. At a finite `P_MAX` the statement covers a longer payload too, which
is the model's choice (log 22, DESIGN CHOICE). -/
def Obligations.ArqAcknowledgement : Prop :=
  ∀ (s : State) (r : Nat),
    let a := s.arq
    let W := a.window
    let msg := s.port.operands.msg
    let now := s.port.operands.now
    let x := msg.x.getD []
    a.phase = .opened → a.resetLevel = 0 → msg.a = false → 0 ≤ msg.s → msg.s < W → msg.r = r → r < W →
    (∀ q ∈ x, q < W) →
    let k := fwd W r a.sendTail
    let tail := if k ≤ a.inflight then r else a.sendTail
    let left := if k ≤ a.inflight then a.inflight - k else a.inflight
    let covered : Nat → Prop := fun q => k ≤ a.inflight ∧ q < W ∧ fwd W q a.sendTail < k
    let named : Nat → Prop := fun q => q ∈ x ∧ fwd W q tail < left
    let done : Nat → Option Event := fun q => (tableGet a.pend q).map fun e => .sendDone e.handle .ok
    let dones : List Event :=
      (if k ≤ a.inflight then (List.range k).filterMap fun i => done ((a.sendTail + i) % W) else []) ++
        (x.eraseDups.filter fun q => decide (fwd W q tail < left)).filterMap done
    let effect : Config.Params → (State → Prop) → Prop := fun P answers => ArqInv P a →
      ∃ (b : Arq) (pend : Table PendEntry) (payloads : List Bytes),
        b = { a with oor := b.oor, recvHead := b.recvHead, recvTail := b.recvTail } ∧
        (msg.d = none → b = a ∧ payloads = []) ∧
        TableWf pend ∧ (∀ q, covered q ∨ named q → tableGet pend q = none) ∧
        (∀ q, ¬ (covered q ∨ named q) → tableGet pend q = tableGet a.pend q) ∧
        let y := startQueued now
          ⟨{ b with sendTail := tail, pend := pend, ackPending := a.ackPending || msg.d.isSome,
                    ackDeadline := if a.ackPending = true ∨ msg.d = none then a.ackDeadline
                      else now + P.ackDelay a.timeout },
            dones ++ payloads.map .dispatch⟩
        answers (s.commitArq
          (if y.st.ackPending = true ∧ y.st.pend = [] then
            ⟨{ y.st with ackPending := false },
              y.ev ++ [.lowerSend { s := y.st.sendHead, r := y.st.recvTail, x := y.st.xField }]⟩
          else y))
    effect defaultParams (fun t => exec .arqRecv s = .next t) ∧
    ∀ P : Config.Params, effect P (fun t => execWith P .arqRecv s = t)

/-- R284, R285, R286, R287 with R263, R280, and log 22 (DESIGN CHOICE: whatever the length of its payload): a data message
inside the forward half of the window is buffered (the first copy stays), and then the payloads are dispatched in sequence
order from `recv_tail` on until a gap; outside that half nothing is buffered and nothing dispatched. Either way it marks an acknowledgement, an earlier deadline being kept; where
queued sends start, their messages carry it; where none start, it goes out at once if `pend` is empty and stays pending
otherwise. The events come in R287's order. -/
def Obligations.ArqDataDelivery : Prop :=
  ∀ (P : Config.Params) (s : State) (q : Nat) (d : Bytes), ArqInv P s.arq → s.arq.phase = .opened →
    s.arq.resetLevel = 0 → q < s.arq.window →
    s.port.operands.msg.a = false → s.port.operands.msg.d = some d → s.port.operands.msg.s = q →
    0 ≤ s.port.operands.msg.r → s.port.operands.msg.r < s.arq.window →
    (∀ y ∈ s.port.operands.msg.x.getD [], y < s.arq.window) →
    let a := s.arq
    let k := fwd a.window q a.recvTail
    let t := execWith P .arqRecv s
    (a.half ≤ k →
      dispatched t.events = [] ∧ t.arq.oor = a.oor ∧ t.arq.recvTail = a.recvTail ∧ t.arq.recvHead = a.recvHead) ∧
    (k < a.half →
      let buffered := fun p => if p = q ∧ tableGet a.oor q = none then some d else tableGet a.oor p
      t.arq.recvHead = (if a.rspan ≤ k then (q + 1) % a.window else a.recvHead) ∧
      ∃ n, n ≤ a.half ∧ t.arq.recvTail = (a.recvTail + n) % a.window ∧
        (dispatched t.events).map some = (List.range n).map (fun i => buffered ((a.recvTail + i) % a.window)) ∧
        buffered t.arq.recvTail = none ∧
        ∀ p, tableGet t.arq.oor p =
          if ∃ i, i < n ∧ p = (a.recvTail + i) % a.window then none else buffered p) ∧
    t.arq.ackDeadline = (if a.ackPending = true then a.ackDeadline
      else s.port.operands.now + P.ackDelay a.timeout) ∧
    (t.arq.sendq ≠ a.sendq →
      t.arq.ackPending = false ∧ lowerSends t.events ≠ [] ∧ ∀ msg ∈ lowerSends t.events, msg.d ≠ none) ∧
    (t.arq.sendq = a.sendq → t.arq.pend ≠ [] → t.arq.ackPending = true ∧ lowerSends t.events = []) ∧
    (t.arq.sendq = a.sendq → t.arq.pend = [] → t.arq.ackPending = false ∧
      lowerSends t.events = [{ s := t.arq.sendHead, r := t.arq.recvTail, x := t.arq.xField }]) ∧
    ∃ handles : List U16, t.events = handles.map (.sendDone · .ok) ++ (dispatched t.events).map .dispatch ++
      (lowerSends t.events).map .lowerSend

/-- R276: ARQ.NEXT answers the reset deadline during the handshake, and otherwise the least deadline of the sends in
flight and of the pending acknowledgement, or nothing. -/
def Obligations.ArqNext : Prop :=
  encode .arqNext = 0x47000000#32 ∧
  ∀ s : State,
    let a := s.arq
    let due : Nat → Prop := fun d => (∃ e ∈ a.pend, e.2.deadline = d) ∨ (a.ackPending = true ∧ a.ackDeadline = d)
    ∃ o : Option Nat, exec .arqNext s = .next (s.answer .ok (.optNum o) []) ∧
      (a.phase ≠ .opened → o = none) ∧
      (a.phase = .opened → a.resetLevel ≠ 0 → o = some a.resetDeadline) ∧
      (a.phase = .opened → a.resetLevel = 0 →
        (o = none ↔ ∀ d, ¬ due d) ∧ ∀ d, o = some d → due d ∧ ∀ d', due d' → d ≤ d')

/-- R288 with R264: ARQ.TICK sends the reset message of its level when it is due, else retransmits the one send in flight
with the least deadline that has come (the nearest to `send_tail` among equals), else sends a due acknowledgement, else
does nothing. -/
def Obligations.ArqTick : Prop :=
  ∀ s : State,
    let a := s.arq
    let now := s.port.operands.now
    (a.phase ≠ .opened → exec .arqTick s = .next (s.answer .ok .none [])) ∧
    (a.phase = .opened → (a.resetLevel = 1 ∨ a.resetLevel = 2) →
      exec .arqTick s = .next (if a.resetDeadline ≤ now then
          s.commitArq ⟨{ a with resetDeadline := now + a.timeout },
            [.lowerSend { s := if a.resetLevel = 1 then -1 else 0, r := if a.resetLevel = 1 then -1 else 0, a := true,
                          n := some a.resetLevel, c := some ⟨a.timeout, a.window⟩ }]⟩
        else s.answer .ok .none [])) ∧
    (a.phase = .opened → a.resetLevel = 0 →
      ((∃ e ∈ a.pend, e.2.deadline ≤ now) →
        ∃ q e, (q, e) ∈ a.pend ∧ e.deadline ≤ now ∧
          (∀ q' e', (q', e') ∈ a.pend → e'.deadline ≤ now → e.deadline < e'.deadline ∨
            (e.deadline = e'.deadline ∧ fwd a.window q a.sendTail ≤ fwd a.window q' a.sendTail)) ∧
          exec .arqTick s = .next (s.commitArq
            ⟨{ a with pend := tableSet a.pend q { e with deadline := now + a.timeout }, ackPending := false },
              [.lowerSend { s := q, r := a.recvTail, x := a.xField, d := some e.payload }]⟩)) ∧
      ((∀ e ∈ a.pend, now < e.2.deadline) →
        exec .arqTick s = .next (if a.ackPending = true ∧ a.ackDeadline ≤ now then
            s.commitArq ⟨{ a with ackPending := false },
              [.lowerSend { s := a.sendHead, r := a.recvTail, x := a.xField }]⟩
          else s.answer .ok .none [])))

/-- R276, R288: ARQ.TICK does nothing before the time ARQ.NEXT answers, or where it answers none, and from that time on
it sends exactly one message. -/
def Obligations.TickAgreesWithNext : Prop :=
  ∀ (s : State) (o : Option Nat), (arqNext s).port.answer = some ⟨.ok, .optNum o, []⟩ →
    (o = none → exec .arqTick s = .next (s.answer .ok .none [])) ∧
    (∀ d, o = some d → s.port.operands.now < d → exec .arqTick s = .next (s.answer .ok .none [])) ∧
    (∀ d, o = some d → d ≤ s.port.operands.now → ∃ t msg, exec .arqTick s = .next t ∧ t.events = [.lowerSend msg])

/-- R289, R290, R291: ARQ.CLOSE and ARQ.LOWERFAIL complete every send and close the channel; ARQ.RESET starts the
handshake again, failing every send first where it carries an error and re-queueing the sends in flight where not. -/
def Obligations.ArqCloseLowerfailReset : Prop :=
  ∀ s : State,
    let a := s.arq
    let err := s.port.operands.err
    let closed : Completion → State := fun res => s.commitArq
      ⟨{ a with phase := .closed, sendq := [], pend := [], oor := [], sendHead := 0, sendTail := 0, recvHead := 0,
                recvTail := 0, ackPending := false, resetLevel := 0 },
        a.outstanding.map fun h => .sendDone h res⟩
    (a.phase = .unopened → ∀ hasErr, ∀ i ∈ [Instr.arqClose, .arqLowerfail, .arqReset hasErr],
      exec i s = .next (s.answer .state .none [])) ∧
    (a.phase = .closed → ∀ hasErr, exec .arqClose s = .next (s.answer .ok .none []) ∧
      exec .arqLowerfail s = .next (s.answer .ok .none []) ∧
      exec (.arqReset hasErr) s = .next (s.answer .closed .none [])) ∧
    (a.phase = .opened → 0 < a.window →
      exec .arqClose s = .next (closed .closed) ∧
      exec .arqLowerfail s = .next (closed (.transport err)) ∧
      ∀ hasErr, exec (.arqReset hasErr) s = .next (s.commitArq
        ⟨{ a with sendq := if hasErr then [] else a.unfinished ++ a.sendq, pend := [], oor := [], sendHead := 0,
                  sendTail := 0, recvHead := 0, recvTail := 0, ackPending := false, resetLevel := 1,
                  resetDeadline := s.port.operands.now + a.timeout },
          (if hasErr then a.outstanding.map fun h => .sendDone h (.resetError err) else []) ++
            [.lowerSend { s := -1, r := -1, a := true, n := some 1, c := some ⟨a.timeout, a.window⟩,
                          e := if hasErr then some err else none }]⟩))

/-- R262, R265, R360: no send is lost and none is completed twice: under every command but SYS.RESET, the handles a
session held and the handle it has just accepted are the handles it holds afterwards and those it has completed. -/
def Obligations.HandlesConserved : Prop :=
  ∀ (P : Config.Params) (i : Instr) (s : State), ArqInv P s.arq → i ≠ .sysReset →
    (s.arq.handles ++ acceptedHandle i (execWith P i s)).Perm
      ((execWith P i s).arq.handles ++ doneHandles (execWith P i s).events)
end

