-- ==== Sys2Proof/Laws/State.lean ====
section
/-! SUPPORT. One lemma per field per named update of the state, true by rfl, so that no later proof unfolds a record
update. -/

namespace Sys2Proof.Machine

/-! ## State.answer, refuse, done -/

@[simp] theorem answer_crc (s : State) (st : Status) (v : Value) (ev : List Event) : (s.answer st v ev).crc = s.crc := rfl
@[simp] theorem answer_msgs (s : State) (st : Status) (v : Value) (ev : List Event) : (s.answer st v ev).msgs = s.msgs := rfl
@[simp] theorem answer_frm (s : State) (st : Status) (v : Value) (ev : List Event) : (s.answer st v ev).frm = s.frm := rfl
@[simp] theorem answer_arq (s : State) (st : Status) (v : Value) (ev : List Event) : (s.answer st v ev).arq = s.arq := rfl
@[simp] theorem answer_issued (s : State) (st : Status) (v : Value) (ev : List Event) : (s.answer st v ev).port.issued = s.port.issued := rfl
@[simp] theorem answer_operands (s : State) (st : Status) (v : Value) (ev : List Event) : (s.answer st v ev).port.operands = s.port.operands := rfl
@[simp] theorem answer_answer (s : State) (st : Status) (v : Value) (ev : List Event) : (s.answer st v ev).port.answer = some { status := st, value := v, events := ev } := rfl
@[simp] theorem refuse_crc (s : State) (st : Status) : (s.refuse st).crc = s.crc := rfl
@[simp] theorem refuse_msgs (s : State) (st : Status) : (s.refuse st).msgs = s.msgs := rfl
@[simp] theorem refuse_frm (s : State) (st : Status) : (s.refuse st).frm = s.frm := rfl
@[simp] theorem refuse_arq (s : State) (st : Status) : (s.refuse st).arq = s.arq := rfl
@[simp] theorem refuse_issued (s : State) (st : Status) : (s.refuse st).port.issued = s.port.issued := rfl
@[simp] theorem refuse_operands (s : State) (st : Status) : (s.refuse st).port.operands = s.port.operands := rfl
@[simp] theorem refuse_answer (s : State) (st : Status) : (s.refuse st).port.answer = some { status := st, value := .none, events := [] } := rfl
@[simp] theorem done_crc (s : State) (v : Value) : (s.done v).crc = s.crc := rfl
@[simp] theorem done_msgs (s : State) (v : Value) : (s.done v).msgs = s.msgs := rfl
@[simp] theorem done_frm (s : State) (v : Value) : (s.done v).frm = s.frm := rfl
@[simp] theorem done_arq (s : State) (v : Value) : (s.done v).arq = s.arq := rfl
@[simp] theorem done_issued (s : State) (v : Value) : (s.done v).port.issued = s.port.issued := rfl
@[simp] theorem done_operands (s : State) (v : Value) : (s.done v).port.operands = s.port.operands := rfl
@[simp] theorem done_answer (s : State) (v : Value) : (s.done v).port.answer = some { status := .ok, value := v, events := [] } := rfl

/-! ## State.commitFrm, commitArq -/

@[simp] theorem commitFrm_crc (s : State) (x : Acc Frm) : (s.commitFrm x).crc = s.crc := rfl
@[simp] theorem commitFrm_msgs (s : State) (x : Acc Frm) : (s.commitFrm x).msgs = s.msgs := rfl
@[simp] theorem commitFrm_frm (s : State) (x : Acc Frm) : (s.commitFrm x).frm = x.st := rfl
@[simp] theorem commitFrm_arq (s : State) (x : Acc Frm) : (s.commitFrm x).arq = s.arq := rfl
@[simp] theorem commitFrm_issued (s : State) (x : Acc Frm) : (s.commitFrm x).port.issued = s.port.issued := rfl
@[simp] theorem commitFrm_operands (s : State) (x : Acc Frm) : (s.commitFrm x).port.operands = s.port.operands := rfl
@[simp] theorem commitFrm_answer (s : State) (x : Acc Frm) : (s.commitFrm x).port.answer = some { status := .ok, value := .none, events := x.ev } := rfl
@[simp] theorem commitArq_crc (s : State) (x : Acc Arq) : (s.commitArq x).crc = s.crc := rfl
@[simp] theorem commitArq_msgs (s : State) (x : Acc Arq) : (s.commitArq x).msgs = s.msgs := rfl
@[simp] theorem commitArq_frm (s : State) (x : Acc Arq) : (s.commitArq x).frm = s.frm := rfl
@[simp] theorem commitArq_arq (s : State) (x : Acc Arq) : (s.commitArq x).arq = x.st := rfl
@[simp] theorem commitArq_issued (s : State) (x : Acc Arq) : (s.commitArq x).port.issued = s.port.issued := rfl
@[simp] theorem commitArq_operands (s : State) (x : Acc Arq) : (s.commitArq x).port.operands = s.port.operands := rfl
@[simp] theorem commitArq_answer (s : State) (x : Acc Arq) : (s.commitArq x).port.answer = some { status := .ok, value := .none, events := x.ev } := rfl

/-! ## State.setMsg -/

@[simp] theorem setMsg_crc (s : State) (r : Nat) (m : Msg) : (s.setMsg r m).crc = s.crc := rfl
@[simp] theorem setMsg_msgs (s : State) (r : Nat) (m : Msg) : (s.setMsg r m).msgs = s.msgs.set r m := rfl
@[simp] theorem setMsg_frm (s : State) (r : Nat) (m : Msg) : (s.setMsg r m).frm = s.frm := rfl
@[simp] theorem setMsg_arq (s : State) (r : Nat) (m : Msg) : (s.setMsg r m).arq = s.arq := rfl
@[simp] theorem setMsg_port (s : State) (r : Nat) (m : Msg) : (s.setMsg r m).port = s.port := rfl
@[simp] theorem answer_msg (s : State) (st : Status) (v : Value) (ev : List Event) (r : Nat) :
    (s.answer st v ev).msg? r = s.msg? r := rfl

/-- A register number is legal exactly when it is below the length of the register file (R24). -/
theorem msg_isSome_iff (s : State) (r : Nat) : (s.msg? r).isSome = true ↔ r < s.msgs.length := by
  simp [State.msg?]

/-- The register file has a register exactly at the numbers below its length (R24, R101). -/
theorem msg_eq_none_iff (s : State) (r : Nat) : s.msg? r = none ↔ s.msgs.length ≤ r := by
  simp [State.msg?]

/-- A register that exists is one of the file's. -/
theorem msg_mem (s : State) (r : Nat) (m : Msg) (h : s.msg? r = some m) : m ∈ s.msgs := List.mem_of_getElem? h

/-- A write keeps the number of registers. -/
theorem setMsg_length (s : State) (r : Nat) (m : Msg) : (s.setMsg r m).msgs.length = s.msgs.length := by simp

/-- A write to a register that exists is read back. -/
theorem msg_setMsg_same (s : State) (r : Nat) (m : Msg) (h : r < s.msgs.length) : (s.setMsg r m).msg? r = some m := by
  simp [State.msg?, State.setMsg, h]

/-- A write to one register leaves every other as it was. -/
theorem msg_setMsg_other (s : State) (r q : Nat) (m : Msg) (h : q ≠ r) : (s.setMsg r m).msg? q = s.msg? q := by
  simp [State.msg?, State.setMsg, Ne.symm h]

/-! ## Acc -/

@[simp] theorem acc_start_st {σ : Type} (a : σ) : (Acc.start a).st = a := rfl
@[simp] theorem acc_start_ev {σ : Type} (a : σ) : (Acc.start a).ev = [] := rfl
@[simp] theorem acc_emit_st {σ : Type} (x : Acc σ) (e : Event) : (x.emit e).st = x.st := rfl
@[simp] theorem acc_emit_ev {σ : Type} (x : Acc σ) (e : Event) : (x.emit e).ev = x.ev ++ [e] := rfl
@[simp] theorem acc_upd_st {σ : Type} (x : Acc σ) (f : σ → σ) : (x.upd f).st = f x.st := rfl
@[simp] theorem acc_upd_ev {σ : Type} (x : Acc σ) (f : σ → σ) : (x.upd f).ev = x.ev := rfl
@[simp] theorem acc_raise_st {σ : Type} (x : Acc σ) (k : ErrKind) : (x.raise k).st = x.st := rfl
@[simp] theorem acc_raise_ev {σ : Type} (x : Acc σ) (k : ErrKind) : (x.raise k).ev = x.ev ++ [.reportError k] := rfl

/-! ## The message EMPTY -/

@[simp] theorem empty_dst  : Msg.empty.dst = none := rfl
@[simp] theorem empty_src  : Msg.empty.src = none := rfl
@[simp] theorem empty_code  : Msg.empty.code = none := rfl
@[simp] theorem empty_buf  : Msg.empty.buf = [] := rfl
@[simp] theorem empty_prio  : Msg.empty.prio = 0 := rfl
@[simp] theorem empty_xpos  : Msg.empty.xpos = none := rfl

/-! ## Arq.resetState and Arq.merge -/

@[simp] theorem resetState_phase (a : Arq) : a.resetState.phase = a.phase := rfl
@[simp] theorem resetState_window (a : Arq) : a.resetState.window = a.window := rfl
@[simp] theorem resetState_timeout (a : Arq) : a.resetState.timeout = a.timeout := rfl
@[simp] theorem resetState_sendHead (a : Arq) : a.resetState.sendHead = 0 := rfl
@[simp] theorem resetState_sendTail (a : Arq) : a.resetState.sendTail = 0 := rfl
@[simp] theorem resetState_recvHead (a : Arq) : a.resetState.recvHead = 0 := rfl
@[simp] theorem resetState_recvTail (a : Arq) : a.resetState.recvTail = 0 := rfl
@[simp] theorem resetState_pend (a : Arq) : a.resetState.pend = [] := rfl
@[simp] theorem resetState_oor (a : Arq) : a.resetState.oor = [] := rfl
@[simp] theorem resetState_sendq (a : Arq) : a.resetState.sendq = a.requeued ++ a.sendq := rfl
@[simp] theorem resetState_resetLevel (a : Arq) : a.resetState.resetLevel = a.resetLevel := rfl
@[simp] theorem resetState_resetDeadline (a : Arq) : a.resetState.resetDeadline = a.resetDeadline := rfl
@[simp] theorem resetState_ackPending (a : Arq) : a.resetState.ackPending = false := rfl
@[simp] theorem resetState_ackDeadline (a : Arq) : a.resetState.ackDeadline = a.ackDeadline := rfl
@[simp] theorem merge_phase (a : Arq) (c : ArqCfg) : (a.merge c).phase = a.phase := rfl
@[simp] theorem merge_window (a : Arq) (c : ArqCfg) : (a.merge c).window = min a.window c.m := rfl
@[simp] theorem merge_timeout (a : Arq) (c : ArqCfg) : (a.merge c).timeout = max a.timeout c.t := rfl
@[simp] theorem merge_sendHead (a : Arq) (c : ArqCfg) : (a.merge c).sendHead = a.sendHead := rfl
@[simp] theorem merge_sendTail (a : Arq) (c : ArqCfg) : (a.merge c).sendTail = a.sendTail := rfl
@[simp] theorem merge_recvHead (a : Arq) (c : ArqCfg) : (a.merge c).recvHead = a.recvHead := rfl
@[simp] theorem merge_recvTail (a : Arq) (c : ArqCfg) : (a.merge c).recvTail = a.recvTail := rfl
@[simp] theorem merge_pend (a : Arq) (c : ArqCfg) : (a.merge c).pend = a.pend := rfl
@[simp] theorem merge_oor (a : Arq) (c : ArqCfg) : (a.merge c).oor = a.oor := rfl
@[simp] theorem merge_sendq (a : Arq) (c : ArqCfg) : (a.merge c).sendq = a.sendq := rfl
@[simp] theorem merge_resetLevel (a : Arq) (c : ArqCfg) : (a.merge c).resetLevel = a.resetLevel := rfl
@[simp] theorem merge_resetDeadline (a : Arq) (c : ArqCfg) : (a.merge c).resetDeadline = a.resetDeadline := rfl
@[simp] theorem merge_ackPending (a : Arq) (c : ArqCfg) : (a.merge c).ackPending = a.ackPending := rfl
@[simp] theorem merge_ackDeadline (a : Arq) (c : ArqCfg) : (a.merge c).ackDeadline = a.ackDeadline := rfl

/-! ## The emission of a message -/

@[simp] theorem sendCarrier_phase (msg : ArqMsg) (x : Acc Arq) : (sendCarrier msg x).st.phase = x.st.phase := rfl
@[simp] theorem sendCarrier_window (msg : ArqMsg) (x : Acc Arq) : (sendCarrier msg x).st.window = x.st.window := rfl
@[simp] theorem sendCarrier_timeout (msg : ArqMsg) (x : Acc Arq) : (sendCarrier msg x).st.timeout = x.st.timeout := rfl
@[simp] theorem sendCarrier_sendHead (msg : ArqMsg) (x : Acc Arq) : (sendCarrier msg x).st.sendHead = x.st.sendHead := rfl
@[simp] theorem sendCarrier_sendTail (msg : ArqMsg) (x : Acc Arq) : (sendCarrier msg x).st.sendTail = x.st.sendTail := rfl
@[simp] theorem sendCarrier_recvHead (msg : ArqMsg) (x : Acc Arq) : (sendCarrier msg x).st.recvHead = x.st.recvHead := rfl
@[simp] theorem sendCarrier_recvTail (msg : ArqMsg) (x : Acc Arq) : (sendCarrier msg x).st.recvTail = x.st.recvTail := rfl
@[simp] theorem sendCarrier_pend (msg : ArqMsg) (x : Acc Arq) : (sendCarrier msg x).st.pend = x.st.pend := rfl
@[simp] theorem sendCarrier_oor (msg : ArqMsg) (x : Acc Arq) : (sendCarrier msg x).st.oor = x.st.oor := rfl
@[simp] theorem sendCarrier_sendq (msg : ArqMsg) (x : Acc Arq) : (sendCarrier msg x).st.sendq = x.st.sendq := rfl
@[simp] theorem sendCarrier_resetLevel (msg : ArqMsg) (x : Acc Arq) : (sendCarrier msg x).st.resetLevel = x.st.resetLevel := rfl
@[simp] theorem sendCarrier_resetDeadline (msg : ArqMsg) (x : Acc Arq) : (sendCarrier msg x).st.resetDeadline = x.st.resetDeadline := rfl
@[simp] theorem sendCarrier_ackPending (msg : ArqMsg) (x : Acc Arq) : (sendCarrier msg x).st.ackPending = false := rfl
@[simp] theorem sendCarrier_ackDeadline (msg : ArqMsg) (x : Acc Arq) : (sendCarrier msg x).st.ackDeadline = x.st.ackDeadline := rfl
@[simp] theorem sendCarrier_ev (msg : ArqMsg) (x : Acc Arq) : (sendCarrier msg x).ev = x.ev ++ [.lowerSend msg] := rfl
@[simp] theorem sendReset_st (n : Fin 4) (e : Option Bytes) (x : Acc Arq) : (sendReset n e x).st = x.st := rfl
@[simp] theorem sendReset_ev (n : Fin 4) (e : Option Bytes) (x : Acc Arq) : (sendReset n e x).ev = x.ev ++ [.lowerSend (mkReset x.st n e)] := rfl

end Sys2Proof.Machine
end

