-- ==== Sys2Proof/Laws/Tables.lean ====
section
/-! SUPPORT. The laws of the tables: what a write and an erasure leave to be read, the canonical form they keep, and that
two canonical tables that read the same are the same data. -/

namespace Sys2Proof.Machine

variable {α : Type}

@[simp] theorem tableGet_nil (q : Nat) : tableGet ([] : Table α) q = none := rfl

/-- Read after write: the entry written at `q`, every other index as before. -/
theorem tableGet_set (t : Table α) (q : Nat) (v : α) (p : Nat) (h : TableWf t) :
    tableGet (tableSet t q v) p = if p = q then some v else tableGet t p := by
  induction t with
  | nil => simp [tableSet, tableGet, eq_comm]
  | cons e t ih =>
    obtain ⟨k, w⟩ := e
    have ht : TableWf t := (List.pairwise_cons.mp h).2
    simp only [tableSet]
    split
    · by_cases hp : p = q
      · simp [tableGet, hp]
      · simp [tableGet, hp, Ne.symm hp]
    · split
      · rename_i hq
        subst hq
        by_cases hp : p = q
        · simp [tableGet, hp]
        · simp [tableGet, hp, Ne.symm hp]
      · simp only [tableGet, ih ht]
        by_cases hk : k = p
        · subst hk
          have : k ≠ q := fun e => by omega
          simp [this]
        · simp [hk]

/-- Read after erasure: nothing at `q`, every other index as before. -/
theorem tableGet_erase (t : Table α) (q p : Nat) :
    tableGet (tableErase t q) p = if p = q then none else tableGet t p := by
  induction t with
  | nil => simp [tableErase]
  | cons e t ih =>
    obtain ⟨k, w⟩ := e
    simp only [tableErase]
    split
    · rename_i hk
      subst hk
      rw [ih]
      by_cases hp : p = k
      · simp [hp]
      · simp [tableGet, hp, Ne.symm hp]
    · rename_i hk
      simp only [tableGet, ih]
      by_cases hp : k = p
      · subst hp
        simp [hk]
      · simp [hp]

/-- The entries of a table after a write are the old ones and the new one. -/
theorem mem_tableSet (t : Table α) (q : Nat) (v : α) (e : Nat × α) (h : e ∈ tableSet t q v) : e = (q, v) ∨ e ∈ t := by
  induction t with
  | nil => simpa [tableSet] using h
  | cons d t ih =>
    obtain ⟨k, w⟩ := d
    simp only [tableSet] at h
    split at h
    · simpa using h
    · split at h
      · rcases List.mem_cons.mp h with h | h
        · exact .inl h
        · exact .inr (List.mem_cons_of_mem _ h)
      · rcases List.mem_cons.mp h with h | h
        · exact .inr (h ▸ List.mem_cons_self)
        · rcases ih h with h | h
          · exact .inl h
          · exact .inr (List.mem_cons_of_mem _ h)

/-- The entries of a table after an erasure are the old ones at other indices. -/
theorem mem_tableErase (t : Table α) (q : Nat) (e : Nat × α) : e ∈ tableErase t q ↔ e ∈ t ∧ e.1 ≠ q := by
  induction t with
  | nil => simp [tableErase]
  | cons d t ih =>
    obtain ⟨k, w⟩ := d
    simp only [tableErase]
    split
    · rename_i hk
      rw [ih, List.mem_cons]
      constructor
      · exact fun ⟨h, hn⟩ => ⟨.inr h, hn⟩
      · rintro ⟨rfl | h, hn⟩
        · exact absurd hk hn
        · exact ⟨h, hn⟩
    · rename_i hk
      rw [List.mem_cons, ih, List.mem_cons]
      constructor
      · rintro (rfl | ⟨h, hn⟩)
        · exact ⟨.inl rfl, hk⟩
        · exact ⟨.inr h, hn⟩
      · rintro ⟨rfl | h, hn⟩
        · exact .inl rfl
        · exact .inr ⟨h, hn⟩

/-- A table reads `none` at an index exactly when it has no entry there. -/
theorem tableGet_eq_none_iff (t : Table α) (q : Nat) : tableGet t q = none ↔ ∀ e ∈ t, e.1 ≠ q := by
  induction t with
  | nil => simp
  | cons d t ih =>
    obtain ⟨k, w⟩ := d
    simp only [tableGet]
    split
    · rename_i hk
      simp [hk]
    · rename_i hk
      rw [ih]
      simp [hk]

/-- What a table reads is one of its entries. -/
theorem mem_of_tableGet (t : Table α) (q : Nat) (v : α) (h : tableGet t q = some v) : (q, v) ∈ t := by
  induction t with
  | nil => simp at h
  | cons d t ih =>
    obtain ⟨k, w⟩ := d
    simp only [tableGet] at h
    split at h
    · rename_i hk
      cases h
      simp [hk]
    · exact List.mem_cons_of_mem _ (ih h)

/-- In a canonical table every entry is what the table reads at its index. -/
theorem tableGet_of_mem (t : Table α) (h : TableWf t) (q : Nat) (v : α) (hm : (q, v) ∈ t) : tableGet t q = some v := by
  induction t with
  | nil => simp at hm
  | cons d t ih =>
    obtain ⟨k, w⟩ := d
    have h' := List.pairwise_cons.mp h
    simp only [tableGet]
    rcases List.mem_cons.mp hm with hm | hm
    · cases hm
      simp
    · have hlt : k < q := h'.1 q (List.mem_map_of_mem (f := Prod.fst) hm)
      rw [if_neg (by omega)]
      exact ih h'.2 hm

/-- A write keeps the canonical form. -/
theorem tableSet_wf (t : Table α) (q : Nat) (v : α) (h : TableWf t) : TableWf (tableSet t q v) := by
  induction t with
  | nil => exact List.pairwise_singleton _ _
  | cons d t ih =>
    obtain ⟨k, w⟩ := d
    have h' := List.pairwise_cons.mp h
    simp only [tableSet]
    split
    · rename_i hq
      refine List.pairwise_cons.mpr ⟨?_, h⟩
      intro p hp
      rcases List.mem_cons.mp hp with rfl | hp
      · exact hq
      · exact Nat.lt_trans hq (h'.1 p hp)
    · split
      · rename_i hq
        subst hq
        exact h
      · rename_i h1 h2
        refine List.pairwise_cons.mpr ⟨?_, ih h'.2⟩
        intro p hp
        obtain ⟨e, he, rfl⟩ := List.mem_map.mp hp
        rcases mem_tableSet t q v e he with rfl | he
        · show k < q
          omega
        · exact h'.1 e.1 (List.mem_map_of_mem (f := Prod.fst) he)

/-- An erasure keeps the canonical form. -/
theorem tableErase_wf (t : Table α) (q : Nat) (h : TableWf t) : TableWf (tableErase t q) := by
  induction t with
  | nil => exact h
  | cons d t ih =>
    obtain ⟨k, w⟩ := d
    have h' := List.pairwise_cons.mp h
    simp only [tableErase]
    split
    · exact ih h'.2
    · refine List.pairwise_cons.mpr ⟨?_, ih h'.2⟩
      intro p hp
      obtain ⟨e, he, rfl⟩ := List.mem_map.mp hp
      exact h'.1 e.1 (List.mem_map_of_mem (f := Prod.fst) ((mem_tableErase t q e).mp he).1)

/-- Two canonical tables that read the same at every index are the same data. -/
theorem table_ext (t u : Table α) (ht : TableWf t) (hu : TableWf u) (h : ∀ q, tableGet t q = tableGet u q) : t = u := by
  induction t generalizing u with
  | nil =>
    cases u with
    | nil => rfl
    | cons d u =>
      have := h d.1
      simp [tableGet] at this
  | cons d t ih =>
    obtain ⟨k, w⟩ := d
    have h1 := List.pairwise_cons.mp ht
    cases u with
    | nil =>
      have := h k
      simp [tableGet] at this
    | cons e u =>
      obtain ⟨l, y⟩ := e
      have h2 := List.pairwise_cons.mp hu
      have hk : (k, w) ∈ (l, y) :: u := mem_of_tableGet _ _ _ (by rw [← h k]; simp [tableGet])
      have hl : (l, y) ∈ (k, w) :: t := mem_of_tableGet _ _ _ (by rw [h l]; simp [tableGet])
      have hkl : k = l := by
        rcases List.mem_cons.mp hk with hk | hk
        · exact congrArg Prod.fst hk
        · have a : l < k := h2.1 k (List.mem_map_of_mem (f := Prod.fst) hk)
          rcases List.mem_cons.mp hl with hl | hl
          · exact (congrArg Prod.fst hl).symm
          · have b : k < l := h1.1 l (List.mem_map_of_mem (f := Prod.fst) hl)
            omega
      subst hkl
      have hw : w = y := by simpa [tableGet] using h k
      subst hw
      congr 1
      refine ih u h1.2 h2.2 fun q => ?_
      by_cases hq : k = q
      · subst hq
        have a : tableGet t k = none := (tableGet_eq_none_iff t k).mpr fun e he hek => by
          have := h1.1 e.1 (List.mem_map_of_mem (f := Prod.fst) he)
          omega
        have b : tableGet u k = none := (tableGet_eq_none_iff u k).mpr fun e he hek => by
          have := h2.1 e.1 (List.mem_map_of_mem (f := Prod.fst) he)
          omega
        rw [a, b]
      · simpa [tableGet, hq] using h q

end Sys2Proof.Machine
end

