-- ==== Sys2Proof/Laws/Arq.lean ====
section
/-! SUPPORT. The laws of the ARQ engine's shared operations: the sequence arithmetic (R38, R301), release and failure of
sends (R265), allocation (R266, R267), draining (R285), acknowledgements (R264, R281, R283, R286, R287), and the
minimum of a list (R276). -/

namespace Sys2Proof.Machine

/-! ## Sequence arithmetic -/

/-- `fwd` is below the window (R301). -/
theorem fwd_lt (W a b : Nat) (h : 0 < W) : fwd W a b < W := by
  unfold fwd
  have h1 : (0 : Int) ≤ ((a : Int) - b) % W := Int.emod_nonneg _ (by omega)
  have h2 : ((a : Int) - b) % W < W := Int.emod_lt_of_pos _ (by omega)
  omega

/-- `fwd` of two sequence numbers: their difference, or that plus the window (R301). -/
theorem fwd_eq (W a b : Nat) (ha : a < W) (hb : b < W) : fwd W a b = if b ≤ a then a - b else a + W - b := by
  unfold fwd
  split
  · rw [Int.emod_eq_of_lt (by omega) (by omega)]
    omega
  · have : ((a : Int) - b) % W = (a : Int) - b + W := by
      rw [← Int.add_emod_right, Int.emod_eq_of_lt (by omega) (by omega)]
    omega

@[simp] theorem fwd_self (W a : Nat) : fwd W a a = 0 := by simp [fwd]

/-- Going `fwd` steps from `b` arrives at `a`. -/
theorem fwd_add (W a b : Nat) (ha : a < W) (hb : b < W) : (b + fwd W a b) % W = a := by
  rw [fwd_eq W a b ha hb]
  split
  · rw [Nat.mod_eq_of_lt] <;> omega
  · have : b + (a + W - b) = a + W := by omega
    rw [this, Nat.add_mod_right, Nat.mod_eq_of_lt ha]

/-- `i` steps from `b` are `i` away from it. -/
theorem fwd_of_add (W b i : Nat) (hi : i < W) : fwd W ((b + i) % W) b = i := by
  unfold fwd
  have : (((b + i) % W : Nat) : Int) - b = (b + i : Int) % W - b := by push_cast; rfl
  rw [this, Int.emod_sub_emod]
  have e : (b + i : Int) - b = i := by omega
  rw [e, Int.emod_eq_of_lt (by omega) (by omega)]
  omega

/-! ## Predicates -/

/-- Window space is available while fewer than half a window of sends are in flight (R266). -/
theorem hasSpace_iff (a : Arq) : a.hasSpace = true ↔ a.inflight < a.window / 2 := decide_eq_true_iff

/-- `in_reset` is a reset level other than 0 (R37). -/
theorem inReset_iff (a : Arq) : a.inReset = true ↔ a.resetLevel ≠ 0 := decide_eq_true_iff

/-- The payload bound (R270). -/
theorem payloadTooLong_iff (P : Config.Params) (payload : Bytes) :
    payloadTooLong P payload = true ↔ ∃ n, P.pMax = some n ∧ n < payload.length := by
  unfold payloadTooLong
  split
  · rename_i h
    simp [h]
  · rename_i n h
    constructor
    · exact fun hd => ⟨n, h, of_decide_eq_true hd⟩
    · rintro ⟨k, hk, hl⟩
      rw [h] at hk
      cases hk
      exact decide_eq_true hl

/-- The queue bound (R270). -/
theorem queueFull_iff (P : Config.Params) (a : Arq) :
    queueFull P a = true ↔ ∃ n, P.qMax = some n ∧ n ≤ a.sendq.length := by
  unfold queueFull
  split
  · rename_i h
    simp [h]
  · rename_i n h
    constructor
    · exact fun hd => ⟨n, h, of_decide_eq_true hd⟩
    · rintro ⟨k, hk, hl⟩
      rw [h] at hk
      cases hk
      exact decide_eq_true hl

/-- The bounds of a configuration proposal (R263). -/
theorem cfgOutOfBounds_iff (P : Config.Params) (c : ArqCfg) :
    cfgOutOfBounds P c = true ↔ c.m < 4 ∨ c.t < P.tMin ∨ P.tMax < c.t := by
  simp only [cfgOutOfBounds, Bool.or_eq_true, decide_eq_true_eq, wMin, or_assoc]

/-- A well-formed reset message: a level, and a configuration inside the bounds where there is one, which there is at
levels 1 and 2 (R263). -/
theorem resetMsgFault_eq_none_iff (P : Config.Params) (msg : ArqMsg) :
    resetMsgFault P msg = none ↔
      msg.n ≠ none ∧ ((msg.n = some 1 ∨ msg.n = some 2) → msg.c ≠ none) ∧
        ∀ c, msg.c = some c → 4 ≤ c.m ∧ P.tMin ≤ c.t ∧ c.t ≤ P.tMax := by
  unfold resetMsgFault
  split
  · rename_i h
    constructor
    · intro hn
      cases hn
    · rintro ⟨h1, h2, -⟩
      rcases h with h | ⟨h, hc⟩
      · exact absurd h h1
      · exact absurd hc (h2 h)
  · rename_i h
    have h1 : msg.n ≠ none := fun hn => h (.inl hn)
    have h2 : (msg.n = some 1 ∨ msg.n = some 2) → msg.c ≠ none := fun hn hc => h (.inr ⟨hn, hc⟩)
    cases hc : msg.c with
    | none => simp [h1, hc] at h2 ⊢; exact h2
    | some c =>
      have hb := cfgOutOfBounds_iff P c
      dsimp only
      cases hf : cfgOutOfBounds P c with
      | true =>
        simp only [if_true, reduceCtorEq, false_iff]
        rintro ⟨-, -, h3⟩
        have := hb.mp hf
        have := h3 c rfl
        omega
      | false =>
        simp only [Bool.false_eq_true, if_false, true_iff]
        refine ⟨h1, fun hn => by simp, ?_⟩
        intro c' hc'
        cases hc'
        rw [hf] at hb
        simp only [Bool.false_eq_true, false_iff] at hb
        omega

/-- The bounds of a normal message (R263). -/
theorem normalMsgOk_iff (W : Nat) (msg : ArqMsg) :
    normalMsgOk W msg = true ↔
      (0 ≤ msg.s ∧ msg.s < W) ∧ (0 ≤ msg.r ∧ msg.r < W) ∧ ∀ q ∈ msg.x.getD [], q < W := by
  simp [normalMsgOk, and_assoc]

/-! ## Release of sends -/

/-- Everything `Release` can do (R265). -/
theorem release_cases (res : Completion) (x : Acc Arq) (q : Nat) :
    (tableGet x.st.pend q = none ∧ release res x q = x) ∨
      (∃ e, tableGet x.st.pend q = some e ∧
        release res x q =
          { st := { x.st with pend := tableErase x.st.pend q }, ev := x.ev ++ [.sendDone e.handle res] }) := by
  cases h : tableGet x.st.pend q with
  | none => exact .inl ⟨rfl, by simp [release, h]⟩
  | some e => exact .inr ⟨e, rfl, by simp [release, h, Acc.emit, Acc.upd]⟩

/-- An index at which a table holds nothing is erased without effect. -/
theorem tableErase_of_none {α : Type} (t : Table α) (q : Nat) (h : tableGet t q = none) : tableErase t q = t := by
  induction t with
  | nil => rfl
  | cons d t ih =>
    obtain ⟨k, w⟩ := d
    simp only [tableGet] at h
    split at h
    · cases h
    · rename_i hk
      simp [tableErase, hk, ih h]

/-- `Release` writes no field but `pend` (R265). -/
theorem release_st (res : Completion) (x : Acc Arq) (q : Nat) :
    (release res x q).st = { x.st with pend := tableErase x.st.pend q } := by
  rcases release_cases res x q with ⟨h, e⟩ | ⟨e, h, e'⟩
  · rw [e, tableErase_of_none _ _ h]
  · rw [e']

/-- The entries a list of releases leaves in `pend`. -/
theorem releaseAll_st (res : Completion) (qs : List Nat) (x : Acc Arq) :
    (releaseAll res qs x).st = { x.st with pend := qs.foldl tableErase x.st.pend } := by
  induction qs generalizing x with
  | nil => rfl
  | cons q qs ih => simp only [releaseAll, List.foldl_cons] at ih ⊢; rw [ih, release_st]

/-- A list of erasures leaves nothing at its indices, and every other index as it was. -/
theorem tableGet_foldl_erase {α : Type} (qs : List Nat) (t : Table α) (p : Nat) :
    tableGet (qs.foldl tableErase t) p = if p ∈ qs then none else tableGet t p := by
  induction qs generalizing t with
  | nil => simp
  | cons q qs ih =>
    rw [List.foldl_cons, ih, tableGet_erase]
    by_cases h1 : p = q <;> by_cases h2 : p ∈ qs <;> simp [h1, h2]

/-- A list of erasures keeps the canonical form. -/
theorem foldl_erase_wf {α : Type} (qs : List Nat) (t : Table α) (h : TableWf t) : TableWf (qs.foldl tableErase t) := by
  induction qs generalizing t with
  | nil => exact h
  | cons q qs ih => exact ih _ (tableErase_wf t q h)

/-- The completions of a list of releases at distinct indices, in the order of the list (R265). -/
theorem releaseAll_ev (res : Completion) (qs : List Nat) (x : Acc Arq) (h : qs.Nodup) :
    (releaseAll res qs x).ev =
      x.ev ++ qs.filterMap fun q => (tableGet x.st.pend q).map fun e => .sendDone e.handle res := by
  induction qs generalizing x with
  | nil => simp [releaseAll]
  | cons q qs ih =>
    obtain ⟨hq, hn⟩ := List.nodup_cons.mp h
    have hstep : releaseAll res (q :: qs) x = releaseAll res qs (release res x q) := rfl
    have hsame : (qs.filterMap fun p => (tableGet (release res x q).st.pend p).map
          fun e => Event.sendDone e.handle res) =
        qs.filterMap fun p => (tableGet x.st.pend p).map fun e => Event.sendDone e.handle res := by
      refine List.filterMap_congr fun p hp => ?_
      have hpq : p ≠ q := fun e => hq (by rw [← e]; exact hp)
      rw [release_st, tableGet_erase, if_neg hpq]
    rw [hstep, ih _ hn, hsame]
    rcases release_cases res x q with ⟨hg, e⟩ | ⟨en, hg, e⟩
    · rw [e, List.filterMap_cons, hg]
      rfl
    · rw [e, List.filterMap_cons, hg]
      simp

/-- The first `n` sequence numbers from `send_tail` on are distinct while `n` is no more than the window. -/
theorem fromTail_nodup (a : Arq) (n : Nat) (h : n ≤ a.window) : (a.fromTail n).Nodup := by
  unfold Arq.fromTail
  refine List.Nodup.map_on ?_ List.nodup_range
  intro i hi j hj e
  have hi' := List.mem_range.mp hi
  have hj' := List.mem_range.mp hj
  have h1 := fwd_of_add a.window a.sendTail i (by omega)
  have h2 := fwd_of_add a.window a.sendTail j (by omega)
  rw [← h1, ← h2, e]

/-- A sequence number is among the first `n` exactly when it lies less than `n` ahead of `send_tail`. -/
theorem mem_fromTail (a : Arq) (n q : Nat) (hn : n ≤ a.window) (ht : a.sendTail < a.window) :
    q ∈ a.fromTail n ↔ q < a.window ∧ fwd a.window q a.sendTail < n := by
  unfold Arq.fromTail
  rw [List.mem_map]
  constructor
  · rintro ⟨i, hi, rfl⟩
    have hi' := List.mem_range.mp hi
    exact ⟨Nat.mod_lt _ (by omega), by rw [fwd_of_add _ _ _ (by omega)]; exact hi'⟩
  · rintro ⟨hq, hf⟩
    exact ⟨fwd a.window q a.sendTail, List.mem_range.mpr hf, fwd_add _ _ _ hq ht⟩

/-! ## Failure of every send -/

theorem failQueue_st (res : Completion) (queue : List Queued) (x : Acc Arq) : (failQueue res queue x).st = x.st := by
  unfold failQueue
  induction queue generalizing x with
  | nil => rfl
  | cons p queue ih =>
    rw [List.foldl_cons]
    exact ih _

theorem failQueue_ev (res : Completion) (queue : List Queued) (x : Acc Arq) :
    (failQueue res queue x).ev = x.ev ++ queue.map fun p => .sendDone p.handle res := by
  unfold failQueue
  induction queue generalizing x with
  | nil => simp
  | cons p queue ih => rw [List.foldl_cons, ih]; simp

/-- `FailAll` empties the queue and erases every entry in flight; it writes nothing else (R265). -/
theorem failAll_st (res : Completion) (x : Acc Arq) :
    (failAll res x).st =
      { x.st with pend := (x.st.fromTail x.st.inflight).foldl tableErase x.st.pend, sendq := [] } := by
  simp only [failAll, Acc.upd, failQueue_st, releaseAll_st]

/-- The completions of `FailAll`: the sends in flight in sequence order, then the queued ones, oldest first (R265). -/
theorem failAll_ev (res : Completion) (x : Acc Arq) (h : x.st.inflight ≤ x.st.window) :
    (failAll res x).ev =
      x.ev ++ ((x.st.fromTail x.st.inflight).filterMap fun q =>
          (tableGet x.st.pend q).map fun e => .sendDone e.handle res) ++
        x.st.sendq.map fun p => .sendDone p.handle res := by
  simp only [failAll, acc_upd_ev, failQueue_ev, releaseAll_ev res _ x (fromTail_nodup x.st _ h)]

/-! ## Allocation -/

/-- Everything `Alloc` does (R266). -/
theorem alloc_st (p : Bytes) (h : U16) (now : Nat) (x : Acc Arq) :
    (alloc p h now x).st =
      { x.st with
        pend := tableSet x.st.pend x.st.sendHead { payload := p, deadline := now + x.st.timeout, handle := h }
        sendHead := x.st.nextSeq x.st.sendHead
        ackPending := false } := rfl

/-- `StartQueued` writes no field but `sendq`, `pend`, `send_head` and `ack_pending` (R267). -/
theorem startFrom_frame (now : Nat) (queue : List Queued) (x : Acc Arq) :
    (startFrom now queue x).st =
      { x.st with
        sendq := (startFrom now queue x).st.sendq
        pend := (startFrom now queue x).st.pend
        sendHead := (startFrom now queue x).st.sendHead
        ackPending := (startFrom now queue x).st.ackPending } := by
  induction queue generalizing x with
  | nil => rfl
  | cons p rest ih =>
    simp only [startFrom]
    split
    · rw [ih]
      rfl
    · rfl

/-- What `StartQueued` leaves: a handshake under way, an empty queue, or no window space (R267). -/
theorem startFrom_stop (now : Nat) (queue : List Queued) (x : Acc Arq) (h : x.st.sendq = queue) :
    (startFrom now queue x).st.resetLevel ≠ 0 ∨ (startFrom now queue x).st.sendq = [] ∨
      (startFrom now queue x).st.hasSpace = false := by
  induction queue generalizing x with
  | nil => exact .inr (.inl h)
  | cons p rest ih =>
    simp only [startFrom]
    split
    · exact ih _ rfl
    · rename_i hc
      by_cases hr : x.st.resetLevel = 0
      · refine .inr (.inr ?_)
        cases hs : x.st.hasSpace with
        | false => rfl
        | true => exact absurd ⟨hr, hs⟩ hc
      · exact .inl hr

/-! ## Draining -/

/-- `Drain` writes no field but `oor` and `recv_tail` (R285). -/
theorem drainFor_frame (n : Nat) (x : Acc Arq) :
    (drainFor n x).st =
      { x.st with oor := (drainFor n x).st.oor, recvTail := (drainFor n x).st.recvTail } := by
  induction n generalizing x with
  | zero => rfl
  | succ n ih =>
    simp only [drainFor]
    split
    · rfl
    · rw [ih]
      rfl

/-- An erasure at an index a table holds makes the table shorter. -/
theorem tableErase_length {α : Type} (t : Table α) (q : Nat) (v : α) (h : tableGet t q = some v) :
    (tableErase t q).length < t.length := by
  induction t with
  | nil => simp at h
  | cons d t ih =>
    obtain ⟨k, w⟩ := d
    have hle : ∀ (u : Table α), (tableErase u q).length ≤ u.length := by
      intro u
      induction u with
      | nil => simp [tableErase]
      | cons e u ihu =>
        obtain ⟨k', w'⟩ := e
        simp only [tableErase]
        split
        · exact Nat.le_succ_of_le ihu
        · simpa using ihu
    simp only [tableGet] at h
    simp only [tableErase]
    split
    · exact Nat.lt_succ_of_le (hle t)
    · rename_i hk
      rw [if_neg hk] at h
      simpa using ih h

/-- `Drain` stops at a gap: as many rounds as `oor` has entries are all its loop can make (R285). -/
theorem drainFor_stop (n : Nat) (x : Acc Arq) (h : x.st.oor.length ≤ n) :
    tableGet (drainFor n x).st.oor (drainFor n x).st.recvTail = none := by
  induction n generalizing x with
  | zero =>
    have : x.st.oor = [] := List.eq_nil_of_length_eq_zero (by omega)
    simp [drainFor, this]
  | succ n ih =>
    simp only [drainFor]
    split
    · assumption
    · rename_i p hp
      refine ih _ ?_
      have := tableErase_length _ _ _ hp
      simp only [acc_upd_st, acc_emit_st]
      omega

/-! ## Acknowledgements -/

/-- Everything `ProcessAck` leaves (R281): the covered entries erased and `send_tail` moved, or nothing changed. -/
theorem processAck_st (r : Nat) (x : Acc Arq) :
    (processAck r x).st =
      if fwd x.st.window r x.st.sendTail ≤ x.st.inflight then
        { x.st with pend := (x.st.fromTail (fwd x.st.window r x.st.sendTail)).foldl tableErase x.st.pend, sendTail := r }
      else x.st := by
  unfold processAck
  split
  · simp [releaseAll_st]
  · rfl

/-- Whether an entry of `x` is in flight does not depend on `pend`, so `ProcessX` releases the entries of the list that are
in flight at its start (R283). -/
theorem processX_eq (qs : List Nat) (x : Acc Arq) :
    processX qs x =
      releaseAll .ok (qs.filter fun q => decide (fwd x.st.window q x.st.sendTail < x.st.inflight)) x := by
  unfold processX
  induction qs generalizing x with
  | nil => rfl
  | cons q qs ih =>
    rw [List.foldl_cons, List.filter_cons]
    by_cases h : fwd x.st.window q x.st.sendTail < x.st.inflight
    · simp only [h, if_true, decide_true]
      rw [ih]
      have hst := release_st .ok x q
      have hw : (release .ok x q).st.window = x.st.window := by rw [hst]
      have ht : (release .ok x q).st.sendTail = x.st.sendTail := by rw [hst]
      have hi : (release .ok x q).st.inflight = x.st.inflight := by rw [hst]; rfl
      rw [hw, ht, hi]
      rfl
    · simp only [h, if_false, decide_false, Bool.false_eq_true]
      exact ih x

/-- Everything `MarkAck` can do (R286). -/
theorem markAck_eq (P : Config.Params) (now : Nat) (x : Acc Arq) :
    markAck P now x =
      { st := { x.st with
                ackPending := true
                ackDeadline := if x.st.ackPending = true then x.st.ackDeadline else now + P.ackDelay x.st.timeout }
        ev := x.ev } := by
  obtain ⟨a, ev⟩ := x
  cases h : a.ackPending with
  | true => cases a; simp_all [markAck]
  | false => simp [markAck, h, Acc.upd]

/-- Everything the end of a normal message can do: the bare acknowledgement, or nothing (R287). -/
theorem ackIfIdle_eq (x : Acc Arq) :
    ackIfIdle x =
      if x.st.ackPending = true ∧ x.st.pend = [] then
        { st := { x.st with ackPending := false }, ev := x.ev ++ [.lowerSend (mkAck x.st)] }
      else x := rfl

/-- What `XList` names: the sequence numbers 1 to `rspan - 1` beyond `recv_tail` that are buffered (R264). -/
theorem mem_xList (a : Arq) (q : Nat) :
    q ∈ a.xList ↔ (∃ i, 1 ≤ i ∧ i < a.rspan ∧ q = (a.recvTail + i) % a.window) ∧ (tableGet a.oor q).isSome = true := by
  unfold Arq.xList
  rw [List.mem_filter, List.mem_map]
  refine and_congr_left fun _ => ⟨?_, ?_⟩
  · rintro ⟨i, hi, rfl⟩
    have := List.mem_range.mp hi
    exact ⟨i + 1, by omega, by omega, rfl⟩
  · rintro ⟨i, h1, h2, rfl⟩
    exact ⟨i - 1, List.mem_range.mpr (by omega), by rw [Nat.sub_add_cancel h1]⟩

/-! ## The minimum -/

/-- The minimum of a list is one of its members and a lower bound of all of them (R276). -/
theorem minimumOf_spec (l : List Nat) (d : Nat) (h : minimumOf l = some d) : d ∈ l ∧ ∀ x ∈ l, d ≤ x := by
  have key : ∀ (l : List Nat) (a : Nat), (l.foldl min a = a ∨ l.foldl min a ∈ l) ∧
      l.foldl min a ≤ a ∧ ∀ x ∈ l, l.foldl min a ≤ x := by
    intro l
    induction l with
    | nil => intro a; simp
    | cons b l ih =>
      intro a
      obtain ⟨h1, h2, h3⟩ := ih (min a b)
      rw [List.foldl_cons]
      refine ⟨?_, by omega, ?_⟩
      · rcases h1 with h1 | h1
        · rcases Nat.le_total a b with hab | hab
          · left
            rw [h1]
            omega
          · right
            rw [h1, Nat.min_eq_right hab]
            exact List.mem_cons_self
        · exact .inr (List.mem_cons_of_mem _ h1)
      · intro x hx
        rcases List.mem_cons.mp hx with rfl | hx
        · omega
        · exact h3 x hx
  cases l with
  | nil => cases h
  | cons a l =>
    cases h
    obtain ⟨h1, h2, h3⟩ := key l a
    refine ⟨?_, ?_⟩
    · rcases h1 with h1 | h1
      · rw [h1]
        exact List.mem_cons_self
      · exact List.mem_cons_of_mem _ h1
    · intro x hx
      rcases List.mem_cons.mp hx with rfl | hx
      · exact h2
      · exact h3 x hx

/-- A list has no minimum exactly when it is empty (R276). -/
theorem minimumOf_eq_none (l : List Nat) : minimumOf l = none ↔ l = [] := by cases l <;> simp [minimumOf]

end Sys2Proof.Machine
end

