-- ==== Sys2Proof/Laws/Bits.lean ====
section
/-! SUPPORT. The laws of bit and byte strings (R13): lengths, values, and the inverse pairs `bits`/`uint` and
`bits_of`/`bytes_of`. -/

namespace Sys2Proof.Machine

@[simp] theorem bitsOfNat_length (n v : Nat) : (bitsOfNat n v).length = n := by
  induction n with
  | zero => rfl
  | succ n ih => simp [bitsOfNat, ih]

@[simp] theorem zeros_length (n : Nat) : (zeros n).length = n := by simp [zeros]

@[simp] theorem uint_nil : uint [] = 0 := rfl

/-- The accumulator of `uint` counts by the weight of the bits that follow it. -/
theorem uint_foldl (B : Bits) (a : Nat) :
    B.foldl (fun a b => 2 * a + b.toNat) a = a * 2 ^ B.length + uint B := by
  induction B generalizing a with
  | nil => simp
  | cons b B ih =>
    simp only [List.foldl_cons, List.length_cons, uint, ih (2 * a + b.toNat), ih (2 * 0 + b.toNat), Nat.pow_succ]
    ring

/-- The first bit is the most significant one (R13, R61). -/
theorem uint_cons (b : Bool) (B : Bits) : uint (b :: B) = b.toNat * 2 ^ B.length + uint B := by
  have := uint_foldl B (2 * 0 + b.toNat)
  simpa [uint] using this

/-- `uint` of a concatenation. -/
theorem uint_append (A B : Bits) : uint (A ++ B) = uint A * 2 ^ B.length + uint B := by
  simp only [uint, List.foldl_append]
  exact uint_foldl B _

/-- `uint(B)` is below `2 ^ len(B)`. -/
theorem uint_lt (B : Bits) : uint B < 2 ^ B.length := by
  induction B with
  | nil => simp
  | cons b B ih =>
    rw [uint_cons, List.length_cons, Nat.pow_succ]
    cases b <;> simp <;> omega

/-- `uint(bits(v, n))` is `v` modulo `2 ^ n` (R13). -/
theorem uint_bitsOfNat (n v : Nat) : uint (bitsOfNat n v) = v % 2 ^ n := by
  induction n with
  | zero => simp [bitsOfNat, Nat.mod_one]
  | succ n ih =>
    rw [bitsOfNat, uint_cons, bitsOfNat_length, ih, Nat.pow_succ, Nat.mod_mul, Nat.testBit_eq_decide_div_mod_eq]
    rcases Nat.mod_two_eq_zero_or_one (v / 2 ^ n) with h | h <;> simp [h, Nat.add_comm]

/-- `uint(bits(v, n)) = v` for `v` below `2 ^ n` (R13). -/
theorem uint_bitsOfNat_of_lt (n v : Nat) (h : v < 2 ^ n) : uint (bitsOfNat n v) = v := by
  rw [uint_bitsOfNat, Nat.mod_eq_of_lt h]

/-- The bits of `v` above the width do not show in `bits(v, n)`. -/
theorem bitsOfNat_add_mul (n v k : Nat) : bitsOfNat n (k * 2 ^ n + v) = bitsOfNat n v := by
  induction n generalizing k v with
  | zero => rfl
  | succ n ih =>
    have e : k * 2 ^ (n + 1) + v = (2 * k) * 2 ^ n + v := by ring
    simp only [bitsOfNat]
    refine congrArg₂ _ ?_ ?_
    · rw [Nat.testBit_eq_decide_div_mod_eq, Nat.testBit_eq_decide_div_mod_eq, e,
        Nat.add_comm, Nat.add_mul_div_right _ _ (Nat.two_pow_pos n)]
      simp [Nat.add_mod]
    · rw [e, ih]

/-- `bits(uint(B), len(B)) = B` (R13). -/
theorem bitsOfNat_uint (B : Bits) : bitsOfNat B.length (uint B) = B := by
  induction B with
  | nil => rfl
  | cons b B ih =>
    rw [List.length_cons, bitsOfNat, uint_cons, bitsOfNat_add_mul, ih, Nat.testBit_eq_decide_div_mod_eq,
      Nat.add_comm, Nat.add_mul_div_right _ _ (Nat.two_pow_pos _), Nat.div_eq_of_lt (uint_lt B)]
    cases b <;> simp

/-- A bit string is determined by its length and its value. -/
theorem uint_inj (A B : Bits) (hl : A.length = B.length) (h : uint A = uint B) : A = B := by
  rw [← bitsOfNat_uint A, ← bitsOfNat_uint B, hl, h]

@[simp] theorem byteBits_length (b : Byte) : (byteBits b).length = 8 := by simp [byteBits]

@[simp] theorem bitsOf_nil : bitsOf [] = [] := rfl

@[simp] theorem bitsOf_cons (b : Byte) (S : Bytes) : bitsOf (b :: S) = byteBits b ++ bitsOf S := rfl

@[simp] theorem bitsOf_append (S T : Bytes) : bitsOf (S ++ T) = bitsOf S ++ bitsOf T := by simp [bitsOf]

@[simp] theorem bitsOf_length (S : Bytes) : (bitsOf S).length = 8 * S.length := by
  induction S with
  | nil => rfl
  | cons b S ih => simp only [bitsOf_cons, List.length_append, byteBits_length, ih, List.length_cons]; omega

/-- The first whole byte of a bit string. -/
theorem bytesOf_append_of_length (A B : Bits) (h : A.length = 8) :
    bytesOf (A ++ B) = BitVec.ofNat 8 (uint A) :: bytesOf B := by
  match A, h with
  | [_, _, _, _, _, _, _, _], _ => rfl

/-- A string shorter than a byte has no whole byte. -/
theorem bytesOf_short (A : Bits) (h : A.length < 8) : bytesOf A = [] := by
  match A, h with
  | [], _ => rfl
  | [_], _ => rfl
  | [_, _], _ => rfl
  | [_, _, _], _ => rfl
  | [_, _, _, _], _ => rfl
  | [_, _, _, _, _], _ => rfl
  | [_, _, _, _, _, _], _ => rfl
  | [_, _, _, _, _, _, _], _ => rfl

/-- A byte is the value of its eight bits. -/
theorem ofNat_uint_byteBits (b : Byte) : BitVec.ofNat 8 (uint (byteBits b)) = b := by
  rw [byteBits, uint_bitsOfNat_of_lt 8 b.toNat b.isLt]
  simp

/-- `bytes_of(bits_of(S) ++ B)` with fewer than eight bits in `B` is `S` (R13, R22). -/
theorem bytesOf_bitsOf_append (S : Bytes) (B : Bits) (h : B.length < 8) : bytesOf (bitsOf S ++ B) = S := by
  induction S with
  | nil => simpa using bytesOf_short B h
  | cons b S ih =>
    rw [bitsOf_cons, List.append_assoc, bytesOf_append_of_length _ _ (byteBits_length b), ofNat_uint_byteBits, ih]

/-- `bytes_of(bits_of(S)) = S` (R13). -/
theorem bytesOf_bitsOf (S : Bytes) : bytesOf (bitsOf S) = S := by
  simpa using bytesOf_bitsOf_append S [] (by simp)

/-- `bits_of(bytes_of(B)) = B` for a whole number of bytes (R13). -/
theorem bitsOf_bytesOf (n : Nat) (B : Bits) (h : B.length = 8 * n) : bitsOf (bytesOf B) = B := by
  induction n generalizing B with
  | zero =>
    have : B = [] := List.eq_nil_of_length_eq_zero (by omega)
    subst this
    rfl
  | succ n ih =>
    have e : B = B.take 8 ++ B.drop 8 := (List.take_append_drop 8 B).symm
    have h8 : (B.take 8).length = 8 := by simp; omega
    have hr : bitsOf (bytesOf (B.drop 8)) = B.drop 8 := ih _ (by simp; omega)
    have hb : byteBits (BitVec.ofNat 8 (uint (B.take 8))) = B.take 8 := by
      have hlt := uint_lt (B.take 8)
      rw [h8] at hlt
      have := bitsOfNat_uint (B.take 8)
      rw [h8] at this
      rw [byteBits, BitVec.toNat_ofNat, Nat.mod_eq_of_lt hlt]
      exact this
    conv_lhs => rw [e]
    rw [bytesOf_append_of_length _ _ h8, bitsOf_cons, hb, hr, ← e]

/-- The number of whole bytes. -/
theorem bytesOf_length (B : Bits) : (bytesOf B).length = B.length / 8 := by
  have key : ∀ n (B : Bits), B.length / 8 = n → (bytesOf B).length = n := by
    intro n
    induction n with
    | zero =>
      intro B h
      rw [bytesOf_short B (by omega)]
      rfl
    | succ n ih =>
      intro B h
      have e : B = B.take 8 ++ B.drop 8 := (List.take_append_drop 8 B).symm
      have h8 : (B.take 8).length = 8 := by simp; omega
      rw [e, bytesOf_append_of_length _ _ h8, List.length_cons, ih _ (by simp; omega)]
  exact key _ B rfl

/-- The whole bytes of a string: their number of bits. -/
theorem wholeBytes_length (B : Bits) : (wholeBytes B).length = 8 * (B.length / 8) := by
  simp [wholeBytes]; omega

/-- A whole number of bytes is its own whole-byte part. -/
theorem wholeBytes_eq_self (B : Bits) (h : B.length % 8 = 0) : wholeBytes B = B := by
  rw [wholeBytes, List.take_of_length_le]
  omega

/-- Padding brings a length to a byte boundary, with fewer than eight bits. -/
theorem padBits_spec (n : Nat) : (n + padBits n) % 8 = 0 ∧ padBits n < 8 := by
  unfold padBits
  omega

/-- `MemRead` reads a value of the width asked for, or less at the end of the buffer. -/
theorem memRead_lt (B : Bits) (pos n : Nat) : memRead B pos n < 2 ^ n := by
  refine Nat.lt_of_lt_of_le (uint_lt _) (Nat.pow_le_pow_right (by omega) ?_)
  simp [slice]

end Sys2Proof.Machine
end

