-- ==== Sys2Proof/Laws/Frm.lean ====
section
/-! SUPPORT. The laws of the framer's helpers: what FlushLine, PutLine and SyncTimeout leave and emit (R202 to R204), the
classes of a byte (R98), and the outcomes of a complete frame (R216). -/

namespace Sys2Proof.Machine

/-! ## The console line and the timeout enable -/

@[simp] theorem flushLine_st (x : Acc Frm) : (flushLine x).st = { x.st with line := [], lineAge := 0 } := by
  unfold flushLine
  split <;> rfl

@[simp] theorem flushLine_ev (x : Acc Frm) :
    (flushLine x).ev = x.ev ++ if x.st.line = [] then [] else [.consoleLine x.st.line] := by
  unfold flushLine
  split <;> simp

@[simp] theorem putLine_st (P : Config.Params) (b : Byte) (x : Acc Frm) :
    (putLine P b x).st =
      { x.st with line := (if x.st.line.length = P.lineMax then [] else x.st.line) ++ [b], lineAge := 0 } := by
  unfold putLine
  split <;> simp

@[simp] theorem putLine_ev (P : Config.Params) (b : Byte) (x : Acc Frm) :
    (putLine P b x).ev =
      x.ev ++ if x.st.line.length = P.lineMax ∧ x.st.line ≠ [] then [.consoleLine x.st.line] else [] := by
  unfold putLine
  split
  · rename_i h
    by_cases hl : x.st.line = []
    · simp [hl]
    · simp [hl, h]
  · rename_i h
    simp [h]

@[simp] theorem syncTimeout_st (x : Acc Frm) : (syncTimeout x).st = { x.st with tmoEn := x.st.wantTimeout } := by
  unfold syncTimeout
  split
  · rename_i h
    rw [h]
  · rfl

@[simp] theorem syncTimeout_ev (x : Acc Frm) :
    (syncTimeout x).ev =
      x.ev ++ if x.st.wantTimeout = x.st.tmoEn then [] else [.setTimeout x.st.wantTimeout] := by
  unfold syncTimeout
  split <;> simp

/-- The timeout is wanted exactly while the framer is not quiescent (R204). -/
theorem wantTimeout_eq_false_iff (f : Frm) : f.wantTimeout = false ↔ f.s = .idle ∧ f.line = [] := by
  simp [Frm.wantTimeout, Frm.quiescent]

/-! ## The classes of a byte -/

@[simp] theorem classify_ack (P : Config.Params) : classify P ackByte = .ack := rfl

/-- What the marker table answers is a marker. -/
theorem markerOf_some (P : Config.Params) (b : Byte) (p : Fin 4) (h : markerOf P b = some p) : P.marker p = b := by
  unfold markerOf at h
  split at h
  · cases h; assumption
  · split at h
    · cases h; assumption
    · split at h
      · cases h; assumption
      · split at h
        · cases h; assumption
        · cases h

/-- What the marker table does not know is no marker. -/
theorem markerOf_none (P : Config.Params) (b : Byte) (h : markerOf P b = none) (p : Fin 4) : P.marker p ≠ b := by
  unfold markerOf at h
  repeat' (first | (split at h; · cases h))
  match p with
  | 0 => assumption
  | 1 => assumption
  | 2 => assumption
  | 3 => assumption

/-- At legal parameters every marker byte is classified as the marker of its own priority (R98). -/
theorem classify_marker (P : Config.Params) (hP : LegalParams P) (p : Fin 4) :
    classify P (P.marker p) = .mark p := by
  have hm : markerOf P (P.marker p) = some p := by
    cases h : markerOf P (P.marker p) with
    | none => exact absurd rfl (markerOf_none P _ h p)
    | some q => rw [hP.marker_distinct q p (markerOf_some P _ q h)]
  simp [classify, (hP.marker_plain p).1, hm]

/-- Everything the classification can answer, with the condition of its row in R98. -/
theorem classify_cases (P : Config.Params) (b : Byte) :
    (b = ackByte ∧ classify P b = .ack) ∨
      (∃ p, b ≠ ackByte ∧ P.marker p = b ∧ classify P b = .mark p) ∨
      (b ≠ ackByte ∧ (∀ p, P.marker p ≠ b) ∧ 0xC0 ≤ b.toNat ∧ classify P b = .lead (runLength b)) ∨
      (b ≠ ackByte ∧ (∀ p, P.marker p ≠ b) ∧ b.toNat < 0xC0 ∧ (b = 0x0A#8 ∨ b = 0x0D#8) ∧ classify P b = .eol) ∨
      (b ≠ ackByte ∧ (∀ p, P.marker p ≠ b) ∧ b.toNat < 0xC0 ∧ b ≠ 0x0A#8 ∧ b ≠ 0x0D#8 ∧ classify P b = .text) := by
  by_cases ha : b = ackByte
  · exact .inl ⟨ha, by simp [ha]⟩
  · cases hm : markerOf P b with
    | some p => exact .inr (.inl ⟨p, ha, markerOf_some P b p hm, by simp [classify, ha, hm]⟩)
    | none =>
      have hn := markerOf_none P b hm
      by_cases hl : 0xC0 ≤ b.toNat
      · exact .inr (.inr (.inl ⟨ha, hn, hl, by simp [classify, ha, hm, hl]⟩))
      · by_cases he : b = 0x0A#8 ∨ b = 0x0D#8
        · exact .inr (.inr (.inr (.inl ⟨ha, hn, by omega, he, by simp [classify, ha, hm, hl, he]⟩)))
        · exact .inr (.inr (.inr (.inr
            ⟨ha, hn, by omega, fun h => he (.inl h), fun h => he (.inr h), by simp [classify, ha, hm, hl, he]⟩)))

/-- The run length of a lead byte is 1 to 7 (R98, R306). -/
theorem runLength_range (b : Byte) (h : 0xC0 ≤ b.toNat) : 1 ≤ runLength b ∧ runLength b ≤ 7 := by
  have key : ∀ b : Byte, 0xC0 ≤ b.toNat → 1 ≤ runLength b ∧ runLength b ≤ 7 := by decide
  exact key b h

/-! ## The receive states -/

@[simp] theorem enterBody_st (P : Config.Params) (x : Acc Frm) :
    (enterBody P x).st = { x.st with crc := P.crcInit, s := if x.st.lenIn = 0 then .crc1 else .data } := rfl

@[simp] theorem enterBody_ev (P : Config.Params) (x : Acc Frm) : (enterBody P x).ev = x.ev := rfl

/-- Everything the first length byte can lead to (R211). -/
theorem rxLen_cases (P : Config.Params) (b : Byte) (x : Acc Frm) :
    (rxLen P b x).ev = x.ev ∧
      ((b.toNat < 128 ∧
          (rxLen P b x).st =
            { x.st with lenIn := b.toNat, crc := P.crcInit, s := if b.toNat = 0 then .crc1 else .data }) ∨
        (128 ≤ b.toNat ∧ (rxLen P b x).st = { x.st with lenIn := (b.toNat - 128) * 256, s := .len2 })) := by
  unfold rxLen
  by_cases h : b.toNat < 128
  · have hm : b.msb = false := by rw [BitVec.msb_eq_decide]; simp; omega
    simp only [hm]
    exact ⟨rfl, .inl ⟨h, rfl⟩⟩
  · have hm : b.msb = true := by rw [BitVec.msb_eq_decide]; simp; omega
    have hb := b.isLt
    have hr : b.toNat % 128 = b.toNat - 128 := by omega
    simp only [hm]
    refine ⟨rfl, .inr ⟨by omega, ?_⟩⟩
    rw [← hr]
    rfl

@[simp] theorem rxLen2_st (P : Config.Params) (b : Byte) (x : Acc Frm) :
    (rxLen2 P b x).st =
      { x.st with
        lenIn := x.st.lenIn ||| b.toNat
        crc := P.crcInit
        s := if x.st.lenIn ||| b.toNat = 0 then .crc1 else .data } := rfl

@[simp] theorem rxLen2_ev (P : Config.Params) (b : Byte) (x : Acc Frm) : (rxLen2 P b x).ev = x.ev := rfl

@[simp] theorem rxData_st (P : Config.Params) (b : Byte) (x : Acc Frm) :
    (rxData P b x).st =
      { x.st with
        crc := P.crcStep x.st.crc b
        mIn := x.st.mIn.append (byteBits b)
        lenIn := x.st.lenIn - 1
        s := if x.st.lenIn - 1 = 0 then .crc1 else x.st.s } := rfl

@[simp] theorem rxData_ev (P : Config.Params) (b : Byte) (x : Acc Frm) : (rxData P b x).ev = x.ev := rfl

@[simp] theorem rxCrc1_st (P : Config.Params) (b : Byte) (x : Acc Frm) :
    (rxCrc1 P b x).st = { x.st with res := P.crcFin x.st.crc ^^^ (b.zeroExtend 16 <<< 8), s := .crc2 } := rfl

@[simp] theorem rxCrc1_ev (P : Config.Params) (b : Byte) (x : Acc Frm) : (rxCrc1 P b x).ev = x.ev := rfl

@[simp] theorem rxUtf8_st (P : Config.Params) (b : Byte) (x : Acc Frm) :
    (rxUtf8 P b x).st =
      { (putLine P b x).st with
        utf8Rem := x.st.utf8Rem - 1
        s := if x.st.utf8Rem - 1 = 0 then .idle else x.st.s } := by
  simp [rxUtf8]

@[simp] theorem rxUtf8_ev (P : Config.Params) (b : Byte) (x : Acc Frm) :
    (rxUtf8 P b x).ev = (putLine P b x).ev := rfl

/-! ## The outcomes of a complete frame -/

/-- Everything a complete frame can lead to, in the order of the tests of R216. -/
theorem frameOutcome_cases (x : Acc Frm) :
    (x.st.res ≠ 0 ∧ frameOutcome x = x.raise .crc) ∨
      (x.st.res = 0 ∧ x.st.mIn.code = none ∧ frameOutcome x = x.raise .header) ∨
      (x.st.res = 0 ∧ x.st.mIn.code.isSome = true ∧ x.st.holdValid = true ∧ frameOutcome x = x.raise .overflow) ∨
      (x.st.res = 0 ∧ x.st.mIn.code.isSome = true ∧ x.st.holdValid = false ∧ frameOutcome x = acceptFrame x) := by
  by_cases hr : x.st.res = 0
  · cases hc : x.st.mIn.code with
    | none => exact .inr (.inl ⟨hr, rfl, by simp [frameOutcome, hr, Msg.headerIncomplete, hc]⟩)
    | some c =>
      cases hv : x.st.holdValid with
      | true => exact .inr (.inr (.inl ⟨hr, rfl, rfl, by simp [frameOutcome, hr, Msg.headerIncomplete, hc, hv]⟩))
      | false => exact .inr (.inr (.inr ⟨hr, rfl, rfl, by simp [frameOutcome, hr, Msg.headerIncomplete, hc, hv]⟩))
  · exact .inl ⟨hr, if_pos hr⟩

end Sys2Proof.Machine
end

