-- ==== Sys2Proof/Laws/Header.lean ====
section
/-! SUPPORT. The laws of the message header: widths (R22, R90 to R92) and what the header-detecting append can do
(R176). -/

namespace Sys2Proof.Machine

/-- The width of an address field is 3 or 8 bits. -/
theorem addrW_cases (a : Int) : (a < 0 ∧ addrW a = 3) ∨ (0 ≤ a ∧ addrW a = 8) := by
  unfold addrW
  split
  · exact .inl ⟨by assumption, rfl⟩
  · exact .inr ⟨by omega, rfl⟩

/-- A header is 8, 16 or 24 bits (R22, R90): by the signs of the addresses, with the width of the code. -/
theorem hdrBits_cases (dst src : Int) :
    (dst < 0 ∧ src < 0 ∧ codeW dst src = 2 ∧ hdrBits dst src = 8) ∨
      (0 ≤ dst ∧ 0 ≤ src ∧ codeW dst src = 8 ∧ hdrBits dst src = 24) ∨
      (dst < 0 ∧ 0 ≤ src ∧ codeW dst src = 5 ∧ hdrBits dst src = 16) ∨
      (0 ≤ dst ∧ src < 0 ∧ codeW dst src = 5 ∧ hdrBits dst src = 16) := by
  rcases addrW_cases dst with ⟨hd, hdw⟩ | ⟨hd, hdw⟩ <;> rcases addrW_cases src with ⟨hs, hsw⟩ | ⟨hs, hsw⟩
  · exact .inl ⟨hd, hs, by simp [codeW, hd, hs], by simp [hdrBits, hdw, hsw, codeW, hd, hs]⟩
  · have hn : ¬ src < 0 := by omega
    have hm : ¬ 0 ≤ dst := by omega
    exact .inr (.inr (.inl ⟨hd, hs, by simp [codeW, hn, hm], by simp [hdrBits, hdw, hsw, codeW, hn, hm]⟩))
  · have hn : ¬ dst < 0 := by omega
    have hm : ¬ 0 ≤ src := by omega
    exact .inr (.inr (.inr ⟨hd, hs, by simp [codeW, hn, hm], by simp [hdrBits, hdw, hsw, codeW, hn, hm]⟩))
  · have hn : ¬ dst < 0 := by omega
    exact .inr (.inl ⟨hd, hs, by simp [codeW, hn, hd, hs], by simp [hdrBits, hdw, hsw, codeW, hn, hd, hs]⟩)

/-- A header is a whole number of bytes (R22). -/
theorem hdrBits_mod (dst src : Int) : hdrBits dst src % 8 = 0 ∧ 8 ≤ hdrBits dst src ∧ hdrBits dst src ≤ 24 := by
  rcases hdrBits_cases dst src with ⟨-, -, -, h⟩ | ⟨-, -, -, h⟩ | ⟨-, -, -, h⟩ | ⟨-, -, -, h⟩ <;> rw [h] <;> decide

@[simp] theorem encAddr_length (a : Int) : (encAddr a).length = addrW a := by
  unfold encAddr addrW
  split <;> simp

/-- The length of an encoded header is `hdr_bits` (R152). -/
@[simp] theorem encHeader_length (h : Hdr) : (encHeader h).length = hdrBits h.dst h.src := by
  simp [encHeader, hdrBits, Nat.add_assoc]

/-- The stream's length is `T(m)` (R154). -/
@[simp] theorem streamOf_length (h : Hdr) (m : Msg) : (streamOf h m).length = streamLen h m := by
  simp [streamOf, streamLen]

/-- Once the header is complete the append is plain concatenation (R176). -/
theorem append_of_code (m : Msg) (B : Bits) (c : Nat) (h : m.code = some c) :
    m.append B = { m with buf := m.buf ++ B } := by simp [Msg.append, h]

/-- Everything the append can do to a message: it adds bits at the end of the buffer, or it splits a header off. -/
theorem append_cases (m : Msg) (B : Bits) :
    m.append B = { m with buf := m.buf ++ B } ∨
      ∃ h rest, m.code = none ∧ headerSplit (m.buf ++ B) = some (h, rest) ∧
        m.append B = { m with dst := some h.dst, src := some h.src, code := some h.code, buf := rest } := by
  unfold Msg.append
  split
  · exact .inl rfl
  · split
    · exact .inl rfl
    · exact .inr ⟨_, _, by assumption, by assumption, rfl⟩

/-- The priority and the cursor are never touched by the append. -/
@[simp] theorem append_prio (m : Msg) (B : Bits) : (m.append B).prio = m.prio := by
  rcases append_cases m B with h | ⟨_, _, _, _, h⟩ <;> rw [h]

@[simp] theorem append_xpos (m : Msg) (B : Bits) : (m.append B).xpos = m.xpos := by
  rcases append_cases m B with h | ⟨_, _, _, _, h⟩ <;> rw [h]

/-- What a header split leaves: all the bits after the header's 8, 16 or 24. -/
theorem headerSplit_rest (b : Bits) (h : Hdr) (rest : Bits) (hs : headerSplit b = some (h, rest)) :
    ∃ n, (n = 8 ∨ n = 16 ∨ n = 24) ∧ n ≤ b.length ∧ rest = b.drop n := by
  unfold headerSplit at hs
  split at hs
  · cases hs
  · rename_i t1 _
    split at hs
    · cases hs
    · rename_i t2 _
      split at hs
      · rename_i hle
        cases hs
        refine ⟨tagHdrBits t1 t2, ?_, hle, rfl⟩
        cases t1 <;> cases t2 <;> simp [tagHdrBits]
      · cases hs

end Sys2Proof.Machine
end

