-- ==== Sys2Proof/Laws/Operands.lean ====
section
/-! SUPPORT. The laws of the operand forms: the register operand (R101), the header a command needs (R153), the chunk on
the way out (R99, R172) and on the way in (R177). One lemma each says what the operation can do. -/

namespace Sys2Proof.Machine

/-! ## The register operand -/

@[simp] theorem withMsg_of_some (s : State) (r : Nat) (f : Msg → State) (m : Msg) (h : s.msg? r = some m) :
    s.withMsg r f = f m := by simp [State.withMsg, h]

@[simp] theorem withMsg_of_none (s : State) (r : Nat) (f : Msg → State) (h : s.msg? r = none) :
    s.withMsg r f = s.refuse .range := by simp [State.withMsg, h]

/-- A register number at or beyond the length of the register file names no register. -/
theorem msg_none_of_le (s : State) (r : Nat) (h : s.msgs.length ≤ r) : s.msg? r = none := (msg_eq_none_iff s r).mpr h

/-- Everything `withMsg` can do. -/
theorem withMsg_cases (s : State) (r : Nat) (f : Msg → State) :
    (s.msgs.length ≤ r ∧ s.withMsg r f = s.refuse .range) ∨
      (∃ m, r < s.msgs.length ∧ s.msg? r = some m ∧ s.withMsg r f = f m) := by
  cases h : s.msg? r with
  | none => exact .inl ⟨(msg_eq_none_iff s r).mp h, by simp [h]⟩
  | some m => exact .inr ⟨m, by rw [← msg_isSome_iff, h]; rfl, rfl, by simp [h]⟩

/-! ## The header -/

/-- `needHeader` answers a header exactly when all three fields are present and the code fits (R153). -/
theorem needHeader_ok_iff (m : Msg) (h : Hdr) :
    needHeader m = .ok h ↔
      m.dst = some h.dst ∧ m.src = some h.src ∧ m.code = some h.code ∧ h.code < 2 ^ codeW h.dst h.src := by
  obtain ⟨hd, hs, hc⟩ := h
  simp only [needHeader, Msg.hdr?]
  cases m.dst <;> cases m.src <;> cases m.code <;> simp
  rename_i d sr c
  by_cases hlt : c < 2 ^ codeW d sr
  · simp only [hlt, if_true, Except.ok.injEq, Hdr.mk.injEq]
    constructor
    · rintro ⟨rfl, rfl, rfl⟩
      exact ⟨rfl, rfl, rfl, hlt⟩
    · rintro ⟨rfl, rfl, rfl, -⟩
      exact ⟨rfl, rfl, rfl⟩
  · simp only [hlt, if_false, reduceCtorEq, false_iff]
    rintro ⟨rfl, rfl, rfl, h⟩
    exact hlt h

/-- `needHeader` refuses with STATE or with RANGE (R153). -/
theorem needHeader_error (m : Msg) (st : Status) (h : needHeader m = .error st) : st = .state ∨ st = .range := by
  unfold needHeader at h
  split at h
  · left
    cases h
    rfl
  · split at h
    · cases h
    · right
      cases h
      rfl

@[simp] theorem withHeader_of_ok (s : State) (m : Msg) (f : Hdr → State) (h : Hdr) (hh : needHeader m = .ok h) :
    s.withHeader m f = f h := by simp [State.withHeader, hh]

@[simp] theorem withHeader_of_error (s : State) (m : Msg) (f : Hdr → State) (st : Status)
    (hh : needHeader m = .error st) : s.withHeader m f = s.refuse st := by simp [State.withHeader, hh]

/-- Everything `withHeader` can do. -/
theorem withHeader_cases (s : State) (m : Msg) (f : Hdr → State) :
    (∃ st, (st = .state ∨ st = .range) ∧ s.withHeader m f = s.refuse st) ∨
      (∃ h, needHeader m = .ok h ∧ s.withHeader m f = f h) := by
  cases hn : needHeader m with
  | error st => exact .inl ⟨st, needHeader_error m st hn, by simp [hn]⟩
  | ok h => exact .inr ⟨h, rfl, by simp [hn]⟩

/-! ## Chunks -/

/-- A full chunk: its value is below `2 ^ fb` and the cursor advances by the width (R99, R172). -/
theorem chunkAt_full (S : Bits) (pos k fb : Nat) (h : fb ≤ k) :
    chunkAt S pos k fb = (memRead S pos fb, pos + fb) := by simp [chunkAt, h]

/-- A short chunk carries the flag and the bits that remain (R99, R172). -/
theorem chunkAt_short (S : Bits) (pos k fb : Nat) (h : k + 8 ≤ fb) :
    chunkAt S pos k fb = (2 ^ fb + memRead S pos k, S.length) := by
  have h1 : ¬ fb ≤ k := by omega
  have h2 : 8 ≤ fb - k := by omega
  simp [chunkAt, h1, h2]

/-- A padded chunk carries the bits that remain and zeros after them (R99, R172). -/
theorem chunkAt_padded (S : Bits) (pos k fb : Nat) (h1 : k < fb) (h2 : fb < k + 8) :
    chunkAt S pos k fb = (memRead S pos k * 2 ^ (fb - k), S.length) := by
  have h3 : ¬ fb ≤ k := by omega
  have h4 : ¬ 8 ≤ fb - k := by omega
  simp [chunkAt, h3, h4]

/-- A chunk without the flag is accepted whole (R177). -/
theorem chunkBits_unflagged (len fb value : Nat) (h : value < 2 ^ fb) : chunkBits len fb value = .ok (fb, value) := by
  have h1 : ¬ 2 ^ (fb + 1) ≤ value := by rw [Nat.pow_succ]; omega
  have h2 : continuationFlag fb value = false := Nat.testBit_lt_two_pow h
  simp [chunkBits, h1, h2]

/-- A flagged chunk that fits the missing bits is accepted with them (R177). -/
theorem chunkBits_flagged (len fb low : Nat) (hw : missingBits len + 8 ≤ fb) (hl : low < 2 ^ missingBits len) :
    chunkBits len fb (2 ^ fb + low) = .ok (missingBits len, low) := by
  have hle : 2 ^ missingBits len ≤ 2 ^ fb := Nat.pow_le_pow_right (by omega) (by omega)
  have h1 : ¬ 2 ^ (fb + 1) ≤ 2 ^ fb + low := by rw [Nat.pow_succ]; omega
  have h2 : continuationFlag fb (2 ^ fb + low) = true := by
    have hz : low.testBit fb = false := Nat.testBit_lt_two_pow (by omega)
    simp [continuationFlag, Nat.testBit_two_pow_add_eq, hz]
  have h3 : (2 ^ fb + low) % 2 ^ fb = low := by
    rw [Nat.add_mod_left, Nat.mod_eq_of_lt (by omega)]
  have h4 : ¬ (fb < missingBits len + 8 ∨ 2 ^ missingBits len ≤ low) := by omega
  simp [chunkBits, h1, h2, h3, h4]

/-- What an accepted chunk carries: `n` bits of value `low`, without loss (R177). -/
theorem chunkBits_ok (len fb value n low : Nat) (h : chunkBits len fb value = .ok (n, low)) :
    low < 2 ^ n ∧ value < 2 ^ (fb + 1) ∧ (n = fb ∨ (n = missingBits len ∧ n + 8 ≤ fb)) := by
  unfold chunkBits at h
  split at h
  · cases h
  · rename_i hlt
    split at h
    · split at h
      · cases h
      · rename_i hn
        cases h
        exact ⟨by omega, by omega, .inr ⟨rfl, by omega⟩⟩
    · rename_i hf
      cases h
      refine ⟨?_, by omega, .inl rfl⟩
      by_contra hge
      apply hf
      have : value = 2 ^ fb + (value - 2 ^ fb) := by omega
      have hz : (value - 2 ^ fb).testBit fb = false := Nat.testBit_lt_two_pow (by rw [Nat.pow_succ] at hlt; omega)
      rw [continuationFlag, this, Nat.testBit_two_pow_add_eq, hz]
      rfl

/-- A refused chunk is MALFORMED (R177). -/
theorem chunkBits_error (len fb value : Nat) (st : Status) (h : chunkBits len fb value = .error st) :
    st = .malformed := by
  unfold chunkBits at h
  split at h
  · cases h
    rfl
  · split at h
    · split at h
      · cases h
        rfl
      · cases h
    · cases h

/-- The missing bits bring a length to a byte boundary: 1 to 8 of them (R177). -/
theorem missingBits_spec (len : Nat) : 1 ≤ missingBits len ∧ missingBits len ≤ 8 ∧ (len + missingBits len) % 8 = 0 := by
  unfold missingBits
  omega

end Sys2Proof.Machine
end

