-- ==== Sys2Proof/Laws/PerInstr.lean ====
section
/-! SUPPORT. Statements about every instruction, proved for each constructor. EncodeFits: the immediates of a well-formed
instruction fit the 24 bits of `imm`, and its word carries its opcode (R100, R101). -/

namespace Sys2Proof.Laws.EncodeFits

/-- A well-formed instruction's immediates fit `imm`, and its word carries the opcode of its row. -/
def Statement (i : Instr) : Prop :=
  i.wellFormed = true → i.imm < 2 ^ 24 ∧ (encode i).toNat = i.opcode * 2 ^ 24 + i.imm ∧ opOf (encode i) = i.opcode

/-- An address field is one byte. -/
theorem unsext8_lt (a : Int) : unsext8 a < 256 := by unfold unsext8; omega

/-- It is enough that the immediates fit and that the opcode is one byte. -/
theorem of_imm_lt (i : Instr) (ho : i.opcode < 256) (h : i.wellFormed = true → i.imm < 2 ^ 24) : Statement i := by
  intro hw
  have hi := h hw
  have hn : (encode i).toNat = i.opcode * 2 ^ 24 + i.imm := by
    rw [encode, BitVec.toNat_ofNat, Nat.mod_eq_of_lt]
    omega
  refine ⟨hi, hn, ?_⟩
  rw [opOf, field, hn]
  omega

theorem sysReset : Statement .sysReset :=
  of_imm_lt _ (by decide) fun _ => by decide

theorem crcReset : Statement .crcReset :=
  of_imm_lt _ (by decide) fun _ => by decide

theorem crcUpdate (byte : Byte) : Statement (.crcUpdate byte) :=
  of_imm_lt _ (by simp [Instr.opcode]) fun _ => by have := byte.isLt; simp only [Instr.imm]; omega

theorem crcFinish : Statement .crcFinish :=
  of_imm_lt _ (by decide) fun _ => by decide

theorem msgClear (r : Nat) : Statement (.msgClear r) :=
  of_imm_lt _ (by simp [Instr.opcode]) fun h => by
  simp [Instr.wellFormed] at h; simp only [Instr.imm]; omega

theorem msgSetaddr (r : Nat) (dst : Int) (src : Int) : Statement (.msgSetaddr r dst src) :=
  of_imm_lt _ (by simp [Instr.opcode]) fun h => by
  simp [Instr.wellFormed] at h; have := unsext8_lt dst; have := unsext8_lt src; simp only [Instr.imm]; omega

theorem msgSetcode (r : Nat) (code : Nat) : Statement (.msgSetcode r code) :=
  of_imm_lt _ (by simp [Instr.opcode]) fun h => by
  simp [Instr.wellFormed] at h; simp only [Instr.imm]; omega

theorem msgSetprio (r : Nat) (prio : Fin 4) : Statement (.msgSetprio r prio) :=
  of_imm_lt _ (by simp [Instr.opcode]) fun h => by
  simp [Instr.wellFormed] at h; have := prio.isLt; simp only [Instr.imm]; omega

theorem msgAdddata (r : Nat) : Statement (.msgAdddata r) :=
  of_imm_lt _ (by simp [Instr.opcode]) fun h => by
  simp [Instr.wellFormed] at h; simp only [Instr.imm]; omega

theorem msgHeader (r : Nat) : Statement (.msgHeader r) :=
  of_imm_lt _ (by simp [Instr.opcode]) fun h => by
  simp [Instr.wellFormed] at h; simp only [Instr.imm]; omega

theorem msgHdrlen (r : Nat) : Statement (.msgHdrlen r) :=
  of_imm_lt _ (by simp [Instr.opcode]) fun h => by
  simp [Instr.wellFormed] at h; simp only [Instr.imm]; omega

theorem msgFirstbits (r : Nat) (n : Nat) : Statement (.msgFirstbits r n) :=
  of_imm_lt _ (by simp [Instr.opcode]) fun h => by
  simp [Instr.wellFormed] at h; simp only [Instr.imm]; omega

theorem msgGet (r : Nat) : Statement (.msgGet r) :=
  of_imm_lt _ (by simp [Instr.opcode]) fun h => by
  simp [Instr.wellFormed] at h; simp only [Instr.imm]; omega

theorem msgXstart (r : Nat) : Statement (.msgXstart r) :=
  of_imm_lt _ (by simp [Instr.opcode]) fun h => by
  simp [Instr.wellFormed] at h; simp only [Instr.imm]; omega

theorem msgXchunk (r : Nat) (frameBits : Nat) : Statement (.msgXchunk r frameBits) :=
  of_imm_lt _ (by simp [Instr.opcode]) fun h => by
  simp [Instr.wellFormed] at h; simp only [Instr.imm]; omega

theorem msgAstart (r : Nat) : Statement (.msgAstart r) :=
  of_imm_lt _ (by simp [Instr.opcode]) fun h => by
  simp [Instr.wellFormed] at h; simp only [Instr.imm]; omega

theorem msgAchunk (r : Nat) (frameBits : Nat) (value : Nat) : Statement (.msgAchunk r frameBits value) :=
  of_imm_lt _ (by simp [Instr.opcode]) fun h => by
  simp [Instr.wellFormed] at h; simp only [Instr.imm]; omega

theorem msgAend (r : Nat) : Statement (.msgAend r) :=
  of_imm_lt _ (by simp [Instr.opcode]) fun h => by
  simp [Instr.wellFormed] at h; simp only [Instr.imm]; omega

theorem frmRxbyte (byte : Byte) : Statement (.frmRxbyte byte) :=
  of_imm_lt _ (by simp [Instr.opcode]) fun _ => by have := byte.isLt; simp only [Instr.imm]; omega

theorem frmTimeout : Statement .frmTimeout :=
  of_imm_lt _ (by decide) fun _ => by decide

theorem frmSend (r : Nat) : Statement (.frmSend r) :=
  of_imm_lt _ (by simp [Instr.opcode]) fun h => by
  simp [Instr.wellFormed] at h; simp only [Instr.imm]; omega

theorem frmRelease : Statement .frmRelease :=
  of_imm_lt _ (by decide) fun _ => by decide

theorem arqOpen (window : Nat) (timeout : Nat) : Statement (.arqOpen window timeout) :=
  of_imm_lt _ (by simp [Instr.opcode]) fun h => by
  simp [Instr.wellFormed] at h; simp only [Instr.imm]; omega

theorem arqSend (handle : U16) : Statement (.arqSend handle) :=
  of_imm_lt _ (by simp [Instr.opcode]) fun _ => by have := handle.isLt; simp only [Instr.imm]; omega

theorem arqRecv : Statement .arqRecv :=
  of_imm_lt _ (by decide) fun _ => by decide

theorem arqTick : Statement .arqTick :=
  of_imm_lt _ (by decide) fun _ => by decide

theorem arqClose : Statement .arqClose :=
  of_imm_lt _ (by decide) fun _ => by decide

theorem arqReset (hasErr : Bool) : Statement (.arqReset hasErr) :=
  of_imm_lt _ (by simp [Instr.opcode]) fun _ => by cases hasErr <;> decide

theorem arqLowerfail : Statement .arqLowerfail :=
  of_imm_lt _ (by decide) fun _ => by decide

theorem arqNext : Statement .arqNext :=
  of_imm_lt _ (by decide) fun _ => by decide

end Sys2Proof.Laws.EncodeFits
end

