-- ==== Sys2Proof/Laws/Step.lean ====
section
/-! SUPPORT. The laws of one step: exec and step are the instance of the parametric block at the default parameters, and
what fetching an issued command gives. -/

namespace Sys2Proof.Machine

/-- exec is the parametric block at the default parameters. -/
theorem exec_eq_execWith (i : Instr) (s : State) : exec i s = .next (execWith defaultParams i s) := by cases i <;> rfl

/-- step is the parametric step at the default parameters. -/
theorem step_eq_stepWith (s : State) : step s = .next (stepWith defaultParams s) := by
  unfold step stepWith
  cases s.fetch with
  | none => rfl
  | some p =>
    obtain ⟨w, t⟩ := p
    dsimp only
    cases decode w with
    | error e => rfl
    | ok i => exact exec_eq_execWith i t

@[simp] theorem fetch_of_nil (s : State) (h : s.port.issued = []) : s.fetch = none := by simp [State.fetch, h]

@[simp] theorem fetch_of_cons (s : State) (c : Command) (rest : List Command) (h : s.port.issued = c :: rest) :
    s.fetch = some (c.word, { s with port := { s.port with issued := rest, operands := c.operands } }) := by
  simp [State.fetch, h]

/-- Everything a step can do. -/
theorem stepWith_cases (P : Config.Params) (s : State) :
    (s.port.issued = [] ∧ stepWith P s = s) ∨
      (∃ c rest, s.port.issued = c :: rest ∧
        ((∃ e, decode c.word = .error e ∧
            stepWith P s =
              ({ s with port := { s.port with issued := rest, operands := c.operands } } : State).refuse .illegal) ∨
          (∃ i, decode c.word = .ok i ∧
            stepWith P s =
              execWith P i { s with port := { s.port with issued := rest, operands := c.operands } }))) := by
  cases h : s.port.issued with
  | nil => exact .inl ⟨rfl, by simp [stepWith, h]⟩
  | cons c rest =>
    refine .inr ⟨c, rest, rfl, ?_⟩
    cases hd : decode c.word with
    | error e => exact .inl ⟨e, rfl, by simp [stepWith, State.fetch, h, hd, State.illegal]⟩
    | ok i => exact .inr ⟨i, rfl, by simp [stepWith, State.fetch, h, hd]⟩

/-- The word that `withFetchWord` places is the next one fetched. -/
theorem fetch_withFetchWord (s : State) (nbits w : Nat) :
    (s.withFetchWord nbits w).fetch.map Prod.fst = some (BitVec.ofNat 32 (w % 2 ^ nbits)) := by
  cases h : s.port.issued <;> simp [State.fetch, State.withFetchWord, Port.overwriteWord, h]

/-- The default parameters are legal (R8). -/
theorem defaultParams_legal : LegalParams defaultParams where
  marker_distinct := by decide
  marker_plain := by decide
  stale_pos := by decide
  line_big := by decide
  chunk_width := by decide
  registers := by decide
  window_range := by decide
  timeout_range := by decide
  queue_pos := by
    intro n h
    cases h
    decide
  payload_pos := by
    intro n h
    cases h
  ack_in_time := fun t => Nat.div_le_self t 4

end Sys2Proof.Machine
end

