-- ==== Sys2Proof/Tests/Slice0.lean ====
section
/-! SUPPORT. Tests. The expected values come from 95_test_vectors.md and from the worked examples of the rules, or are
written out from the encoding tables of 30_encoding.md. The witnesses at the end show that the hypotheses of the
statements can be met. -/

namespace Sys2Proof.Tests.Slice0

open Sys2Proof Sys2Proof.Machine

/-! ## Ill-formed terms -/

theorem test_wf_register : (Instr.msgClear 4).wellFormed = false := by decide
theorem test_wf_register_setaddr : (Instr.msgSetaddr 4 0 0).wellFormed = false := by decide
theorem test_wf_dst_low : (Instr.msgSetaddr 0 (-129) 0).wellFormed = false := by decide
theorem test_wf_dst_high : (Instr.msgSetaddr 0 128 0).wellFormed = false := by decide
theorem test_wf_src_low : (Instr.msgSetaddr 0 0 (-129)).wellFormed = false := by decide
theorem test_wf_src_high : (Instr.msgSetaddr 0 0 128).wellFormed = false := by decide
theorem test_wf_code : (Instr.msgSetcode 0 256).wellFormed = false := by decide
theorem test_wf_register_setcode : (Instr.msgSetcode 4 0).wellFormed = false := by decide
theorem test_wf_register_setprio : (Instr.msgSetprio 4 0).wellFormed = false := by decide
theorem test_wf_firstbits : (Instr.msgFirstbits 0 524288).wellFormed = false := by decide
theorem test_wf_register_firstbits : (Instr.msgFirstbits 4 0).wellFormed = false := by decide
theorem test_wf_xchunk_width : (Instr.msgXchunk 0 32).wellFormed = false := by decide
theorem test_wf_register_xchunk : (Instr.msgXchunk 4 8).wellFormed = false := by decide
theorem test_wf_achunk_width : (Instr.msgAchunk 0 32 0).wellFormed = false := by decide
theorem test_wf_achunk_value : (Instr.msgAchunk 0 8 131072).wellFormed = false := by decide
theorem test_wf_register_achunk : (Instr.msgAchunk 4 8 0).wellFormed = false := by decide
theorem test_wf_register_others :
    [Instr.msgAdddata 4, .msgHeader 4, .msgHdrlen 4, .msgGet 4, .msgXstart 4, .msgAstart 4, .msgAend 4,
      .frmSend 4].all (fun i => !i.wellFormed) = true := by decide
theorem test_wf_window : (Instr.arqOpen 256 1).wellFormed = false := by decide
theorem test_wf_timeout : (Instr.arqOpen 8 65536).wellFormed = false := by decide

/-! ## Decoding, one word for each command (R100, R101) -/

theorem test_decode_sys_crc :
    decode 0x01000000#32 = .ok .sysReset ∧ decode 0x10000000#32 = .ok .crcReset ∧
      decode 0x110000B9#32 = .ok (.crcUpdate 0xB9#8) ∧ decode 0x12000000#32 = .ok .crcFinish := by decide
theorem test_decode_msg_build :
    decode 0x20400000#32 = .ok (.msgClear 1) ∧ decode 0x2100FC05#32 = .ok (.msgSetaddr 0 (-4) 5) ∧
      decode 0x22400081#32 = .ok (.msgSetcode 1 0x81) ∧ decode 0x23400002#32 = .ok (.msgSetprio 1 2) ∧
      decode 0x24400000#32 = .ok (.msgAdddata 1) := by decide
theorem test_decode_msg_read :
    decode 0x25C00000#32 = .ok (.msgHeader 3) ∧ decode 0x26800000#32 = .ok (.msgHdrlen 2) ∧
      decode 0x27400019#32 = .ok (.msgFirstbits 1 25) ∧ decode 0x28400000#32 = .ok (.msgGet 1) := by decide
theorem test_decode_msg_chunks :
    decode 0x29400000#32 = .ok (.msgXstart 1) ∧ decode 0x2A000011#32 = .ok (.msgXchunk 0 17) ∧
      decode 0x2B400000#32 = .ok (.msgAstart 1) ∧ decode 0x2C500200#32 = .ok (.msgAchunk 1 8 0x200) ∧
      decode 0x2C610006#32 = .ok (.msgAchunk 1 16 0x10006) ∧ decode 0x2D400000#32 = .ok (.msgAend 1) := by decide
theorem test_decode_frm :
    decode 0x30000006#32 = .ok (.frmRxbyte 6#8) ∧ decode 0x31000000#32 = .ok .frmTimeout ∧
      decode 0x32400000#32 = .ok (.frmSend 1) ∧ decode 0x33000000#32 = .ok .frmRelease := by decide
theorem test_decode_arq :
    decode 0x4008003C#32 = .ok (.arqOpen 8 60) ∧ decode 0x4080FFFF#32 = .ok (.arqOpen 128 65535) ∧
      decode 0x41000007#32 = .ok (.arqSend 7#16) ∧ decode 0x42000000#32 = .ok .arqRecv ∧
      decode 0x43000000#32 = .ok .arqTick ∧ decode 0x44000000#32 = .ok .arqClose := by decide
theorem test_decode_arq_rest :
    decode 0x45000000#32 = .ok (.arqReset false) ∧ decode 0x45000001#32 = .ok (.arqReset true) ∧
      decode 0x46000000#32 = .ok .arqLowerfail ∧ decode 0x47000000#32 = .ok .arqNext := by decide

/-- The reserved opcodes of part 2.4 of 95_test_vectors.md. -/
theorem test_decode_reserved :
    [0x00000000#32, 0x02000000#32, 0x13000000#32, 0x2E000000#32, 0x34000000#32, 0x48000000#32, 0xFF000000#32].all
      (fun w => decide (decode w = .error .reservedOpcode)) = true := by decide
/-- The unassigned bits of part 2.4 of 95_test_vectors.md. -/
theorem test_decode_unassigned :
    [0x01000001#32, 0x20000001#32, 0x11000100#32, 0x23000004#32, 0x2A000020#32, 0x30000106#32, 0x45000002#32].all
      (fun w => decide (decode w = .error .unassignedBit)) = true := by decide
theorem test_encode :
    encode (.msgSetaddr 0 (-4) 5) = 0x2100FC05#32 ∧ encode (.arqOpen 8 60) = 0x4008003C#32 ∧
      encode (.msgAchunk 1 17 0) = 0x2C620000#32 := by decide
theorem test_table_word : decodeTableWord 32 0x2A400010 = some (.msgXchunk 1 16) := by decide

/-! ## One step on a small state -/

/-- The state a command leads to; the given one where it does not answer. -/
def after (s : State) : Host.Outcome State Fault Refusal → State
  | .next t => t
  | _ => s

/-- The state a command leads to from `s`. -/
def run (i : Instr) (s : State) : State := after s (exec i s)

/-- What the command answers. -/
def result (i : Instr) (s : State) : Option (Status × Value) :=
  (run i s).port.answer.map fun a => (a.status, a.value)

/-- A message register of a state; EMPTY where there is none. -/
def reg (r : Nat) (s : State) : Msg := (s.msg? r).getD Msg.empty

/-- The reset state with a message in register 0. -/
def withM0 (m : Msg) : State := { State.reset with msgs := [m, Msg.empty] }

/-- A message by its fields. -/
def msg (dst src : Int) (code : Nat) (buf : Bits) : Msg :=
  { dst := some dst, src := some src, code := some code, buf := buf, prio := 0, xpos := none }

/-- The reset state with an operand record at the port. -/
def withOperands (o : Operands) (s : State) : State := { s with port := { s.port with operands := o } }

/-- The reset state with a framer. -/
def withFrm (f : Machine.Frm) : State := { State.reset with frm := f }

/-- The framer after reset, with console text in its line. -/
def idleFrm (line : Bytes) (age : Nat) : Machine.Frm :=
  { Machine.Frm.reset defaultParams with line := line, lineAge := age, tmoEn := !line.isEmpty }

/-- A framer inside a frame or a run. -/
def busyFrm (st : FrmState) : Machine.Frm := { Machine.Frm.reset defaultParams with s := st, tmoEn := true }

/-- The reset state with an ARQ session. -/
def withArq (a : Arq) : State := { State.reset with arq := a }

/-- An open session at level 0, window 8, timeout 60, nothing exchanged (the start of trace T3). -/
def openArq : Arq := { Arq.reset with phase := .opened, window := 8, timeout := 60 }

/-! ### SYS and CRC -/

theorem test_sysReset : run .sysReset { withM0 (msg 1 2 3 []) with crc := ⟨5#16⟩ } =
    { State.reset with port := ⟨[], {}, some ⟨.ok, .none, []⟩⟩ } := by decide
/-- Part 2.1: `crc_step(1234, ab) = 02f2`. -/
theorem test_crcUpdate : (run (.crcUpdate 0xAB#8) { State.reset with crc := ⟨0x1234#16⟩ }).crc.acc = 0x02F2#16 := by
  decide
theorem test_crcUpdate_top_bit : (run (.crcUpdate 0x00#8) { State.reset with crc := ⟨0x8000#16⟩ }).crc.acc = 0x9188#16 := by
  decide
theorem test_crcReset : (run .crcReset { State.reset with crc := ⟨0x58E5#16⟩ }).crc.acc = 0#16 := by decide
theorem test_crcFinish : result .crcFinish { State.reset with crc := ⟨0xFF5D#16⟩ } = some (.ok, .num 0xFF5D) := by decide

/-! ### MSG -/

theorem test_msgClear : (reg 0 (run (.msgClear 0) (withM0 (msg 1 2 3 [true])))) = Msg.empty := by decide
theorem test_msgClear_range : result (.msgClear 2) State.reset = some (.range, .none) := by decide
theorem test_msgSetaddr : (reg 0 (run (.msgSetaddr 0 127 127) State.reset)).dst = some 127 := by decide
theorem test_msgSetaddr_range : result (.msgSetaddr 0 (-5) 0) State.reset = some (.range, .none) := by decide
theorem test_msgSetcode_closes :
    (reg 0 (run (.msgSetcode 0 9) (withM0 { msg (-1) 5 9 [] with xpos := some 8 }))).xpos = none := by decide
theorem test_msgSetprio : (reg 1 (run (.msgSetprio 1 2) State.reset)).prio = 2 := by decide
/-- R164: `101` and `[FF]` give `10100000 11111111`. -/
theorem test_msgAdddata :
    (reg 0 (run (.msgAdddata 0) (withOperands { bytes := [0xFF#8] } (withM0 (msg 1 2 3 [true, false, true]))))).buf =
      [true, false, true, false, false, false, false, false, true, true, true, true, true, true, true, true] := by decide
/-- R165: `dst = 5`, `src = -3`, `code = 3` gives `00000101 10100011`. -/
theorem test_msgHeader :
    result (.msgHeader 0) (withM0 (msg 5 (-3) 3 [])) =
      some (.ok, .bits [false, false, false, false, false, true, false, true,
        true, false, true, false, false, false, true, true]) := by decide
theorem test_msgHeader_range : result (.msgHeader 0) (withM0 (msg (-4) (-1) 4 [])) = some (.range, .none) := by decide
theorem test_msgHdrlen : result (.msgHdrlen 0) (withM0 (msg 5 (-3) 3 [])) = some (.ok, .num 2) := by decide
theorem test_msgHdrlen_state : result (.msgHdrlen 0) State.reset = some (.state, .none) := by decide
/-- R167: the first 12 bits of `05 A3 FF`. -/
theorem test_msgFirstbits :
    result (.msgFirstbits 0 12) (withM0 (msg 5 (-3) 3 (bitsOf [0xFF#8]))) =
      some (.ok, .bits [false, false, false, false, false, true, false, true, true, false, true, false]) := by decide
theorem test_msgFirstbits_range :
    result (.msgFirstbits 0 25) (withM0 (msg 5 (-3) 3 (bitsOf [0xFF#8]))) = some (.range, .none) := by decide
/-- Part 2.3: one byte of a three-byte header, still in the buffer. -/
theorem test_msgGet :
    result (.msgGet 0) (withM0 { Msg.empty with buf := bitsOf [0x0A#8] }) =
      some (.ok, .fields ⟨none, none, none, 0, 8, [0x0A#8], none⟩) := by decide
theorem test_msgXstart : (reg 0 (run (.msgXstart 0) (withM0 (msg (-4) (-1) 0 [])))).xpos = some 0 := by decide
theorem test_msgXstart_range : result (.msgXstart 0) (withM0 (msg (-1) 4 255 [])) = some (.range, .none) := by decide
/-- R172: header `9C`, data `[05 06]`: the second chunk of width 16 is `0x10006`. -/
theorem test_msgXchunk_short :
    result (.msgXchunk 0 16) (withM0 { msg (-4) (-1) 0 (bitsOf [5#8, 6#8]) with xpos := some 16 }) =
      some (.ok, .num 0x10006) := by decide
/-- Part 2.3: the last chunk of `9c` at width 5 is `10` hexadecimal. -/
theorem test_msgXchunk_padded :
    result (.msgXchunk 0 5) (withM0 { msg (-4) (-1) 0 [] with xpos := some 5 }) = some (.ok, .num 0x10) := by decide
theorem test_msgAstart : (reg 0 (run (.msgAstart 0) (withM0 (msg 1 2 3 [true])))) = Msg.empty := by decide
/-- R177: `0x9C05` on the empty register. -/
theorem test_msgAchunk :
    (reg 1 (run (.msgAchunk 1 16 0x9C05) State.reset)) = msg (-4) (-1) 0 (bitsOf [5#8]) := by decide
/-- Part 2.3: 8 bits missing to the byte boundary, but `fb - 8 = 4`. -/
theorem test_msgAchunk_malformed : result (.msgAchunk 1 12 0x1005) State.reset = some (.malformed, .none) := by decide
/-- R178: `00000101 0000` becomes `00000101`. -/
theorem test_msgAend :
    (reg 0 (run (.msgAend 0) (withM0 (msg (-4) (-1) 0 (bitsOf [5#8] ++ zeros 4))))).buf = bitsOf [5#8] := by decide
theorem test_msgAend_state : result (.msgAend 0) State.reset = some (.state, .none) := by decide

/-! ### FRM -/

/-- Part 2.6: a wrong last CRC byte. -/
theorem test_frmRxbyte_crc :
    (run (.frmRxbyte 0x34#8) (withFrm { busyFrm .crc2 with res := 0x0035#16 })).events =
      [.reportError .crc, .setTimeout false] := by decide
/-- Part 2.5: the last byte of `01 01 9c 42 35`. -/
theorem test_frmRxbyte_accept :
    (run (.frmRxbyte 0x35#8) (withFrm { busyFrm .crc2 with res := 0x0035#16, mIn := msg (-4) (-1) 0 [] })).events =
      [.process ⟨some (-4), some (-1), some 0, 0, []⟩, .dataOut [0x06#8], .setTimeout false] := by decide
/-- Part 2.7: the fourth timeout in `Data`. -/
theorem test_frmTimeout_lost :
    (run .frmTimeout (withFrm { busyFrm .data with lenIn := 4, idleCnt := 3 })).events =
      [.reportError .lost, .setTimeout false] := by decide
/-- The same line of part 2.7: `m_in = EMPTY`, `len_in = 0`, `idle_cnt = 0`; and of part 2.5, at the end of a frame. -/
theorem test_partial_frame_discarded :
    (run .frmTimeout (withFrm { busyFrm .data with lenIn := 4, idleCnt := 3, mIn := msg (-4) (-1) 0 [] })).frm =
        { busyFrm .data with s := .idle, tmoEn := false } ∧
      (run (.frmRxbyte 0x35#8) (withFrm { busyFrm .crc2 with
        res := 0x0035#16, mIn := msg (-4) (-1) 0 [] })).frm.mIn = Msg.empty := by decide
/-- Part 2.7: the 21st tick flushes `"ab"`. -/
theorem test_frmTimeout_stale :
    (run .frmTimeout (withFrm (idleFrm [0x61#8, 0x62#8] 20))).events =
      [.consoleLine [0x61#8, 0x62#8], .setTimeout false] := by decide
/-- R224: the smallest frame. -/
theorem test_frmSend :
    (run (.frmSend 0) (withM0 (msg (-4) (-1) 0 []))).events =
      [.dataOut [0x01#8, 0x01#8, 0x9C#8, 0x42#8, 0x35#8]] := by decide
theorem test_frmSend_state : result (.frmSend 0) (withM0 (msg (-4) (-1) 0 (zeros 4))) = some (.state, .none) := by decide
theorem test_frmRelease :
    (run .frmRelease (withFrm { idleFrm [] 0 with holdValid := true, hold := msg 1 2 3 [] })).frm = idleFrm [] 0 := by
  decide

/-! ### ARQ -/

/-- R268: the level-1 message of `ARQ.OPEN 8, 60`. -/
theorem test_arqOpen :
    (run (.arqOpen 8 60) State.reset).events =
      [.lowerSend { s := -1, r := -1, a := true, n := some 1, c := some ⟨60, 8⟩ }] := by decide
theorem test_arqOpen_range : result (.arqOpen 129 60) State.reset = some (.range, .none) := by decide
/-- R270: `ARQ.SEND 7, "po:0" @100`. -/
theorem test_arqSend :
    (run (.arqSend 7#16) (withOperands { payload := [0x70#8, 0x6F#8, 0x3A#8, 0x30#8], now := 100 }
      (withArq openArq))).arq =
      { openArq with sendHead := 1, pend := [(0, ⟨[0x70#8, 0x6F#8, 0x3A#8, 0x30#8], 160, 7#16⟩)] } := by decide
theorem test_arqSend_closed :
    result (.arqSend 7#16) (withArq { openArq with phase := .closed }) = some (.closed, .none) := by decide
/-- Trace T3: `ARQ.RECV {s:0, r:0, d:"m0"} @165`. -/
theorem test_arqRecv_data :
    (run .arqRecv (withOperands { msg := { s := 0, r := 0, d := some [0x6D#8, 0x30#8] }, now := 165 }
      (withArq openArq))).events =
      [.dispatch [0x6D#8, 0x30#8], .lowerSend { s := 0, r := 1 }] := by decide
/-- Trace T3: `ARQ.RECV {s:0, r:1} @230`. -/
theorem test_arqRecv_ack :
    (run .arqRecv (withOperands { msg := { s := 0, r := 1 }, now := 230 }
      (withArq { openArq with sendHead := 1, pend := [(0, ⟨[1#8], 280, 10#16⟩)] }))).events =
      [.sendDone 10#16 .ok] := by decide
/-- R288: `ARQ.TICK @160` retransmits and sets the deadline to 220. -/
theorem test_arqTick :
    (run .arqTick (withOperands { now := 160 }
      (withArq { openArq with sendHead := 1, pend := [(0, ⟨[1#8], 160, 7#16⟩)] }))).arq.pend =
      [(0, ⟨[1#8], 220, 7#16⟩)] := by decide
theorem test_arqTick_early :
    (run .arqTick (withOperands { now := 159 }
      (withArq { openArq with sendHead := 1, pend := [(0, ⟨[1#8], 160, 7#16⟩)] }))).events = [] := by decide
theorem test_arqClose :
    (run .arqClose (withArq { openArq with sendHead := 1, pend := [(0, ⟨[1#8], 160, 7#16⟩)],
                                           sendq := [⟨[2#8], 8#16⟩] })).events =
      [.sendDone 7#16 .closed, .sendDone 8#16 .closed] := by decide
theorem test_arqReset :
    (run (.arqReset true) (withOperands { err := [9#8] }
      (withArq { openArq with sendq := [⟨[2#8], 8#16⟩] }))).events =
      [.sendDone 8#16 (.resetError [9#8]),
       .lowerSend { s := -1, r := -1, a := true, n := some 1, c := some ⟨60, 8⟩, e := some [9#8] }] := by decide
theorem test_arqLowerfail :
    (run .arqLowerfail (withOperands { err := [3#8] } (withArq { openArq with sendq := [⟨[2#8], 8#16⟩] }))).events =
      [.sendDone 8#16 (.transport [3#8])] := by decide
/-- R276: `ARQ.NEXT => OK Some 160`. -/
theorem test_arqNext :
    result .arqNext (withArq { openArq with sendHead := 1, pend := [(0, ⟨[1#8], 160, 7#16⟩)] }) =
      some (.ok, .optNum (some 160)) := by decide

/-! ### The step, the port and the notation -/

theorem test_step_illegal :
    (after State.reset (step (State.reset.withFetchWord 32 0x01000001))).status = some .illegal := by decide
theorem test_step_runs :
    (reg 1 (after State.reset (step (State.reset.withFetchWord 32 0x22400003)))).code = some 3 := by decide
/-- R106: the notation of a command. -/
theorem test_notation : showCommand (.msgXchunk 0 16) {} = "MSG.XCHUNK M0, 16" := by decide
/-- R107: the pseudo-command MSG.BUILD. -/
theorem test_build : (msgBuild 0 (-4) 5 3 0 []).map Command.word =
    [0x20000000#32, 0x2100FC05#32, 0x22000003#32, 0x23000000#32, 0x24000000#32] := by decide

/-! ## Witnesses: the hypotheses of the statements are met, each clause's at a boundary value -/

/-- A session with the window full, a send waiting, a payload beyond a gap and an acknowledgement pending. -/
def busyArq : Arq :=
  { openArq with
    sendHead := 1, sendTail := 5, recvTail := 7, recvHead := 2
    pend := [(0, ⟨[0#8], 130, 3#16⟩), (5, ⟨[5#8], 100, 0#16⟩), (6, ⟨[6#8], 110, 1#16⟩), (7, ⟨[7#8], 120, 2#16⟩)]
    oor := [(1, [1#8])], sendq := [⟨[8#8], 4#16⟩], ackPending := true, ackDeadline := 90 }

/-- The same session with nothing waiting and no acknowledgement pending. -/
def flyingArq : Arq := { busyArq with sendq := [], ackPending := false }

/-- A state with every unit in use: an open extraction, a frame half received with a message held, a busy session. -/
def busy : State :=
  { State.reset with
    msgs := [{ msg (-4) (-1) 0 (bitsOf [5#8, 6#8]) with xpos := some 24 }, msg 127 127 255 []]
    frm := { busyFrm .data with lenIn := 1, mIn := msg (-4) (-1) 0 [], hold := msg 5 (-3) 31 [], holdValid := true,
                                idleCnt := 3 }
    arq := busyArq }

/-- A state with commands at the port. -/
def issue (cs : List Command) (s : State) : State := { s with port := { s.port with issued := cs } }

/-- A framer inside a console line, at its full length, and in a UTF-8 run. -/
def fullLine (st : FrmState) (rem : Nat) : Machine.Frm :=
  { idleFrm (List.replicate 256 0x61#8) 0 with s := st, utf8Rem := rem }

theorem busy_inv : State.Inv defaultParams busy := ⟨by decide, by decide, by decide, by decide, by decide⟩

/-! ### Encoding and the step -/

theorem test_witness_DecodeOfEncode :
    [Instr.sysReset, .crcUpdate 0xFF#8, .msgClear 3, .msgSetaddr 3 (-128) 127, .msgSetcode 3 255, .msgSetprio 3 3,
      .msgFirstbits 3 524287, .msgXchunk 3 31, .msgAchunk 3 31 131071, .frmSend 3, .arqOpen 255 65535,
      .arqSend 0xFFFF#16, .arqReset true].all Instr.wellFormed = true := by decide
theorem test_witness_EncodeOfDecode : decode 0x2CFFFFFF#32 = .ok (.msgAchunk 3 31 131071) := by decide
theorem test_witness_DecodeAgreesWithTable :
    decode 0x47000000#32 = .ok .arqNext ∧ ∃ row ∈ opcodeTable, row.Selects 0x47000000#32 := by decide
theorem test_witness_StepRunsDecoded :
    State.reset.port.issued = [] ∧ (issue [⟨0x2CFFFFFF#32, {}⟩] busy).port.issued = [⟨0x2CFFFFFF#32, {}⟩] ∧
      decode (⟨0x2CFFFFFF#32, {}⟩ : Command).word = .ok (.msgAchunk 3 31 131071) := by decide
theorem test_witness_StepRefusesIllegalWord :
    (issue [⟨0x01000001#32, {}⟩] busy).port.issued = [⟨0x01000001#32, {}⟩] ∧
      ∀ row ∈ opcodeTable, ¬ row.Selects (⟨0x01000001#32, {}⟩ : Command).word := by decide
theorem test_witness_StepRefusesIllegalWord_reserved :
    opOf 0x00FFFFFF#32 = 0x00 ∧ opOf 0x02000000#32 = 0x02 ∧ opOf 0x0F000000#32 = 0x0F ∧ opOf 0x13000000#32 = 0x13 ∧
      opOf 0x1F000000#32 = 0x1F ∧ opOf 0x2E000000#32 = 0x2E ∧ opOf 0x2F000000#32 = 0x2F ∧
      opOf 0x34000000#32 = 0x34 ∧ opOf 0x3F000000#32 = 0x3F ∧ opOf 0x48000000#32 = 0x48 ∧
      opOf 0xFF000000#32 = 0xFF := by decide
theorem test_witness_RefusalChangesNothing :
    (execWith defaultParams (.msgSetcode 2 0) busy).port.answer = some ⟨.range, .none, []⟩ ∧
      Status.range ≠ Status.ok := by decide
theorem test_witness_UnitsWriteTheirOwnState :
    [Instr.crcReset, .crcFinish].all (fun i => i.opcode / 16 == 1) = true ∧
      [Instr.msgClear 0, .msgAend 1].all (fun i => i.opcode / 16 == 2) = true ∧
      [Instr.frmRxbyte 0#8, .frmRelease].all (fun i => i.opcode / 16 == 3) = true ∧
      [Instr.arqOpen 8 60, .arqNext].all (fun i => i.opcode / 16 == 4) = true := by decide
/-- Two states that agree on what the commands of one unit read and differ in the units beside it. -/
theorem test_witness_UnitsReadTheirOwnState :
    busy.port.operands = State.reset.port.operands ∧ busy.crc = State.reset.crc ∧
      busy.msgs ≠ State.reset.msgs ∧
      (let t := { busy with crc := ⟨1#16⟩, arq := Arq.reset }
       busy.port.operands = t.port.operands ∧ busy.msgs = t.msgs ∧ busy.frm = t.frm ∧ busy.crc ≠ t.crc) ∧
      (let t := { State.reset with arq := busyArq }
       busy.port.operands = t.port.operands ∧ busy.arq = t.arq ∧ busy.frm ≠ t.frm) := by decide
theorem test_witness_InvariantAtReset : LegalParams defaultParams := defaultParams_legal
theorem test_witness_InvariantKept :
    LegalParams defaultParams ∧ State.Inv defaultParams busy ∧ ∃ t, step busy = .next t :=
  ⟨defaultParams_legal, busy_inv, _, rfl⟩
/-- The same with a command to run: the last body byte of a frame. -/
theorem test_witness_InvariantKept_command :
    State.Inv defaultParams (issue [⟨0x3000009C#32, {}⟩] busy) ∧
      ∃ t, step (issue [⟨0x3000009C#32, {}⟩] busy) = .next t :=
  ⟨busy_inv, _, rfl⟩
/-- The busy session with all of `Q_MAX` sends waiting. -/
def fullArq : Arq := { busyArq with sendq := List.replicate 16 ⟨[8#8], 4#16⟩ }

theorem test_witness_SendsStayBounded :
    ArqInv defaultParams fullArq ∧ sendsBounded defaultParams fullArq = true := ⟨by decide, by decide⟩

/-! ### The CRC unit and the message codec -/

theorem test_witness_CrcOfStream :
    (issue (crcOver [] ++ []) busy).port.issued = crcOver [] ++ [] ∧
      (issue (crcOver [0x9C#8] ++ [⟨0#32, {}⟩]) busy).port.issued = crcOver [0x9C#8] ++ [⟨0#32, {}⟩] := by decide
theorem test_witness_CrcResidueLaw :
    (busyFrm .crc1).s = .crc1 ∧ (busyFrm .crc1).crc = ([] : Bytes).foldl defaultParams.crcStep defaultParams.crcInit ∧
      (let f := { busyFrm .crc1 with crc := 0x4235#16 }
       f.s = .crc1 ∧ f.crc = [0x9C#8].foldl defaultParams.crcStep defaultParams.crcInit) := by decide
/-- One bit of the first CRC byte is wrong. -/
theorem test_witness_FrameIntegrity :
    LegalParams defaultParams ∧ ([0x9C#8] : Bytes).length ≤ 32767 ∧ (idleFrm [0x61#8] 0).s = .idle ∧
      [0x43#8, 0x35#8] ≠ crcBytes (crc16 defaultParams [0x9C#8]) :=
  ⟨defaultParams_legal, by decide, by decide, by decide⟩
theorem test_witness_RegisterOutOfRange :
    busy.msgs.length = 2 ∧ busy.msgs.length = defaultParams.nmsg ∧ defaultParams.nmsg ≤ 2 ∧ 2 ≤ 3 := by decide
/-- The hypothesis of MsgClearAstartSetcodeSetprio, MsgSetaddr and MsgAdddata, for both registers. -/
theorem test_witness_MsgRegister : busy.msg? 0 = some (reg 0 busy) ∧ busy.msg? 1 = some (reg 1 busy) := by decide
/-- The hypotheses of the encodings in MsgSetaddr, MsgAdddata and ArqOpen. -/
theorem test_witness_fields :
    (Instr.msgSetaddr 3 (-128) 127).wellFormed = true ∧ 3 < 4 ∧ 255 < 256 ∧ 65535 < 65536 := by decide
theorem test_witness_MsgHeaderAndHdrlen :
    (withM0 (msg 127 127 255 [])).msg? 0 = some (msg 127 127 255 []) ∧
      (let m := { msg 0 0 0 [] with dst := none }
       (withM0 m).msg? 0 = some m ∧ (m.dst = none ∨ m.src = none)) ∧
      (let m := { msg 0 0 0 [] with code := none }
       (withM0 m).msg? 0 = some m ∧ (m.dst = none ∨ m.src = none ∨ m.code = none) ∧ m.dst = some 0 ∧ m.src = some 0) := by
  decide
/-- The hypotheses of MsgFirstbitsAndGet, MsgXstartAndAend and FrmReleaseAndSend: a header at the largest code of its
width, one beyond it, one with no code. -/
theorem test_witness_NeedHeader :
    (let m := msg (-4) (-1) 3 []
     (withM0 m).msg? 0 = some m ∧ needHeader m = .ok ⟨-4, -1, 3⟩ ∧ m.code = some 3) ∧
      (let m := msg (-4) (-1) 4 []
       (withM0 m).msg? 0 = some m ∧ needHeader m = .error .range) ∧
      (let m := Msg.empty
       (withM0 m).msg? 0 = some m ∧ needHeader m = .error .state ∧ m.code = none) := by decide
theorem test_witness_MsgXchunk :
    (let m := { msg (-4) (-1) 0 (bitsOf [5#8, 6#8]) with xpos := some 24 }
     busy.msg? 0 = some m ∧ m.xpos = some 24 ∧ needHeader m = .ok ⟨-4, -1, 0⟩) ∧
      (let m := { msg (-4) (-1) 4 [] with xpos := some 0 }
       (withM0 m).msg? 0 = some m ∧ m.xpos = some 0 ∧ needHeader m = .error .range) ∧
      (let m := msg 127 127 255 []
       busy.msg? 1 = some m ∧ m.xpos = none) ∧
      (0 < 1 ∨ defaultParams.fbMax < 0) ∧ (17 < 1 ∨ defaultParams.fbMax < 17) ∧ 1 ≤ 1 ∧ 16 ≤ defaultParams.fbMax := by
  decide
/-- A chunk that is answered OK: the second of R172's example. -/
theorem test_witness_MsgXchunk_cursor :
    let m := { msg (-4) (-1) 0 (bitsOf [5#8, 6#8]) with xpos := some 16 }
    (withM0 m).msg? 0 = some m ∧ (execWith defaultParams (.msgXchunk 0 16) (withM0 m)).status = some .ok ∧
      needHeader m = .ok ⟨-4, -1, 0⟩ ∧ m.buf.length ≤ 8 * 32767 := by decide
theorem test_witness_MsgAchunk :
    busy.msg? 0 = some (reg 0 busy) ∧ (0 < 1 ∨ defaultParams.fbMax < 0) ∧ (17 < 1 ∨ defaultParams.fbMax < 17) ∧
      1 ≤ 1 ∧ 16 ≤ defaultParams.fbMax := by decide
/-- A header cut inside its first address, with two payload bits behind it. -/
theorem test_witness_HeaderRoundTrip :
    let h : Hdr := ⟨-4, 127, 31⟩
    h.dst ≤ 127 ∧ -4 ≤ h.dst ∧ -4 ≤ h.src ∧ h.src ≤ 127 ∧ h.code < 2 ^ codeW h.dst h.src ∧
      [[true], [false, false, false, true, true, true, true, true, true, true, true, true, true, true, true],
        [true, false]].flatten = encHeader h ++ [true, false] := by decide
theorem test_witness_ChunkRoundTrip :
    let m := { msg (-4) (-1) 0 (bitsOf [5#8, 6#8]) with xpos := some 24 }
    LegalParams defaultParams ∧ busy.msg? 0 = some m ∧ 0 ≠ 1 ∧ 1 < busy.msgs.length ∧
      needHeader m = .ok ⟨-4, -1, 0⟩ ∧ (addrOk m.dst = true ∧ addrOk m.src = true) ∧
      (m.buf.length % 8 = 0 ∧ m.buf.length ≤ 8 * 32767 ∧ 1 ≤ 16 ∧ 16 ≤ defaultParams.fbMax ∧
        streamLen ⟨-4, -1, 0⟩ m < 25) :=
  ⟨defaultParams_legal, by decide, by decide, by decide, by decide, by decide, by decide⟩
theorem test_witness_WidthAgreement :
    let m := msg 127 127 255 []
    8 ≤ defaultParams.fbMax ∧ busy.msg? 1 = some m ∧ needHeader m = .ok ⟨127, 127, 255⟩ ∧ addrOk m.dst = true ∧ addrOk m.src = true ∧
      m.buf.length % 8 = 0 ∧ streamLen ⟨127, 127, 255⟩ m < 25 := by decide

/-! ### The framer -/

theorem test_witness_RxAckAndMarker :
    (idleFrm [] 0).s = .idle ∧ TimeoutInv (idleFrm [] 0) ∧ (idleFrm [0x61#8] 20).s = .idle ∧
      TimeoutInv (idleFrm [0x61#8] 20) ∧ LegalParams defaultParams :=
  ⟨by decide, by decide, by decide, by decide, defaultParams_legal⟩
theorem test_witness_RxConsoleByte :
    (fullLine .idle 0).s = .idle ∧ TimeoutInv (fullLine .idle 0) ∧ LegalParams defaultParams ∧
      ∀ b ∈ [0x05#8, 0x0A#8, 0x0D#8, 0xBF#8, 0xC0#8, 0xFE#8, 0xFF#8],
        b ≠ 0x06#8 ∧ ∀ p, defaultParams.marker p ≠ b :=
  ⟨by decide, by decide, defaultParams_legal, by decide⟩
theorem test_witness_RxLengthByte :
    TimeoutInv (busyFrm .len) ∧ (busyFrm .len).s = .len ∧ (0x7F#8).toNat < 128 ∧ 128 ≤ (0x80#8).toNat ∧
      TimeoutInv (busyFrm .len2) ∧ (busyFrm .len2).s = .len2 := by decide
theorem test_witness_RxBodyAndCrc1 :
    TimeoutInv busy.frm ∧ busy.frm.s = .data ∧ 0 < busy.frm.lenIn ∧ TimeoutInv (busyFrm .crc1) ∧
      (busyFrm .crc1).s = .crc1 := by decide
theorem test_witness_RxFrameEnd :
    TimeoutInv (busyFrm .crc2) ∧ (busyFrm .crc2).s = .crc2 ∧ (busyFrm .crc2).line = [] := by decide
theorem test_witness_RxUtf8Byte :
    TimeoutInv (fullLine .utf8 1) ∧ (fullLine .utf8 1).s = .utf8 ∧ 0 < (fullLine .utf8 1).utf8Rem ∧
      LegalParams defaultParams :=
  ⟨by decide, by decide, by decide, defaultParams_legal⟩
theorem test_witness_FrmTimeout :
    (TimeoutInv busy.frm ∧ LineInv busy.frm ∧ busy.frm.idleCnt = 3) ∧
      (TimeoutInv (fullLine .utf8 7) ∧ LineInv (fullLine .utf8 7)) ∧
      (TimeoutInv (idleFrm [0x61#8] 20) ∧ LineInv (idleFrm [0x61#8] 20)) ∧
      (TimeoutInv (idleFrm [] 0) ∧ LineInv (idleFrm [] 0)) := by decide
theorem test_witness_FramerRecovery : IdleInv (idleFrm [0x61#8] 20) ∧ IdleInv busy.frm ∧ 4 + (20 + 1) ≤ 25 := by decide
/-- The smallest frame, received behind a pending console line. -/
theorem test_witness_LoopBack :
    let m := msg (-4) (-1) 0 []
    LegalParams defaultParams ∧ (withM0 m).msg? 0 = some m ∧ needHeader m = .ok ⟨-4, -1, 0⟩ ∧ addrOk m.dst = true ∧
      addrOk m.src = true ∧
      (execWith defaultParams (.frmSend 0) (withM0 m)).port.answer =
        some ⟨.ok, .none, [.dataOut [0x01#8, 0x01#8, 0x9C#8, 0x42#8, 0x35#8]]⟩ ∧
      (idleFrm [0x61#8] 20).s = .idle ∧ (idleFrm [0x61#8] 20).holdValid = false ∧ TimeoutInv (idleFrm [0x61#8] 20) :=
  ⟨defaultParams_legal, by decide, by decide, by decide, by decide, by decide, by decide, by decide, by decide⟩

/-! ### The ARQ engine -/

/-- The session has a free place in its window and nothing waiting (`inflight = half - 1`). -/
def freeArq : Arq := { flyingArq with sendTail := 6, pend := flyingArq.pend.filter fun e => e.1 ≠ 5 }

theorem test_witness_ArqSend :
    Arq.reset.phase = .unopened ∧ ({ openArq with phase := .closed } : Arq).phase = .closed ∧
      (freeArq.phase = .opened ∧ freeArq.resetLevel = 0 ∧ freeArq.sendq = [] ∧ freeArq.inflight < freeArq.window / 2) ∧
      (let a := { busyArq with sendq := List.replicate 15 ⟨[8#8], 4#16⟩ }
       a.phase = .opened ∧ ¬ (a.resetLevel = 0 ∧ a.sendq = [] ∧ a.inflight < a.window / 2) ∧ a.sendq.length < 16) ∧
      (fullArq.phase = .opened ∧ ¬ (fullArq.resetLevel = 0 ∧ fullArq.sendq = [] ∧ fullArq.inflight < fullArq.window / 2) ∧
        16 ≤ fullArq.sendq.length) := by decide
/-- The clauses over the parameters, at `P_MAX = 1` and `Q_MAX = 1`. -/
theorem test_witness_ArqSend_params :
    let P := { defaultParams with pMax := some 1, qMax := some 1 }
    busyArq.phase = .opened ∧ flyingArq.phase = .opened ∧ (P.pMax = some 1 ∧ 1 < ([1#8, 2#8] : Bytes).length) ∧
      (∀ n, P.pMax = some n → ([1#8] : Bytes).length ≤ n) ∧
      ¬ (flyingArq.resetLevel = 0 ∧ flyingArq.sendq = [] ∧ flyingArq.inflight < flyingArq.window / 2) ∧
      (∀ n, P.qMax = some n → flyingArq.sendq.length < n) ∧
      ¬ (busyArq.resetLevel = 0 ∧ busyArq.sendq = [] ∧ busyArq.inflight < busyArq.window / 2) ∧
      P.qMax = some 1 ∧ 1 ≤ busyArq.sendq.length := by
  refine ⟨rfl, rfl, by decide, ?_, by decide, ?_, by decide, rfl, by decide⟩ <;> · rintro n ⟨⟩; decide
/-- A window that a reset has emptied, with sends waiting. -/
theorem test_witness_StartQueuedFillsWindow :
    let a := { openArq with sendq := [⟨[8#8], 4#16⟩] }
    ArqRanges defaultParams a ∧ TableWf a.pend ∧ a.inflight ≤ a.half ∧ a.resetLevel = 0 ∧ 0 < 1 ∧
      a.sendq[0]? = some ⟨[8#8], 4#16⟩ := by decide
theorem test_witness_ArqRecvNotOpenOrDropped :
    let bad : ArqMsg → Prop := fun m => m.n = none ∨ ((m.n = some 1 ∨ m.n = some 2) ∧ m.c = none)
    Arq.reset.phase = .unopened ∧ ({ openArq with phase := .closed } : Arq).phase = .closed ∧
      (let m : ArqMsg := { s := 0, r := 0, a := true, n := some 0 }
       m.a = true ∧ m.n = some 0) ∧
      (let m : ArqMsg := { s := 0, r := 0, a := false, n := some 0 }
       ¬ (m.a = true ∧ m.n = some 0)) ∧
      (let m : ArqMsg := { s := 0, r := 0, a := true, n := some 2 }
       m.a = true ∧ bad m) ∧
      (let m : ArqMsg := { s := 0, r := 0, a := true, n := some 1, c := some ⟨65536, 4⟩ }
       m.a = true ∧ ¬ bad m ∧ m.c = some ⟨65536, 4⟩ ∧
         (4 < 4 ∨ 65536 < defaultParams.tMin ∨ defaultParams.tMax < 65536)) ∧
      (let m : ArqMsg := { s := 8, r := 0 }
       busyArq.phase = .opened ∧ m.a = false ∧ busyArq.resetLevel = 0 ∧ ((busyArq.window : Nat) : Int) ≤ m.s) := by decide
theorem test_witness_ArqRecvTerminalAndLevel1 :
    let m0 : ArqMsg := { s := 0, r := 0, a := true, n := some 0, e := some [9#8] }
    let m1 : ArqMsg := { s := -1, r := -1, a := true, n := some 1, c := some ⟨65535, 4⟩ }
    busyArq.phase = .opened ∧ 0 < busyArq.window ∧ (m0.a = true ∧ m0.c = none ∧ m0.n = some 0) ∧
      (m1.a = true ∧ m1.c = some ⟨65535, 4⟩ ∧ m1.n = some 1 ∧ 4 ≤ 4 ∧ defaultParams.tMin ≤ 65535 ∧
        65535 ≤ defaultParams.tMax) := by decide
theorem test_witness_ArqRecvHandshake :
    let m2 : ArqMsg := { s := 0, r := 0, a := true, n := some 2, c := some ⟨1, 4⟩ }
    let m3 : ArqMsg := { s := 0, r := 0, a := true, n := some 3 }
    let m : ArqMsg := { s := 0, r := 0 }
    let waiting := { openArq with resetLevel := 1, sendq := [⟨[8#8], 4#16⟩] }
    let answering := { waiting with resetLevel := 2 }
    waiting.phase = .opened ∧ busyArq.phase = .opened ∧
      (m2.a = true ∧ m2.e = none ∧ m2.n = some 2 ∧ m2.c = some ⟨1, 4⟩ ∧ 4 ≤ 4 ∧ defaultParams.tMin ≤ 1 ∧
        1 ≤ defaultParams.tMax) ∧
      waiting.resetLevel ≠ 0 ∧ busyArq.resetLevel = 0 ∧
      (m3.a = true ∧ m3.e = none ∧ m3.c = none ∧ m3.n = some 3 ∧ answering.resetLevel = 2 ∧ waiting.resetLevel ≠ 2) ∧
      (m.a = false ∧ waiting.resetLevel = 1 ∧ answering.resetLevel = 2) := by decide
/-- Reset messages that carry an error, in a busy session and during the handshake. -/
theorem test_witness_ArqRecvHandshake_error :
    let m2 : ArqMsg := { s := 0, r := 0, a := true, n := some 2, c := some ⟨65535, 4⟩, e := some [9#8] }
    let m3 : ArqMsg := { s := 0, r := 0, a := true, n := some 3, e := some [] }
    let waiting := { openArq with resetLevel := 1, sendq := [⟨[8#8], 4#16⟩] }
    let answering := { waiting with resetLevel := 2 }
    ArqInv defaultParams busyArq ∧ ArqInv defaultParams waiting ∧ ArqInv defaultParams answering ∧
      (m2.a = true ∧ m2.e = some [9#8] ∧ m2.n = some 2 ∧ m2.c = some ⟨65535, 4⟩ ∧ defaultParams.tMin ≤ 65535 ∧
        65535 ≤ defaultParams.tMax) ∧
      (m3.a = true ∧ m3.e = some [] ∧ m3.n = some 3 ∧ m3.c = none) ∧
      (busyArq.phase = .opened ∧ busyArq.resetLevel = 0 ∧ waiting.phase = .opened ∧ waiting.resetLevel ≠ 0 ∧
        waiting.resetLevel ≠ 2 ∧ answering.phase = .opened ∧ answering.resetLevel = 2) :=
  ⟨by decide, by decide, by decide, by decide, by decide, by decide⟩
theorem test_witness_SequenceArithmetic : 0 < 4 ∧ 3 < 4 ∧ ArqRanges defaultParams busyArq :=
  ⟨by decide, by decide, by decide⟩
/-- A session with a payload beyond a gap and one with none. -/
theorem test_witness_ArqSelectiveList :
    ArqRanges defaultParams busyArq ∧ ArqInv defaultParams busyArq ∧ busyArq.xField = some [1] ∧
      ArqRanges defaultParams openArq ∧ openArq.xField = none :=
  ⟨by decide, by decide, by decide, by decide, by decide⟩
/-- The farthest acknowledgement inside the sends in flight and the nearest one outside, the latter with an `x` that names
a send twice, one send beyond the window and, in the list's order, an earlier one. -/
theorem test_witness_ArqAcknowledgement :
    let m : ArqMsg := { s := 7, r := 1 }
    let m' : ArqMsg := { s := 0, r := 2, x := some [7, 3, 7, 5], d := some [] }
    let a := busyArq
    ArqInv defaultParams a ∧ (a.phase = .opened ∧ a.resetLevel = 0) ∧
      (m.a = false ∧ 0 ≤ m.s ∧ m.s < a.window ∧ m.r = (1 : Nat) ∧ 1 < a.window ∧ (∀ q ∈ m.x.getD [], q < a.window) ∧
        fwd a.window 1 a.sendTail ≤ a.inflight ∧ m.d = none) ∧
      (m'.a = false ∧ 0 ≤ m'.s ∧ m'.s < a.window ∧ m'.r = (2 : Nat) ∧ 2 < a.window ∧
        (∀ q ∈ m'.x.getD [], q < a.window) ∧ a.inflight < fwd a.window 2 a.sendTail ∧ 7 ∈ m'.x.getD [] ∧
        fwd a.window 7 a.sendTail < a.inflight) := ⟨by decide, by decide, by decide, by decide⟩
/-- The payload that closes the gap, and the first sequence number outside the forward half. -/
theorem test_witness_ArqDataDelivery :
    let m : ArqMsg := { s := 7, r := 1, x := some [7], d := some [1#8] }
    let m' : ArqMsg := { s := 3, r := 0, d := some [] }
    let a := busyArq
    ArqInv defaultParams a ∧ (a.phase = .opened ∧ a.resetLevel = 0) ∧
      (7 < a.window ∧ m.a = false ∧ m.d = some [1#8] ∧ m.s = (7 : Nat) ∧ 0 ≤ m.r ∧ m.r < a.window ∧
        (∀ y ∈ m.x.getD [], y < a.window) ∧ fwd a.window 7 a.recvTail < a.half) ∧
      (3 < a.window ∧ m'.a = false ∧ m'.d = some [] ∧ m'.s = (3 : Nat) ∧ 0 ≤ m'.r ∧ m'.r < a.window ∧
        (∀ y ∈ m'.x.getD [], y < a.window) ∧ a.half ≤ fwd a.window 3 a.recvTail) :=
  ⟨by decide, by decide, by decide, by decide⟩
/-- A data message that starts a queued send, one that leaves sends in flight, and one that leaves none. -/
theorem test_witness_ArqDataDelivery_ack :
    let t : Arq → Int → State := fun a r =>
      execWith defaultParams .arqRecv (withOperands { msg := { s := 3, r := r, d := some [] }, now := 50 } (withArq a))
    (t busyArq 1).arq.sendq ≠ busyArq.sendq ∧
      ((t flyingArq 0).arq.sendq = flyingArq.sendq ∧ (t flyingArq 0).arq.pend ≠ [] ∧
        (t flyingArq 0).arq.ackDeadline = 50 + 15) ∧
      ((t flyingArq 1).arq.sendq = flyingArq.sendq ∧ (t flyingArq 1).arq.pend = []) := by decide
theorem test_witness_ArqNext :
    Arq.reset.phase ≠ .opened ∧ (busyArq.phase = .opened ∧ busyArq.resetLevel = 0) ∧
      (let a := { openArq with resetLevel := 1 }
       a.phase = .opened ∧ a.resetLevel ≠ 0) := by decide
theorem test_witness_ArqTick :
    Arq.reset.phase ≠ .opened ∧
      (let a := { openArq with resetLevel := 1, resetDeadline := 60 }
       a.phase = .opened ∧ a.resetLevel = 1 ∧ a.resetDeadline ≤ 60) ∧
      (busyArq.phase = .opened ∧ busyArq.resetLevel = 0 ∧ (∃ e ∈ busyArq.pend, e.2.deadline ≤ 100) ∧
        ∀ e ∈ busyArq.pend, 99 < e.2.deadline) := by decide
/-- No deadline, one millisecond before it, and at it. -/
theorem test_witness_TickAgreesWithNext :
    (arqNext State.reset).port.answer = some ⟨.ok, .optNum none, []⟩ ∧
      (let s := withOperands { now := 89 } busy
       (arqNext s).port.answer = some ⟨.ok, .optNum (some 90), []⟩ ∧ s.port.operands.now < 90) ∧
      (let s := withOperands { now := 90 } busy
       (arqNext s).port.answer = some ⟨.ok, .optNum (some 90), []⟩ ∧ 90 ≤ s.port.operands.now) := by decide
theorem test_witness_ArqCloseLowerfailReset :
    Arq.reset.phase = .unopened ∧ ({ openArq with phase := .closed } : Arq).phase = .closed ∧
      (busyArq.phase = .opened ∧ 0 < busyArq.window) := by decide
theorem test_witness_HandlesConserved :
    ArqInv defaultParams busyArq ∧ ArqInv defaultParams freeArq ∧ Instr.arqSend 7#16 ≠ .sysReset ∧
      Instr.arqClose ≠ .sysReset := ⟨by decide, by decide, by decide, by decide⟩

end Sys2Proof.Tests.Slice0
end

/-! What a command's answer can be (R10, R11): a refusal of the state it was given, or OK from a state with the same port.
One closure rule per form the meanings are written in, one lemma per command that can refuse, and the whole block at
every choice of the parameters. -/

namespace Sys2Proof.Machine

/-- `t` is what a command can answer from `s`: refused, or ended with OK (R10, R11, R104). -/
inductive Answers (s : State) : State → Prop where
  /-- No state is written, no value and no event are given (R11); ILLEGAL is the decoder's answer alone (R103). -/
  | refused (st : Status) (h : st ≠ .ok ∧ st ≠ .illegal := by decide) : Answers s (s.refuse st)
  /-- OK, from a state in which the port is untouched. -/
  | accepted {u : State} (v : Value) (ev : List Event) (h : u.port = s.port) : Answers s (u.answer .ok v ev)

namespace Answers

variable {s : State}

theorem done {u : State} (v : Value) (h : u.port = s.port) : Answers s (u.done v) := .accepted v [] h

theorem commitFrm (x : Acc Frm) : Answers s (s.commitFrm x) := .accepted .none x.ev rfl

theorem commitArq (x : Acc Arq) : Answers s (s.commitArq x) := .accepted .none x.ev rfl

theorem ite {c : Prop} [Decidable c] {t u : State} (ht : Answers s t) (hu : Answers s u) :
    Answers s (if c then t else u) := by
  split
  · exact ht
  · exact hu

/-- A register that does not exist is refused with RANGE (R101). -/
theorem withMsg {r : Nat} {f : Msg → State} (h : ∀ m, Answers s (f m)) : Answers s (s.withMsg r f) := by
  rcases withMsg_cases s r f with ⟨-, he⟩ | ⟨m, -, -, he⟩ <;> rw [he]
  · exact .refused .range
  · exact h m

/-- An incomplete header is refused with STATE, a code too wide with RANGE (R153). -/
theorem withHeader {m : Msg} {f : Hdr → State} (h : ∀ hd, Answers s (f hd)) : Answers s (s.withHeader m f) := by
  rcases withHeader_cases s m f with ⟨st, rfl | rfl, he⟩ | ⟨hd, -, he⟩ <;> rw [he]
  · exact .refused .state
  · exact .refused .range
  · exact h hd

/-- The port after a command is the given one with an answer written. -/
theorem port_eq {t : State} (h : Answers s t) :
    ∃ a, t.port = { s.port with answer := some a } ∧ a.status ≠ .illegal := by
  cases h with
  | refused st hst => exact ⟨_, rfl, hst.2⟩
  | accepted v ev hp => exact ⟨_, by rw [← hp]; rfl, by simp⟩

/-- An answer other than OK is a refusal (R11). -/
theorem eq_refuse {t : State} {a : Answer} (h : Answers s t) (ha : t.port.answer = some a) (hok : a.status ≠ .ok) :
    t = s.refuse a.status ∧ a.value = .none ∧ a.events = [] := by
  cases h with
  | refused st _ =>
    cases ha
    exact ⟨rfl, rfl, rfl⟩
  | accepted v ev _ =>
    cases ha
    exact absurd rfl hok

end Answers

/-! ## The commands with a refusal of their own -/

section Commands

variable (P : Config.Params) (r : Nat) (s : State)

theorem msgSetaddr_answers (dst src : Int) : Answers s (msgSetaddr r dst src s) :=
  .withMsg fun _ => .ite (.refused .range) (.done _ rfl)

theorem msgAdddata_answers : Answers s (msgAdddata r s) := .withMsg fun _ => .ite (.refused .range) (.done _ rfl)

theorem msgHdrlen_answers : Answers s (msgHdrlen r s) := by
  refine .withMsg fun m => ?_
  split
  · exact .done _ rfl
  · exact .refused .state

theorem msgFirstbits_answers (n : Nat) : Answers s (msgFirstbits r n s) :=
  .withMsg fun _ => .withHeader fun _ => .ite (.refused .range) (.done _ rfl)

theorem msgXchunk_answers (fb : Nat) : Answers s (msgXchunk P r fb s) := by
  refine .withMsg fun m => .ite (.refused .range) ?_
  cases m.xpos with
  | none => exact .refused .state
  | some pos => exact .withHeader fun _ => .ite (.refused .ended) (.done _ rfl)

theorem msgAchunk_answers (fb value : Nat) : Answers s (msgAchunk P r fb value s) := by
  refine .withMsg fun m => .ite (.refused .range) ?_
  cases hc : chunkBits m.buf.length fb value with
  | error st =>
    obtain rfl := chunkBits_error _ _ _ _ hc
    exact .refused .malformed
  | ok p => exact .ite (.refused .range) (.done _ rfl)

theorem msgAend_answers : Answers s (msgAend r s) := .withMsg fun _ => .ite (.refused .state) (.done _ rfl)

theorem frmSend_answers : Answers s (frmSend P r s) :=
  .withMsg fun _ => .withHeader fun _ => .ite (.refused .state) (.ite (.refused .range) (.accepted _ _ rfl))

theorem arqOpen_answers (window timeout : Nat) : Answers s (arqOpen P window timeout s) :=
  .ite (.refused .state) (.ite (.refused .range) (.commitArq _))

theorem arqSend_answers (handle : U16) : Answers s (arqSend P handle s) := by
  unfold arqSend
  cases s.arq.phase with
  | unopened => exact .refused .state
  | closed => exact .refused .closed
  | opened =>
    exact .ite (.refused .range) (.ite (.commitArq _) (.ite (.refused .busy) (.commitArq _)))

theorem arqRecv_answers : Answers s (arqRecv P s) := by
  unfold arqRecv
  cases s.arq.phase with
  | unopened => exact .refused .state
  | closed => exact .commitArq _
  | opened => exact .commitArq _

theorem arqClose_answers : Answers s (arqClose s) := by
  unfold arqClose
  cases s.arq.phase with
  | unopened => exact .refused .state
  | closed => exact .done _ rfl
  | opened => exact .commitArq _

theorem arqReset_answers (hasErr : Bool) : Answers s (arqReset hasErr s) := by
  unfold arqReset
  cases s.arq.phase with
  | unopened => exact .refused .state
  | closed => exact .refused .closed
  | opened => exact .commitArq _

theorem arqLowerfail_answers : Answers s (arqLowerfail s) := by
  unfold arqLowerfail
  cases s.arq.phase with
  | unopened => exact .refused .state
  | closed => exact .done _ rfl
  | opened => exact .commitArq _

end Commands

/-- Every command is refused or ends with OK, and leaves of the port all but the answer (R10, R11). -/
theorem execWith_answers (P : Config.Params) (i : Instr) (s : State) : Answers s (execWith P i s) := by
  cases i with
  | sysReset => exact .done _ rfl
  | crcReset => exact .done _ rfl
  | crcUpdate byte => exact .done _ rfl
  | crcFinish => exact .done _ rfl
  | msgClear r => exact .withMsg fun _ => .done _ rfl
  | msgSetaddr r dst src => exact msgSetaddr_answers r s dst src
  | msgSetcode r code => exact .withMsg fun _ => .done _ rfl
  | msgSetprio r prio => exact .withMsg fun _ => .done _ rfl
  | msgAdddata r => exact msgAdddata_answers r s
  | msgHeader r => exact .withMsg fun _ => .withHeader fun _ => .done _ rfl
  | msgHdrlen r => exact msgHdrlen_answers r s
  | msgFirstbits r n => exact msgFirstbits_answers r s n
  | msgGet r => exact .withMsg fun _ => .done _ rfl
  | msgXstart r => exact .withMsg fun _ => .withHeader fun _ => .done _ rfl
  | msgXchunk r fb => exact msgXchunk_answers P r s fb
  | msgAstart r => exact .withMsg fun _ => .done _ rfl
  | msgAchunk r fb value => exact msgAchunk_answers P r s fb value
  | msgAend r => exact msgAend_answers r s
  | frmRxbyte byte => exact .commitFrm _
  | frmTimeout => exact .commitFrm _
  | frmSend r => exact frmSend_answers P r s
  | frmRelease => exact .done _ rfl
  | arqOpen window timeout => exact arqOpen_answers P s window timeout
  | arqSend handle => exact arqSend_answers P s handle
  | arqRecv => exact arqRecv_answers P s
  | arqTick => exact .ite (.commitArq _) (.done _ rfl)
  | arqClose => exact arqClose_answers s
  | arqReset hasErr => exact arqReset_answers s hasErr
  | arqLowerfail => exact arqLowerfail_answers s
  | arqNext => exact .done _ rfl

/-- A next state of exec is the parametric block's at the default parameters. -/
theorem exec_eq_next_iff (i : Instr) (s t : State) : exec i s = .next t ↔ execWith defaultParams i s = t := by
  rw [exec_eq_execWith, Host.Outcome.next.injEq]

end Sys2Proof.Machine

namespace Sys2Proof.Settled

open Sys2Proof.Machine

/-- Settles O8: an answer other than OK is a refusal, and a refusal writes the port's answer alone. -/
theorem refusalChangesNothing : Obligations.RefusalChangesNothing := by
  intro P i s a ha hok
  obtain ⟨ht, hv, he⟩ := (execWith_answers P i s).eq_refuse ha hok
  exact ⟨by rw [ht]; exact ⟨rfl, rfl, rfl, rfl⟩, hv, he⟩

/-- Settles O5, by what the fetch gives. -/
theorem stepRunsDecoded : Obligations.StepRunsDecoded := by
  refine fun s => ⟨fun h => ?_, fun c rest i h hd => ?_⟩
  · simp [step, fetch_of_nil s h]
  · simp [step, fetch_of_cons s c rest h, hd]

/-- Settles O7: the answered state is the parametric block's, whose port `Answers` fixes. -/
theorem everyCommandAnswers : Obligations.EveryCommandAnswers := by
  intro i s
  obtain ⟨a, hp, ha⟩ := (execWith_answers defaultParams i s).port_eq
  exact ⟨_, a, exec_eq_execWith i s, hp, ha⟩

end Sys2Proof.Settled

/-! The message codec's reading commands and its chunks (R165, R166, R172, R177): the header written out bit by bit, what
a chunk is on the way out and on the way in, and one equation per case of each command on a register that exists. -/

namespace Sys2Proof.Machine

/-! ## The header written out -/

/-- `bits(v, n)` lists the bits of `v` from the most significant one down (R13). -/
theorem bitsOfNat_eq_map_testBit (n v : Nat) : bitsOfNat n v = (List.range n).reverse.map v.testBit := by
  induction n with
  | zero => rfl
  | succ n ih => simp [bitsOfNat, ih, List.range_succ]

/-- The header's length in bytes by the signs of the addresses (R22, R166). -/
theorem headerLen_eq (dst src : Int) :
    headerLen dst src = if dst < 0 ∧ src < 0 then 1 else if 0 ≤ dst ∧ 0 ≤ src then 3 else 2 := by
  unfold headerLen
  rcases hdrBits_cases dst src with ⟨hd, hs, -, hb⟩ | ⟨hd, hs, -, hb⟩ | ⟨hd, hs, -, hb⟩ | ⟨hd, hs, -, hb⟩ <;>
    rw [hb] <;> split_ifs <;> omega

/-- With a header field absent there is no header (R153). -/
theorem needHeader_of_absent (m : Msg) (h : m.dst = none ∨ m.src = none ∨ m.code = none) :
    needHeader m = .error .state := by
  have hn : m.hdr? = none := by rcases h with h | h | h <;> simp [Msg.hdr?, h]
  simp [needHeader, hn]

/-- With all three fields present the code's width decides (R153). -/
theorem needHeader_of_present (m : Msg) (h : Hdr) (hd : m.dst = some h.dst) (hs : m.src = some h.src)
    (hc : m.code = some h.code) :
    needHeader m = if h.code < 2 ^ codeW h.dst h.src then .ok h else .error .range := by
  simp [needHeader, Msg.hdr?, hd, hs, hc]

/-! ## Chunks -/

/-- `MemRead` is the value of the bits from the position on, as many as asked for (R14). -/
theorem memRead_eq (B : Bits) (pos n : Nat) : memRead B pos n = uint ((B.drop pos).take n) := by
  simp [memRead, slice]

/-- Reading all that remains. -/
theorem memRead_rest (B : Bits) (pos : Nat) : memRead B pos (B.length - pos) = uint (B.drop pos) := by
  rw [memRead_eq, List.take_of_length_le (by simp)]

/-- A chunk never takes the cursor beyond the end (R26). -/
theorem chunkAt_cursor_le (S : Bits) (pos fb : Nat) (hk : S.length - pos ≠ 0) :
    (chunkAt S pos (S.length - pos) fb).2 ≤ S.length := by
  by_cases hf : fb ≤ S.length - pos
  · rw [chunkAt_full _ _ _ _ hf]
    show pos + fb ≤ S.length
    omega
  · by_cases hs : S.length - pos + 8 ≤ fb
    · rw [chunkAt_short _ _ _ _ hs]
    · rw [chunkAt_padded _ _ _ _ (by omega) (by omega)]

/-- The continuation flag of a value below `2 ^ (fb + 1)` is its leading bit (R99). -/
theorem continuationFlag_iff (fb value : Nat) (h : value < 2 ^ (fb + 1)) :
    continuationFlag fb value = true ↔ 2 ^ fb ≤ value := by
  refine ⟨Nat.ge_two_pow_of_testBit, fun hge => ?_⟩
  rw [Nat.pow_succ] at h
  have hz : (value - 2 ^ fb).testBit fb = false := Nat.testBit_lt_two_pow (by omega)
  have hv : value = 2 ^ fb + (value - 2 ^ fb) := by omega
  rw [continuationFlag, hv, Nat.testBit_two_pow_add_eq, hz]
  rfl

/-- What a chunk value carries, by its size: with the flag, the bits below it (R177). -/
theorem chunkBits_eq (len fb value : Nat) :
    chunkBits len fb value =
      if 2 ^ (fb + 1) ≤ value then .error .malformed
      else if value < 2 ^ fb then .ok (fb, value)
      else if fb < missingBits len + 8 ∨ 2 ^ missingBits len ≤ value - 2 ^ fb then .error .malformed
      else .ok (missingBits len, value - 2 ^ fb) := by
  by_cases hbig : 2 ^ (fb + 1) ≤ value
  · simp [chunkBits, hbig]
  · rw [if_neg hbig]
    by_cases hlt : value < 2 ^ fb
    · rw [if_pos hlt, chunkBits_unflagged _ _ _ hlt]
    · have hflag := (continuationFlag_iff fb value (by omega)).mpr (by omega)
      have hmod : value % 2 ^ fb = value - 2 ^ fb := by
        rw [Nat.pow_succ] at hbig
        rw [Nat.mod_eq_sub_mod (by omega), Nat.mod_eq_of_lt (by omega)]
      simp [chunkBits, hbig, hlt, hflag, hmod]

/-! ## The commands on a register that exists -/

section Register

variable {P : Config.Params} {r fb value : Nat} {s : State} {m : Msg} {st : Status} {h : Hdr} {pos : Nat}

theorem msgHeader_of_error (hm : s.msg? r = some m) (hn : needHeader m = .error st) :
    msgHeader r s = s.answer st .none [] := by
  simp [msgHeader, hm, hn, State.refuse]

theorem msgHeader_of_ok (hm : s.msg? r = some m) (hn : needHeader m = .ok h) :
    msgHeader r s = s.answer .ok (.bits (encHeader h)) [] := by
  simp [msgHeader, hm, hn, State.done]

theorem msgHdrlen_of_absent (hm : s.msg? r = some m) (ha : m.dst = none ∨ m.src = none) :
    msgHdrlen r s = s.answer .state .none [] := by
  rcases ha with ha | ha <;> simp [msgHdrlen, hm, ha, State.refuse]

theorem msgHdrlen_of_present {dst src : Int} (hm : s.msg? r = some m) (hd : m.dst = some dst)
    (hs : m.src = some src) : msgHdrlen r s = s.answer .ok (.num (headerLen dst src)) [] := by
  simp [msgHdrlen, hm, hd, hs, State.done]

theorem msgXchunk_of_width (hm : s.msg? r = some m) (hw : ¬ FrameBitsOk P fb) :
    msgXchunk P r fb s = s.answer .range .none [] := by
  rw [msgXchunk, withMsg_of_some s r _ m hm, if_pos hw]
  rfl

theorem msgXchunk_of_closed (hm : s.msg? r = some m) (hw : FrameBitsOk P fb) (hx : m.xpos = none) :
    msgXchunk P r fb s = s.answer .state .none [] := by
  rw [msgXchunk, withMsg_of_some s r _ m hm, if_neg (not_not_intro hw), hx]
  rfl

theorem msgXchunk_of_error (hm : s.msg? r = some m) (hw : FrameBitsOk P fb) (hx : m.xpos = some pos)
    (hn : needHeader m = .error st) : msgXchunk P r fb s = s.answer st .none [] := by
  rw [msgXchunk, withMsg_of_some s r _ m hm, if_neg (not_not_intro hw), hx]
  exact withHeader_of_error s m _ st hn

/-- With an extraction open and a header: END where no bit remains, and otherwise the chunk at the cursor (R172). -/
theorem msgXchunk_of_ok (hm : s.msg? r = some m) (hw : FrameBitsOk P fb) (hx : m.xpos = some pos)
    (hn : needHeader m = .ok h) :
    msgXchunk P r fb s =
      if (streamOf h m).length - pos = 0 then s.answer .ended .none []
      else
        (s.setMsg r { m with xpos := some (chunkAt (streamOf h m) pos ((streamOf h m).length - pos) fb).2 }).answer .ok
          (.num (chunkAt (streamOf h m) pos ((streamOf h m).length - pos) fb).1) [] := by
  rw [msgXchunk, withMsg_of_some s r _ m hm, if_neg (not_not_intro hw), hx]
  exact withHeader_of_ok s m _ h hn

/-- MSG.XCHUNK answers OK only with a chunk taken at an open cursor before the end of the stream (R172). -/
theorem msgXchunk_ok (hm : s.msg? r = some m) (hok : (msgXchunk P r fb s).status = some .ok) :
    ∃ pos h, needHeader m = .ok h ∧ (streamOf h m).length - pos ≠ 0 ∧
      msgXchunk P r fb s =
        (s.setMsg r { m with xpos := some (chunkAt (streamOf h m) pos ((streamOf h m).length - pos) fb).2 }).answer .ok
          (.num (chunkAt (streamOf h m) pos ((streamOf h m).length - pos) fb).1) [] := by
  have refused (st : Status) (hne : st ≠ .ok) (he : msgXchunk P r fb s = s.answer st .none []) : False := by
    simp [he, State.status, hne] at hok
  by_cases hw : FrameBitsOk P fb
  · cases hx : m.xpos with
    | none => exact (refused .state (by decide) (msgXchunk_of_closed hm hw hx)).elim
    | some pos =>
      cases hn : needHeader m with
      | error st =>
        refine (refused st ?_ (msgXchunk_of_error hm hw hx hn)).elim
        rcases needHeader_error m st hn with rfl | rfl <;> decide
      | ok h =>
        have he := msgXchunk_of_ok hm hw hx hn
        by_cases hk : (streamOf h m).length - pos = 0
        · exact (refused .ended (by decide) (he.trans (if_pos hk))).elim
        · exact ⟨pos, h, rfl, hk, he.trans (if_neg hk)⟩
  · exact (refused .range (by decide) (msgXchunk_of_width hm hw)).elim

theorem msgAchunk_of_width (hm : s.msg? r = some m) (hw : ¬ FrameBitsOk P fb) :
    msgAchunk P r fb value s = s.answer .range .none [] := by
  rw [msgAchunk, withMsg_of_some s r _ m hm, if_pos hw]
  rfl

theorem msgAchunk_of_error (hm : s.msg? r = some m) (hw : FrameBitsOk P fb)
    (hc : chunkBits m.buf.length fb value = .error st) : msgAchunk P r fb value s = s.answer st .none [] := by
  rw [msgAchunk, withMsg_of_some s r _ m hm, if_neg (not_not_intro hw), hc]
  rfl

/-- The bits of an accepted value are appended where the buffer's bound admits them (R177). -/
theorem msgAchunk_of_ok {n low : Nat} (hm : s.msg? r = some m) (hw : FrameBitsOk P fb)
    (hc : chunkBits m.buf.length fb value = .ok (n, low)) :
    msgAchunk P r fb value s =
      if bufMax < m.buf.length + n then s.answer .range .none []
      else (s.setMsg r (m.append (bitsOfNat n low))).answer .ok .none [] := by
  rw [msgAchunk, withMsg_of_some s r _ m hm, if_neg (not_not_intro hw), hc]
  rfl

/-- MSG.ACHUNK at a legal width, by the size of the value (R177). -/
theorem msgAchunk_eq (hm : s.msg? r = some m) (hw : FrameBitsOk P fb) :
    msgAchunk P r fb value s =
      if 2 ^ (fb + 1) ≤ value then s.answer .malformed .none []
      else if value < 2 ^ fb then
        if bufMax < m.buf.length + fb then s.answer .range .none []
        else (s.setMsg r (m.append (bitsOfNat fb value))).answer .ok .none []
      else if fb < missingBits m.buf.length + 8 ∨ 2 ^ missingBits m.buf.length ≤ value - 2 ^ fb then
        s.answer .malformed .none []
      else if bufMax < m.buf.length + missingBits m.buf.length then s.answer .range .none []
      else (s.setMsg r (m.append (bitsOfNat (missingBits m.buf.length) (value - 2 ^ fb)))).answer .ok .none [] := by
  have hc := chunkBits_eq m.buf.length fb value
  by_cases hbig : 2 ^ (fb + 1) ≤ value
  · rw [if_pos hbig] at hc ⊢
    exact msgAchunk_of_error hm hw hc
  · rw [if_neg hbig] at hc ⊢
    by_cases hlt : value < 2 ^ fb
    · rw [if_pos hlt] at hc ⊢
      exact msgAchunk_of_ok hm hw hc
    · rw [if_neg hlt] at hc ⊢
      by_cases hbad : fb < missingBits m.buf.length + 8 ∨ 2 ^ missingBits m.buf.length ≤ value - 2 ^ fb
      · rw [if_pos hbad] at hc ⊢
        exact msgAchunk_of_error hm hw hc
      · rw [if_neg hbad] at hc ⊢
        exact msgAchunk_of_ok hm hw hc

end Register

end Sys2Proof.Machine

namespace Sys2Proof.Settled

open Sys2Proof.Machine

/-- Settles O27: the refusals are those of `needHeader`, and the fields of the header are written out bit by bit. -/
theorem msgHeaderAndHdrlen : Obligations.MsgHeaderAndHdrlen := by
  intro r s m hm
  refine ⟨fun ha => (exec_eq_next_iff _ _ _).mpr (msgHeader_of_error hm (needHeader_of_absent m ha)),
    fun ha => (exec_eq_next_iff _ _ _).mpr (msgHdrlen_of_absent hm ha),
    fun dst src hd hs => ⟨(exec_eq_next_iff _ _ _).mpr ?_, fun code hc => ?_⟩⟩
  · rw [← headerLen_eq]
    exact msgHdrlen_of_present hm hd hs
  · intro address width
    refine (exec_eq_next_iff _ _ _).mpr ?_
    have hn := needHeader_of_present m ⟨dst, src, code⟩ hd hs hc
    by_cases hlt : code < 2 ^ width
    · rw [if_pos hlt, ← bitsOfNat_eq_map_testBit]
      exact msgHeader_of_ok hm (hn.trans (if_pos hlt))
    · rw [if_neg hlt]
      exact msgHeader_of_error hm (hn.trans (if_neg hlt))

/-- Settles O30: the chunk's three forms are `chunkAt`'s, and the bound of the cursor is the length of the stream. -/
theorem msgXchunk : Obligations.MsgXchunk := by
  intro r fb s m hm effect
  have heffect (P : Config.Params) : effect P (fun t => execWith P (.msgXchunk r fb) s = t) := by
    refine ⟨fun hw => msgXchunk_of_width hm (by omega), fun h1 h2 => ⟨msgXchunk_of_closed hm ⟨h1, h2⟩,
      fun pos hx => ⟨fun st hn => msgXchunk_of_error hm ⟨h1, h2⟩ hx hn, fun h hn => ?_⟩⟩⟩
    intro S k
    refine (msgXchunk_of_ok hm ⟨h1, h2⟩ hx hn).trans ?_
    change (if k = 0 then _ else (s.setMsg r { m with xpos := some (chunkAt S pos k fb).2 }).answer .ok
      (.num (chunkAt S pos k fb).1) []) = _
    refine if_congr Iff.rfl rfl ?_
    by_cases hf : fb ≤ k
    · rw [if_pos hf, chunkAt_full S pos k fb hf, memRead_eq]
    · rw [if_neg hf]
      by_cases hs : 8 ≤ fb - k
      · rw [if_pos hs, chunkAt_short S pos k fb (by omega), memRead_rest]
      · rw [if_neg hs, chunkAt_padded S pos k fb (by omega) (by omega), memRead_rest]
  simp only [exec_eq_next_iff]
  refine ⟨heffect defaultParams, fun P => ⟨heffect P, fun hok => ?_⟩⟩
  obtain ⟨pos, h, hn, hk, he⟩ := msgXchunk_ok hm hok
  have hle := (chunkAt_cursor_le (streamOf h m) pos fb hk).trans_eq (streamOf_length h m)
  have hr : r < s.msgs.length := (msg_isSome_iff s r).mp (by rw [hm]; rfl)
  refine ⟨_, _, (congrArg (State.msg? · r) he).trans (msg_setMsg_same s r _ hr), rfl, fun h' hn' => ?_, fun hb => ?_⟩
  · cases hn.symm.trans hn'
    exact hle
  · have := (hdrBits_mod h.dst h.src).2.2
    unfold streamLen at hle
    omega

/-- Settles O31: the width is tested first, then the value by its size. -/
theorem msgAchunk : Obligations.MsgAchunk := by
  intro r fb value s m hm effect
  have heffect (P : Config.Params) : effect P (fun t => execWith P (.msgAchunk r fb value) s = t) :=
    ⟨fun hw => msgAchunk_of_width hm (by omega), fun h1 h2 => msgAchunk_eq hm ⟨h1, h2⟩⟩
  simp only [exec_eq_next_iff]
  exact ⟨heffect defaultParams, heffect⟩

end Sys2Proof.Settled

/-! The window seen from one side (R38, R39): a span of sequence numbers from `tail` to `head`, at most half the window
long, and a table whose entries lie inside it. The sending side (`pend`) and the receiving side (`oor`) are the same
structure, and each operation of the engine moves it in one of the ways below. -/

namespace Sys2Proof.Machine

/-! ## Steps around the window -/

/-- One step of the head lengthens the span by one (R38). -/
theorem fwd_succ_left (W a b : Nat) (ha : a < W) (hb : b < W) (h : fwd W a b + 1 < W) :
    fwd W ((a + 1) % W) b = fwd W a b + 1 := by
  have e : (a + 1) % W = (b + (fwd W a b + 1)) % W := by
    conv_lhs => rw [← fwd_add W a b ha hb]
    rw [Nat.mod_add_mod, Nat.add_assoc]
  rw [e, fwd_of_add W b _ h]

/-- The distance from a later point on is what is left of the distance (R38). -/
theorem fwd_sub (W a r b : Nat) (ha : a < W) (hr : r < W) (hb : b < W) (h : fwd W r b ≤ fwd W a b) :
    fwd W a r = fwd W a b - fwd W r b := by
  rw [fwd_eq W a b ha hb, fwd_eq W r b hr hb] at h
  rw [fwd_eq W a r ha hr, fwd_eq W a b ha hb, fwd_eq W r b hr hb]
  split_ifs at h ⊢ <;> omega

/-- Only the tail itself is no step away from it. -/
theorem fwd_eq_zero_iff (W a b : Nat) (ha : a < W) (hb : b < W) : fwd W a b = 0 ↔ a = b := by
  rw [fwd_eq W a b ha hb]
  split_ifs <;> omega

/-! ## The span -/

/-- The span of one side of the window `W`, with its table in canonical form and inside the span (R38, R39, log 10). -/
structure SpanInv {α : Type} (W head tail : Nat) (t : Table α) : Prop where
  head_lt : head < W
  tail_lt : tail < W
  span_le : fwd W head tail ≤ W / 2
  wf : TableWf t
  mem : ∀ e ∈ t, e.1 < W ∧ fwd W e.1 tail < fwd W head tail

namespace SpanInv

variable {α : Type} {W head tail q : Nat} {t : Table α}

/-- A side that has exchanged nothing. -/
theorem clear (hW : 0 < W) : SpanInv W 0 0 ([] : Table α) where
  head_lt := hW
  tail_lt := hW
  span_le := by simp
  wf := .nil
  mem := by simp

/-- A write at a sequence number inside the span. -/
theorem set (h : SpanInv W head tail t) (hq : q < W) (hin : fwd W q tail < fwd W head tail) (v : α) :
    SpanInv W head tail (tableSet t q v) where
  head_lt := h.head_lt
  tail_lt := h.tail_lt
  span_le := h.span_le
  wf := tableSet_wf t q v h.wf
  mem e he := by
    rcases mem_tableSet t q v e he with rfl | he
    · exact ⟨hq, hin⟩
    · exact h.mem e he

theorem erase (h : SpanInv W head tail t) (q : Nat) : SpanInv W head tail (tableErase t q) where
  head_lt := h.head_lt
  tail_lt := h.tail_lt
  span_le := h.span_le
  wf := tableErase_wf t q h.wf
  mem e he := h.mem e ((mem_tableErase t q e).mp he).1

theorem eraseAll (h : SpanInv W head tail t) (qs : List Nat) : SpanInv W head tail (qs.foldl tableErase t) := by
  induction qs generalizing t with
  | nil => exact h
  | cons q qs ih => exact ih (h.erase q)

/-- The head moves to the place after `q`, which is at or beyond the old head but less than half a window from the tail
(R266, R284). -/
theorem extend (h : SpanInv W head tail t) (hq : q < W) (hbeyond : fwd W head tail ≤ fwd W q tail)
    (hhalf : fwd W q tail < W / 2) : SpanInv W ((q + 1) % W) tail t := by
  have hspan : fwd W ((q + 1) % W) tail = fwd W q tail + 1 := fwd_succ_left W q tail hq h.tail_lt (by omega)
  refine ⟨Nat.mod_lt _ (by omega), h.tail_lt, by omega, h.wf, fun e he => ?_⟩
  obtain ⟨hlt, hin⟩ := h.mem e he
  exact ⟨hlt, by omega⟩

/-- The head takes one step and an entry is written where it stood (R266). -/
theorem push (h : SpanInv W head tail t) (hspace : fwd W head tail < W / 2) (v : α) :
    SpanInv W ((head + 1) % W) tail (tableSet t head v) := by
  refine (h.extend h.head_lt (Nat.le_refl _) hspace).set h.head_lt ?_ v
  rw [fwd_succ_left W head tail h.head_lt h.tail_lt (by omega)]
  omega

/-- The tail moves on to `r`, which no entry is short of (R281, R285). -/
theorem advance (h : SpanInv W head tail t) {r : Nat} (hr : r < W) (hin : fwd W r tail ≤ fwd W head tail)
    (hfree : ∀ e ∈ t, fwd W r tail ≤ fwd W e.1 tail) : SpanInv W head r t := by
  have hspan := fwd_sub W head r tail h.head_lt hr h.tail_lt hin
  refine ⟨h.head_lt, hr, by have := h.span_le; omega, h.wf, fun e he => ?_⟩
  obtain ⟨hlt, hlt'⟩ := h.mem e he
  have hdist := fwd_sub W e.1 r tail hlt hr h.tail_lt (hfree e he)
  have := hfree e he
  exact ⟨hlt, by omega⟩

/-- Nothing is read at the tail exactly when every entry lies beyond it (R39 (b)). -/
theorem gap_iff (h : SpanInv W head tail t) : tableGet t tail = none ↔ ∀ e ∈ t, 0 < fwd W e.1 tail := by
  rw [tableGet_eq_none_iff]
  refine forall₂_congr fun e he => ?_
  rw [Nat.pos_iff_ne_zero]
  exact (not_congr (fwd_eq_zero_iff W e.1 tail (h.mem e he).1 h.tail_lt)).symm

/-- The entry at the tail leaves and the tail moves behind it (R285). -/
theorem dropTail (h : SpanInv W head tail t) {v : α} (hget : tableGet t tail = some v) :
    SpanInv W head ((tail + 1) % W) (tableErase t tail) := by
  have hfull := (h.mem _ (mem_of_tableGet _ _ _ hget)).2
  have hspan := h.span_le
  have htail := h.tail_lt
  have hone : fwd W ((tail + 1) % W) tail = 1 := fwd_of_add W tail 1 (by omega)
  refine (h.erase tail).advance (Nat.mod_lt _ (by omega)) (by omega) fun e he => ?_
  obtain ⟨hmem, hne⟩ := (mem_tableErase _ _ _).mp he
  have := (fwd_eq_zero_iff W e.1 tail (h.mem e hmem).1 htail).not.mpr hne
  omega

end SpanInv

/-! ## The list `x` -/

/-- `q` is buffered 1 to `rspan - 1` steps beyond `recv_tail` (R264). -/
def Arq.Buffered (a : Arq) (q : Nat) : Prop :=
  q < a.window ∧ 1 ≤ fwd a.window q a.recvTail ∧ fwd a.window q a.recvTail < a.rspan ∧ tableGet a.oor q ≠ none

/-- `XList` names exactly what is buffered beyond `recv_tail` (R264). -/
theorem mem_xList_iff_buffered (a : Arq) (ht : a.recvTail < a.window) (q : Nat) : q ∈ a.xList ↔ a.Buffered q := by
  have hspan : a.rspan < a.window := fwd_lt a.window a.recvHead a.recvTail (by omega)
  rw [mem_xList, Option.isSome_iff_ne_none]
  constructor
  · rintro ⟨⟨i, h1, h2, rfl⟩, hq⟩
    refine ⟨Nat.mod_lt _ (by omega), ?_, ?_, hq⟩ <;> rw [fwd_of_add _ _ _ (by omega)] <;> assumption
  · rintro ⟨hlt, h1, h2, hq⟩
    exact ⟨⟨_, h1, h2, (fwd_add _ _ _ hlt ht).symm⟩, hq⟩

/-- `XList` ascends from `recv_tail` (R264). -/
theorem xList_ascending (a : Arq) (hw : 0 < a.window) :
    a.xList.Pairwise fun p q => fwd a.window p a.recvTail < fwd a.window q a.recvTail := by
  have hspan : a.rspan < a.window := fwd_lt a.window a.recvHead a.recvTail hw
  refine List.Pairwise.filter _ (List.pairwise_map.mpr (List.pairwise_lt_range.imp_of_mem fun hi hj hij => ?_))
  have := List.mem_range.mp hi
  have := List.mem_range.mp hj
  rw [fwd_of_add _ _ _ (by omega), fwd_of_add _ _ _ (by omega)]
  omega

/-- Under R39 (b) all that `oor` holds lies beyond `recv_tail`. -/
theorem buffered_iff_of_oorInv (a : Arq) (h : OorInv a) (q : Nat) : a.Buffered q ↔ tableGet a.oor q ≠ none := by
  refine ⟨fun ⟨_, _, _, hq⟩ => hq, fun hq => ?_⟩
  obtain ⟨v, hv⟩ := Option.ne_none_iff_exists'.mp hq
  obtain ⟨hlt, h1, h2⟩ := h.2 _ (mem_of_tableGet _ _ _ hv)
  exact ⟨hlt, h1, h2, hq⟩

theorem xField_eq_none_iff (a : Arq) : a.xField = none ↔ ∀ q, q ∉ a.xList := by
  rw [← List.eq_nil_iff_forall_not_mem, Arq.xField]
  split_ifs with h <;> simp [h]

theorem xField_eq_some_iff (a : Arq) (L : List Nat) : a.xField = some L ↔ a.xList ≠ [] ∧ a.xList = L := by
  rw [Arq.xField]
  split_ifs with h <;> simp [h]

end Sys2Proof.Machine

namespace Sys2Proof.Settled

open Sys2Proof.Machine

/-- Settles O46, by the laws of `fwd`. -/
theorem sequenceArithmetic : Obligations.SequenceArithmetic := by
  refine ⟨fun W a b ha hb => ⟨fwd_lt W a b (by omega), fwd_add W a b ha hb⟩, fun P a h => ?_⟩
  obtain ⟨-, -, -, hsh, hst, hrh, hrt, -⟩ := h
  exact ⟨rfl, fwd_lt _ _ _ (by omega), fwd_add _ _ _ hsh hst, fwd_lt _ _ _ (by omega), fwd_add _ _ _ hrh hrt⟩

/-- Settles O47: `XList` names what is buffered beyond `recv_tail`, and by R39 (b) nothing else is buffered. -/
theorem arqSelectiveList : Obligations.ArqSelectiveList := by
  intro P a hr buffered
  obtain ⟨-, -, -, -, -, -, htail, -⟩ := hr
  have hmem : ∀ q, q ∈ a.xList ↔ buffered q := mem_xList_iff_buffered a htail
  refine ⟨?_, fun L hL => ?_, fun ⟨_, _, _, hoor, _, _, _⟩ => buffered_iff_of_oorInv a hoor⟩
  · rw [xField_eq_none_iff]
    exact forall_congr' fun q => not_congr (hmem q)
  · obtain ⟨hne, rfl⟩ := (xField_eq_some_iff a L).mp hL
    exact ⟨hne, hmem, xList_ascending a (by omega)⟩

/-- Settles O12: the reset values are written out as R43 lists them. -/
theorem resetValues : Obligations.ResetValues := ⟨fun _ _ => rfl, rfl, rfl, rfl⟩

end Sys2Proof.Settled

/-! What the decoder gives fits its fields (R100, R101), and what the codec's operations keep of a message (R21, R25,
R26). -/

namespace Sys2Proof

/-! ## The decoder's fields -/

theorem field_lt (w : Word) (hi lo : Nat) : field w hi lo < 2 ^ (hi + 1 - lo) := Nat.mod_lt _ (Nat.two_pow_pos _)

theorem regOf_lt (w : Word) : regOf w < 4 := field_lt w 23 22

/-- An 8-bit immediate is an address of its field (R100). -/
theorem sext8_range (v : Nat) (h : v < 256) : AddrField (sext8 v) := by
  unfold AddrField sext8
  split <;> omega

theorem needZero_eq_ok (w : Word) (hi lo : Nat) (i j : Instr) (h : needZero w hi lo i = .ok j) : i = j := by
  unfold needZero at h
  split at h <;> cases h
  rfl

/-- Every immediate of a decoded command fits its field (R101). -/
theorem decode_wellFormed (w : Word) (i : Instr) (h : decode w = .ok i) : i.wellFormed = true := by
  have hreg := regOf_lt w
  have hdst := sext8_range _ (field_lt w 15 8)
  have hsrc := sext8_range _ (field_lt w 7 0)
  have hcode : field w 7 0 < 256 := field_lt w 7 0
  have hcount : field w 18 0 < 524288 := field_lt w 18 0
  have hwidth : field w 4 0 < 32 := field_lt w 4 0
  have hachunk : field w 21 17 < 32 ∧ field w 16 0 < 131072 := ⟨field_lt w 21 17, field_lt w 16 0⟩
  have hopen : field w 23 16 < 256 ∧ field w 15 0 < 65536 := ⟨field_lt w 23 16, field_lt w 15 0⟩
  unfold decode at h
  split at h
  case h_31 => cases h
  case h_17 =>
    cases h
    simp [Instr.wellFormed, hreg, hachunk]
  case h_23 =>
    cases h
    simp [Instr.wellFormed, hopen]
  all_goals
    obtain rfl := needZero_eq_ok _ _ _ _ _ h
    simp [Instr.wellFormed, hreg, hdst, hsrc, hcode, hcount, hwidth]

end Sys2Proof

namespace Sys2Proof.Machine

/-! ## The header a buffer is split at -/

theorem uint_slice_lt (B : Bits) (i n : Nat) : uint (slice B i (i + n)) < 2 ^ n :=
  memRead_lt B i n

/-- An address field read at its tag bit is an address (R91, R92). -/
theorem decAddr_slice_ok (B : Bits) (i : Nat) (t : Bool) (h : B[i]? = some t) :
    addrOk (some (decAddr (slice B i (i + tagW t)))) = true := by
  obtain ⟨hi, ht⟩ := List.getElem?_eq_some_iff.mp h
  have hrest (n : Nat) : uint ((B.drop (i + 1)).take n) < 2 ^ n := by
    rw [← memRead_eq]
    exact memRead_lt B (i + 1) n
  have hcons (n : Nat) : slice B i (i + (n + 1)) = t :: (B.drop (i + 1)).take n := by
    rw [slice, Nat.add_sub_cancel_left, List.drop_eq_getElem_cons hi, ht, List.take_succ_cons]
  cases t with
  | true =>
    have := hrest 2
    simp only [tagW, if_true, hcons, decAddr, addrOk, Bool.and_eq_true, decide_eq_true_eq]
    omega
  | false =>
    have := hrest 7
    simp only [tagW, Bool.false_eq_true, if_false, hcons, decAddr, uint_cons, addrOk, Bool.and_eq_true,
      decide_eq_true_eq, Bool.toNat_false]
    omega

/-- The fields of a detected header are in their ranges (R21, R176). -/
theorem headerSplit_ranges (b : Bits) (h : Hdr) (rest : Bits) (hs : headerSplit b = some (h, rest)) :
    addrOk (some h.dst) = true ∧ addrOk (some h.src) = true ∧ codeOk (some h.code) = true := by
  unfold headerSplit at hs
  split at hs
  · cases hs
  · rename_i t1 h1
    split at hs
    · cases hs
    · rename_i t2 h2
      split at hs
      · cases hs
        have hdst := decAddr_slice_ok b 0 t1 h1
        rw [Nat.zero_add] at hdst
        refine ⟨hdst, decAddr_slice_ok b _ t2 h2, decide_eq_true ?_⟩
        have hwidth : tagHdrBits t1 t2 = tagW t1 + tagW t2 + (tagHdrBits t1 t2 - (tagW t1 + tagW t2)) ∧
            tagHdrBits t1 t2 - (tagW t1 + tagW t2) ≤ 8 := by
          cases t1 <;> cases t2 <;> decide
        rw [hwidth.1]
        exact Nat.lt_of_lt_of_le (uint_slice_lt b _ _) (Nat.pow_le_pow_right (by decide) hwidth.2)
      · cases hs

/-- The append never makes the buffer longer than by the bits appended (R176). -/
theorem append_length_le (m : Msg) (B : Bits) : (m.append B).buf.length ≤ m.buf.length + B.length := by
  rcases append_cases m B with he | ⟨h, rest, -, hs, he⟩
  · rw [he, List.length_append]
  · obtain ⟨n, -, -, rfl⟩ := headerSplit_rest _ h rest hs
    rw [he, List.length_drop, List.length_append]
    omega

/-! ## The message registers -/

/-- What the invariant says of an open extraction (R26; logs 7, 18). -/
theorem cursorOk_iff (m : Msg) :
    cursorOk m = true ↔
      ∀ pos, m.xpos = some pos → ∃ h, needHeader m = .ok h ∧
        pos ≤ hdrBits h.dst h.src + 8 * (m.buf.length / 8) + 7 ∧ pos ≤ 24 + bufMax := by
  unfold cursorOk
  cases m.xpos with
  | none => simp
  | some pos => cases needHeader m <;> simp

theorem cursorOk_of_closed (m : Msg) (h : m.xpos = none) : cursorOk m = true := by simp [cursorOk, h]

theorem msgInv_empty : MsgInv Msg.empty := by decide

/-- Another buffer of no fewer whole bytes leaves the cursor inside the message (R164, R178). -/
theorem MsgInv.setBuf {m : Msg} (h : MsgInv m) {buf : Bits} (hmax : buf.length ≤ bufMax)
    (hlen : m.buf.length / 8 ≤ buf.length / 8) : MsgInv { m with buf := buf } := by
  obtain ⟨hdst, hsrc, hcode, -, hcur⟩ := h
  refine ⟨hdst, hsrc, hcode, hmax, (cursorOk_iff _).mpr fun pos hx => ?_⟩
  obtain ⟨hd, hn, hpos, hbound⟩ := (cursorOk_iff m).mp hcur pos hx
  exact ⟨hd, hn, hpos.trans (by show _ ≤ _ + 8 * (buf.length / 8) + 7; omega), hbound⟩

/-- The cursor of a message with a header may stand anywhere in its stream (R26, R171, R172). -/
theorem MsgInv.setCursor {m : Msg} (h : MsgInv m) {hd : Hdr} (hn : needHeader m = .ok hd) {pos : Nat}
    (hpos : pos ≤ streamLen hd m) : MsgInv { m with xpos := some pos } := by
  obtain ⟨hdst, hsrc, hcode, hmax, -⟩ := h
  refine ⟨hdst, hsrc, hcode, hmax, (cursorOk_iff _).mpr fun pos' hx => ?_⟩
  cases hx
  have hbits := (hdrBits_mod hd.dst hd.src).2.2
  rw [streamLen] at hpos
  exact ⟨hd, hn, by show pos ≤ _ + 8 * (m.buf.length / 8) + 7; omega, by omega⟩

/-- A message without a header has no extraction open (R26). -/
theorem MsgInv.closed_of_incomplete {m : Msg} (h : MsgInv m) (hc : m.code = none) : m.xpos = none := by
  obtain ⟨-, -, -, -, hcur⟩ := h
  cases hx : m.xpos with
  | none => rfl
  | some pos =>
    obtain ⟨hd, hn, -⟩ := (cursorOk_iff m).mp hcur pos hx
    rw [needHeader_of_absent m (.inr (.inr hc))] at hn
    cases hn

/-- The header-detecting append keeps the ranges where the buffer's bound admits the bits (R176, R177). -/
theorem MsgInv.append {m : Msg} (h : MsgInv m) {B : Bits} (hmax : m.buf.length + B.length ≤ bufMax) :
    MsgInv (m.append B) := by
  have hlen := (append_length_le m B).trans hmax
  rcases append_cases m B with he | ⟨hd, rest, hc, hs, he⟩ <;> rw [he] at hlen ⊢
  · exact h.setBuf hlen (by rw [List.length_append]; omega)
  · obtain ⟨hdst, hsrc, hcode⟩ := headerSplit_ranges _ hd rest hs
    exact ⟨hdst, hsrc, hcode, hlen, cursorOk_of_closed _ (h.closed_of_incomplete hc)⟩

/-! ## The framer's messages -/

theorem framerMsgInv_empty (bits : Nat) : FramerMsgInv Msg.empty bits :=
  ⟨rfl, rfl, rfl, ⟨rfl, rfl⟩, rfl, rfl, Nat.zero_le _⟩

/-- One body byte appended keeps the framer's message whole (R33, R214). -/
theorem FramerMsgInv.append {m : Msg} {bits : Nat} (h : FramerMsgInv m bits) (b : Byte) (bits' : Nat)
    (hmax : m.buf.length + 8 ≤ bits') : FramerMsgInv (m.append (byteBits b)) bits' := by
  obtain ⟨hdst, hsrc, hcode, hall, hx, hmod, -⟩ := h
  have hlen := append_length_le m (byteBits b)
  have hxpos : (m.append (byteBits b)).xpos = none := (append_xpos m _).trans hx
  rw [byteBits_length] at hlen
  rcases append_cases m (byteBits b) with he | ⟨hd, rest, -, hs, he⟩ <;> rw [he] at hlen hxpos ⊢
  · exact ⟨hdst, hsrc, hcode, hall, hxpos, by simp [hmod], hlen.trans hmax⟩
  · obtain ⟨hdst', hsrc', hcode'⟩ := headerSplit_ranges _ hd rest hs
    refine ⟨hdst', hsrc', hcode', ⟨rfl, rfl⟩, hxpos, ?_, hlen.trans hmax⟩
    obtain ⟨n, hn, hle, rfl⟩ := headerSplit_rest _ hd rest hs
    rw [List.length_append, byteBits_length] at hle
    show (List.drop n _).length % 8 = 0
    rw [List.length_drop, List.length_append, byteBits_length]
    rcases hn with rfl | rfl | rfl <;> omega

end Sys2Proof.Machine

/-! The framer keeps its invariants (R30, R33, R35): one lemma per receive state, one for the timeout in each of its
cases. -/

namespace Sys2Proof.Machine

/-- The framer's invariants but for R35 (a), which `SyncTimeout` restores at the end of every command (R204). -/
structure RxInv (P : Config.Params) (f : Frm) : Prop where
  line : LineInv f
  utf8 : Utf8Inv f
  len : LenInv f
  idle : IdleInv f
  ranges : FrmRanges P f
  assembly : AssemblyInv f
  hold : HoldInv f

theorem frmInv_iff (P : Config.Params) (f : Frm) : FrmInv P f ↔ TimeoutInv f ∧ RxInv P f :=
  ⟨fun ⟨ht, hli, hu, hle, hi, hr, ha, hh⟩ => ⟨ht, hli, hu, hle, hi, hr, ha, hh⟩,
    fun ⟨ht, hli, hu, hle, hi, hr, ha, hh⟩ => ⟨ht, hli, hu, hle, hi, hr, ha, hh⟩⟩

/-- R35 (c) outside a run. -/
theorem utf8Inv_of_closed {f : Frm} (hrem : f.utf8Rem = 0) (hs : f.s ≠ .utf8) : Utf8Inv f :=
  ⟨fun h => absurd h (by omega), fun h => absurd h hs⟩

theorem frmInv_reset (P : Config.Params) : FrmInv P (Frm.reset P) :=
  ⟨rfl, nofun, utf8Inv_of_closed rfl nofun, nofun, fun _ => rfl,
    ⟨Nat.zero_le _, Nat.zero_le _, Nat.zero_le _, Nat.zero_le _, Nat.zero_le _⟩,
    ⟨framerMsgInv_empty _, nofun, .inr (.inr (.inr rfl))⟩, framerMsgInv_empty _, nofun, fun _ => rfl⟩

/-- Accepting a frame makes its message the held one; the other outcomes write nothing (R216 to R220). -/
theorem frameOutcome_st (x : Acc Frm) :
    (frameOutcome x).st = x.st ∨
      (x.st.mIn.code.isSome = true ∧
        (frameOutcome x).st =
          { x.st with hold := { x.st.mIn with prio := x.st.prioIn, xpos := none }, holdValid := true }) := by
  rcases frameOutcome_cases x with ⟨-, he⟩ | ⟨-, -, he⟩ | ⟨-, -, -, he⟩ | ⟨-, hc, -, he⟩ <;> rw [he]
  · exact .inl rfl
  · exact .inl rfl
  · exact .inl rfl
  · exact .inr ⟨hc, rfl⟩

namespace RxInv

variable {P : Config.Params} {f : Frm} {x : Acc Frm}

/-- `SyncTimeout` brings the timeout to what R35 (a) says and writes nothing else (R204). -/
theorem syncTimeout (h : RxInv P x.st) : FrmInv P (syncTimeout x).st := by
  rw [syncTimeout_st]
  exact (frmInv_iff P _).mpr ⟨rfl, h.line, h.utf8, h.len, h.idle, h.ranges, h.assembly, h.hold⟩

/-- Outside a frame the console line may be any within its bound, of any age within its bound (R30, R35 (b)). -/
theorem setLine (h : RxInv P f) {line : Bytes} {age : Nat} (hframe : inFrame f.s = true → line = [])
    (hline : line.length ≤ P.lineMax) (hage : age ≤ P.lineStaleTicks) :
    RxInv P { f with line := line, lineAge := age } := by
  obtain ⟨hlen, hidle, -, -, hrun⟩ := h.ranges
  exact ⟨hframe, h.utf8, h.len, h.idle, ⟨hlen, hidle, hline, hage, hrun⟩, h.assembly, h.hold⟩

theorem flushLine (h : RxInv P x.st) : RxInv P (flushLine x).st := by
  rw [flushLine_st]
  exact h.setLine (fun _ => rfl) (Nat.zero_le _) (Nat.zero_le _)

/-- Outside a frame `PutLine` keeps the line within `LINE_MAX`, which is at least 1 (R203). -/
theorem putLine (h : RxInv P x.st) (hframe : inFrame x.st.s = false) (hmax : 1 ≤ P.lineMax) (b : Byte) :
    RxInv P (putLine P b x).st := by
  obtain ⟨-, -, hline, -, -⟩ := h.ranges
  rw [putLine_st]
  refine h.setLine (by simp [hframe]) ?_ (Nat.zero_le _)
  rw [List.length_append, List.length_singleton]
  split_ifs with hfull
  · simpa using hmax
  · omega

/-- The count of idle timeouts may be cleared in any state (R205). -/
theorem clearIdle (h : RxInv P f) : RxInv P { f with idleCnt := 0 } := by
  obtain ⟨hlen, -, hline, hage, hrun⟩ := h.ranges
  exact ⟨h.line, h.utf8, h.len, fun _ => rfl, ⟨hlen, Nat.zero_le _, hline, hage, hrun⟩, h.assembly, h.hold⟩

/-- Outside the body and CRC states nothing is under assembly. -/
theorem mIn_eq_empty (h : RxInv P f) (hd : f.s ≠ .data) (h1 : f.s ≠ .crc1) (h2 : f.s ≠ .crc2) : f.mIn = Msg.empty := by
  obtain ⟨-, -, hs⟩ := h.assembly
  simpa [hd, h1, h2] using hs

/-- No UTF-8 run is open outside `Utf8` (R35 (c)). -/
theorem utf8Rem_eq_zero (h : RxInv P f) (hs : f.s ≠ .utf8) : f.utf8Rem = 0 := by
  have := h.utf8
  by_contra hne
  exact hs (this.mp (by omega))

/-! ### The receive states -/

theorem rxIdle (h : RxInv P x.st) (hs : x.st.s = .idle) (hmax : 1 ≤ P.lineMax) (b : Byte) :
    RxInv P (rxIdle P b x).st := by
  have hempty := h.mIn_eq_empty (by simp [hs]) (by simp [hs]) (by simp [hs])
  have hrem := h.utf8Rem_eq_zero (by simp [hs])
  unfold Machine.rxIdle
  rcases classify_cases P b with
    ⟨-, hc⟩ | ⟨p, -, -, hc⟩ | ⟨-, -, hlead, hc⟩ | ⟨-, -, -, -, hc⟩ | ⟨-, -, -, -, -, hc⟩ <;> rw [hc] <;> dsimp only
  · exact h
  · have hf := h.flushLine
    obtain ⟨-, hidle, hline, hage, -⟩ := hf.ranges
    have hrem' : (Machine.flushLine x).st.utf8Rem = 0 := by simpa using hrem
    exact ⟨fun _ => by simp, utf8Inv_of_closed hrem' nofun, nofun, nofun,
      ⟨Nat.zero_le _, hidle, hline, hage, hrem'.le.trans (Nat.zero_le _)⟩,
      ⟨framerMsgInv_empty _, nofun, .inr (.inr (.inr rfl))⟩, hf.hold⟩
  · have hp := h.putLine (by simp [hs, inFrame]) hmax b
    obtain ⟨hrun1, hrun7⟩ := runLength_range b hlead
    obtain ⟨hlen, hidle, hline, hage, -⟩ := hp.ranges
    exact ⟨nofun, ⟨fun _ => rfl, fun _ => hrun1⟩, nofun, nofun, ⟨hlen, hidle, hline, hage, hrun7⟩,
      ⟨hp.assembly.1, nofun, .inr (.inr (.inr (by simpa using hempty)))⟩, hp.hold⟩
  · exact h.flushLine
  · exact h.putLine (by simp [hs, inFrame]) hmax b

/-- `EnterBody` with a length in its range and nothing assembled (R213). -/
theorem enterBody (h : RxInv P x.st) (hs : x.st.s = .len ∨ x.st.s = .len2) {n : Nat} (hn : n ≤ 32767) :
    RxInv P { x.st with lenIn := n, crc := P.crcInit, s := if n = 0 then .crc1 else .data } := by
  have hempty := h.mIn_eq_empty (by rcases hs with hs | hs <;> simp [hs]) (by rcases hs with hs | hs <;> simp [hs])
    (by rcases hs with hs | hs <;> simp [hs])
  have hrem := h.utf8Rem_eq_zero (by rcases hs with hs | hs <;> simp [hs])
  have hline := h.line (by rcases hs with hs | hs <;> simp [hs, inFrame])
  obtain ⟨-, hidle, hmax, hage, hrun⟩ := h.ranges
  refine ⟨fun _ => hline, utf8Inv_of_closed hrem ?_, ?_, ?_, ⟨hn, hidle, hmax, hage, hrun⟩,
    ⟨h.assembly.1, fun _ => ?_, .inr (.inr (.inr hempty))⟩, h.hold⟩
  · split_ifs <;> simp
  · split_ifs <;> simp [LenInv]; omega
  · split_ifs <;> simp [IdleInv]
  · show x.st.mIn.buf.length + 8 * n ≤ 8 * 32767
    rw [hempty]
    simp only [empty_buf, List.length_nil]
    omega

theorem rxLen (h : RxInv P x.st) (hs : x.st.s = .len) (b : Byte) : RxInv P (rxLen P b x).st := by
  obtain ⟨-, ⟨hb, he⟩ | ⟨hb, he⟩⟩ := rxLen_cases P b x <;> rw [he]
  · exact h.enterBody (.inl hs) (by omega)
  · have hempty := h.mIn_eq_empty (by simp [hs]) (by simp [hs]) (by simp [hs])
    have hrem := h.utf8Rem_eq_zero (by simp [hs])
    have hlt := b.isLt
    obtain ⟨-, hidle, hmax, hage, hrun⟩ := h.ranges
    exact ⟨fun _ => h.line (by simp [hs, inFrame]), utf8Inv_of_closed hrem nofun, nofun, nofun,
      ⟨by show (b.toNat - 128) * 256 ≤ 32767; omega, hidle, hmax, hage, hrun⟩,
      ⟨h.assembly.1, nofun, .inr (.inr (.inr hempty))⟩, h.hold⟩

/-- The two length bytes make a length of at most 15 bits (R95, R212). -/
theorem rxLen2 (h : RxInv P x.st) (hs : x.st.s = .len2) (b : Byte) : RxInv P (rxLen2 P b x).st := by
  have hlen : x.st.lenIn ≤ 32767 := h.ranges.1
  have hor : x.st.lenIn ||| b.toNat < 2 ^ 15 := Nat.or_lt_two_pow (by omega) (by omega)
  rw [rxLen2_st]
  exact h.enterBody (.inr hs) (by omega)

theorem rxData (h : RxInv P x.st) (hs : x.st.s = .data) (b : Byte) : RxInv P (rxData P b x).st := by
  have hpos := h.len hs
  have hrem := h.utf8Rem_eq_zero (by simp [hs])
  obtain ⟨hmsg, hroom, -⟩ := h.assembly
  obtain ⟨hlen, hidle, hmax, hage, hrun⟩ := h.ranges
  have hroom := hroom hs
  have hlen' : x.st.lenIn - 1 ≤ lenMax := (Nat.sub_le _ _).trans hlen
  have happ := append_length_le x.st.mIn (byteBits b)
  rw [byteBits_length] at happ
  rw [rxData_st, hs]
  refine ⟨fun _ => h.line (by simp [hs, inFrame]), utf8Inv_of_closed hrem ?_, ?_, ?_,
    ⟨hlen', hidle, hmax, hage, hrun⟩, ⟨hmsg.append b _ (by omega), fun _ => ?_, ?_⟩, h.hold⟩
  · split_ifs <;> simp
  · split_ifs <;> simp [LenInv]; omega
  · split_ifs <;> simp [IdleInv]
  · show (x.st.mIn.append (byteBits b)).buf.length + 8 * (x.st.lenIn - 1) ≤ _
    omega
  · split_ifs <;> simp

theorem rxCrc1 (h : RxInv P x.st) (hs : x.st.s = .crc1) (b : Byte) : RxInv P (rxCrc1 P b x).st := by
  have hrem := h.utf8Rem_eq_zero (by simp [hs])
  exact ⟨fun _ => h.line (by simp [hs, inFrame]), utf8Inv_of_closed hrem nofun, nofun, nofun, h.ranges,
    ⟨h.assembly.1, nofun, .inr (.inr (.inl rfl))⟩, h.hold⟩

theorem rxCrc2 (h : RxInv P x.st) (hs : x.st.s = .crc2) (hidle : x.st.idleCnt = 0) (b : Byte) :
    RxInv P (rxCrc2 b x).st := by
  have hrem := h.utf8Rem_eq_zero (by simp [hs])
  obtain ⟨hdst, hsrc, hcode, hall, -, hmod, hmax⟩ := h.assembly.1
  unfold Machine.rxCrc2
  rcases frameOutcome_st (x.upd fun f => { f with res := f.res ^^^ b.zeroExtend 16, s := .idle }) with he | ⟨hc, he⟩ <;>
    rw [acc_upd_st, he]
  · exact ⟨nofun, utf8Inv_of_closed hrem nofun, nofun, fun _ => hidle, h.ranges,
      ⟨framerMsgInv_empty _, nofun, .inr (.inr (.inr rfl))⟩, h.hold⟩
  · exact ⟨nofun, utf8Inv_of_closed hrem nofun, nofun, fun _ => hidle, h.ranges,
      ⟨framerMsgInv_empty _, nofun, .inr (.inr (.inr rfl))⟩,
      ⟨hdst, hsrc, hcode, hall, rfl, hmod, hmax⟩, fun _ => hc, nofun⟩

theorem rxUtf8 (h : RxInv P x.st) (hs : x.st.s = .utf8) (hidle : x.st.idleCnt = 0) (hmax : 1 ≤ P.lineMax) (b : Byte) :
    RxInv P (rxUtf8 P b x).st := by
  have hp := h.putLine (by simp [hs, inFrame]) hmax b
  have hempty := h.mIn_eq_empty (by simp [hs]) (by simp [hs]) (by simp [hs])
  obtain ⟨hlen, hcnt, hline, hage, hrun⟩ := hp.ranges
  rw [rxUtf8_st, hs]
  rw [putLine_st] at *
  refine ⟨?_, ?_, ?_, fun _ => hidle, ⟨hlen, hcnt, hline, hage, ?_⟩,
    ⟨hp.assembly.1, ?_, .inr (.inr (.inr hempty))⟩, hp.hold⟩
  · split_ifs <;> simp [LineInv, inFrame]
  · split_ifs <;> simp [Utf8Inv] <;> omega
  · split_ifs <;> simp [LenInv]
  · show x.st.utf8Rem - 1 ≤ 7
    change x.st.utf8Rem ≤ 7 at hrun
    omega
  · split_ifs <;> simp

end RxInv

/-- One received byte keeps the framer's invariants, where the console line holds at least a byte (R205). -/
theorem rxByte_inv {P : Config.Params} {f : Frm} (h : FrmInv P f) (hmax : 1 ≤ P.lineMax) (b : Byte) :
    FrmInv P (rxByte P b f).st := by
  have hx : RxInv P (Acc.start { f with idleCnt := 0 }).st := ((frmInv_iff P f).mp h).2.clearIdle
  refine RxInv.syncTimeout ?_
  unfold rxByState
  split
  case h_1 hs => exact hx.rxIdle hs hmax b
  case h_2 hs => exact hx.rxUtf8 hs rfl hmax b
  case h_3 hs => exact hx.rxLen hs b
  case h_4 hs => exact hx.rxLen2 hs b
  case h_5 hs => exact hx.rxData hs b
  case h_6 hs => exact hx.rxCrc1 hs b
  case h_7 hs => exact hx.rxCrc2 hs rfl b

/-! ## The periodic timeout -/

/-- The partial frame or run is given up: `Idle` with nothing assembled, and a run's line handed over (R222). -/
theorem lostFrame_st (x : Acc Frm) :
    (lostFrame x).st =
      { x.st with
        line := if x.st.s = .utf8 then [] else x.st.line
        lineAge := if x.st.s = .utf8 then 0 else x.st.lineAge
        mIn := Msg.empty, lenIn := 0, utf8Rem := 0, idleCnt := 0, s := .idle } := by
  unfold lostFrame
  by_cases hs : x.st.s = .utf8 <;> simp [hs]

namespace RxInv

variable {P : Config.Params} {x : Acc Frm}

theorem timeoutBusy (h : RxInv P x.st) (hs : x.st.s ≠ .idle) : RxInv P (timeoutBusy x).st := by
  obtain ⟨hlen, -, hline, hage, hrun⟩ := h.ranges
  unfold Machine.timeoutBusy
  dsimp only
  split
  · rw [lostFrame_st]
    refine ⟨nofun, utf8Inv_of_closed rfl nofun, nofun, fun _ => rfl,
      ⟨Nat.zero_le _, Nat.zero_le _, ?_, ?_, Nat.zero_le _⟩,
      ⟨framerMsgInv_empty _, nofun, .inr (.inr (.inr rfl))⟩, h.hold⟩ <;> dsimp only <;> split_ifs
    · exact Nat.zero_le _
    · exact hline
    · exact Nat.zero_le _
    · exact hage
  · rename_i hcnt
    exact ⟨h.line, h.utf8, h.len, fun hi => absurd hi hs, ⟨hlen, Nat.le_of_not_lt hcnt, hline, hage, hrun⟩, h.assembly,
      h.hold⟩

theorem timeoutIdle (h : RxInv P x.st) (hs : x.st.s = .idle) : RxInv P (timeoutIdle P x).st := by
  obtain ⟨-, -, hline, -, -⟩ := h.ranges
  have hframe : inFrame x.st.s = true → x.st.line = [] := by simp [hs, inFrame]
  unfold Machine.timeoutIdle
  dsimp only
  split
  · exact h
  · split
    · rw [flushLine_st]
      exact h.setLine (fun _ => rfl) (Nat.zero_le _) (Nat.zero_le _)
    · rename_i hage
      exact h.setLine hframe hline (Nat.le_of_not_lt hage)

end RxInv

/-- One timeout keeps the framer's invariants (R222). -/
theorem rxTimeout_inv {P : Config.Params} {f : Frm} (h : FrmInv P f) : FrmInv P (rxTimeout P f).st := by
  have hx : RxInv P (Acc.start f).st := ((frmInv_iff P f).mp h).2
  refine RxInv.syncTimeout ?_
  split
  · exact hx.timeoutIdle ‹_›
  · exact hx.timeoutBusy ‹_›

/-- The released hold register is empty (R223). -/
theorem release_hold_inv {P : Config.Params} {f : Frm} (h : FrmInv P f) :
    FrmInv P { f with holdValid := false, hold := Msg.empty } := by
  obtain ⟨ht, hx⟩ := (frmInv_iff P f).mp h
  exact (frmInv_iff P _).mpr ⟨ht, hx.line, hx.utf8, hx.len, hx.idle, hx.ranges, hx.assembly,
    framerMsgInv_empty _, nofun, fun _ => rfl⟩

end Sys2Proof.Machine

/-! The ARQ engine keeps its invariants (R36 to R39). A channel that is not open holds nothing; an open one is in its
handshake, with clear sequence state, or live. In the middle of a command two things of a live session are out of their
invariant: the queue until StartQueued has run (R39 (d)), and the entry at `recv_tail` until Drain has run (R39 (b)). -/

namespace Sys2Proof.Machine

/-! ## The three forms of a session -/

/-- What R36 and R270 say of the engine, in one place. -/
abbrev SessionInv (P : Config.Params) (a : Arq) : Prop := ArqInv P a ∧ sendsFit P a = true

/-- The configuration of a channel that has been opened (R36, R263). -/
structure CfgInv (P : Config.Params) (window timeout : Nat) : Prop where
  window_ge : wMin ≤ window
  window_le : window ≤ P.wMax
  timeout_ge : P.tMin ≤ timeout
  timeout_le : timeout ≤ P.tMax

/-- Every queued payload is within `P_MAX` (R270). -/
def QueueFits (P : Config.Params) (queue : List Queued) : Prop := ∀ p ∈ queue, payloadTooLong P p.payload = false

/-- Every payload in flight is within `P_MAX` (R270). -/
def PendFits (P : Config.Params) (pend : Table PendEntry) : Prop :=
  ∀ e ∈ pend, payloadTooLong P e.2.payload = false

/-- An open channel in its handshake: the sequence state is clear (R37, R39 (c)). -/
structure HandshakeInv (P : Config.Params) (a : Arq) : Prop where
  opened : a.phase = .opened
  cfg : CfgInv P a.window a.timeout
  level : a.resetLevel = 1 ∨ a.resetLevel = 2
  clear : SequenceClear a
  queue : QueueFits P a.sendq

/-- An open channel at level 0, but for the queue: each side is a span with its table, and nothing is buffered at
`recv_tail` (R38, R39 (a), (b)). -/
structure LiveInv (P : Config.Params) (a : Arq) : Prop where
  opened : a.phase = .opened
  cfg : CfgInv P a.window a.timeout
  level : a.resetLevel = 0
  send : SpanInv a.window a.sendHead a.sendTail a.pend
  recv : SpanInv a.window a.recvHead a.recvTail a.oor
  gap : tableGet a.oor a.recvTail = none
  pend : PendFits P a.pend
  queue : QueueFits P a.sendq

/-- R39 (d) at level 0: sends wait only while the window is full. -/
def QueueWaits (a : Arq) : Prop := a.sendq ≠ [] → a.inflight = a.half

theorem sendsFit_iff (P : Config.Params) (a : Arq) :
    sendsFit P a = true ↔ PendFits P a.pend ∧ QueueFits P a.sendq := by
  simp [sendsFit, PendFits, QueueFits, List.all_eq_true]

theorem timeoutOk_iff (P : Config.Params) (a : Arq) :
    timeoutOk P a = true ↔ (a.phase = .unopened ∨ P.tMin ≤ a.timeout) ∧ a.timeout ≤ P.tMax := by
  simp [timeoutOk]

section Forms

variable {P : Config.Params} {a : Arq}

/-- An open channel's configuration is in its ranges. -/
theorem SessionInv.cfg (h : SessionInv P a) (hp : a.phase ≠ .unopened) : CfgInv P a.window a.timeout := by
  obtain ⟨⟨⟨hw, hw', ht, -⟩, -⟩, -⟩ := h
  obtain ⟨hmin, hmax⟩ := (timeoutOk_iff P a).mp ht
  exact ⟨hw, hw', hmin.resolve_left hp, hmax⟩

/-- An open channel is in its handshake, or live with its queue waiting for a full window only. -/
theorem SessionInv.forms (h : SessionInv P a) (hp : a.phase = .opened) :
    HandshakeInv P a ∨ (LiveInv P a ∧ QueueWaits a) := by
  have hcfg := h.cfg (by simp [hp])
  obtain ⟨⟨⟨-, -, -, hsh, hst, hrh, hrt, hl3⟩, ⟨hsw, hrw⟩, ⟨hpw, hpm⟩, ⟨how, hom⟩, hreset, hqueue, -⟩, hfit⟩ := h
  obtain ⟨hpf, hqf⟩ := (sendsFit_iff P a).mp hfit
  by_cases hl : a.resetLevel = 0
  · have hrecv : SpanInv a.window a.recvHead a.recvTail a.oor :=
      ⟨hrh, hrt, hrw, how, fun e he => ⟨(hom e he).1, (hom e he).2.2⟩⟩
    have hgap := hrecv.gap_iff.mpr fun e he => (hom e he).2.1
    refine .inr ⟨⟨hp, hcfg, hl, ⟨hsh, hst, hsw, hpw, hpm⟩, hrecv, hgap, hpf, hqf⟩,
      fun hq => (hqueue hp hq).resolve_left ?_⟩
    rw [inReset_iff]
    exact not_not_intro hl
  · have h12 : ∀ l : Fin 4, l ≠ 0 → l ≠ 3 → l = 1 ∨ l = 2 := by decide
    exact .inl ⟨hp, hcfg, h12 _ hl hl3, hreset ((inReset_iff a).mpr hl), hqf⟩

theorem HandshakeInv.level_ne (h : HandshakeInv P a) : a.resetLevel ≠ 0 ∧ a.resetLevel ≠ 3 := by
  rcases h.level with hl | hl <;> rw [hl] <;> decide

theorem SessionInv.handshake (h : SessionInv P a) (hp : a.phase = .opened) (hl : a.resetLevel ≠ 0) : HandshakeInv P a :=
  (h.forms hp).resolve_right fun ⟨hlive, _⟩ => hl hlive.level

theorem SessionInv.live (h : SessionInv P a) (hp : a.phase = .opened) (hl : a.resetLevel = 0) :
    LiveInv P a ∧ QueueWaits a :=
  (h.forms hp).resolve_left fun hshake => hshake.level_ne.1 hl

theorem LiveInv.session (h : LiveInv P a) (hq : QueueWaits a) : SessionInv P a := by
  have hgap := h.recv.gap_iff.mp h.gap
  have hreset : a.inReset ≠ true := by
    rw [Ne, inReset_iff]
    exact not_not_intro h.level
  refine ⟨⟨⟨h.cfg.window_ge, h.cfg.window_le, (timeoutOk_iff P a).mpr ⟨.inr h.cfg.timeout_ge, h.cfg.timeout_le⟩,
    h.send.head_lt, h.send.tail_lt, h.recv.head_lt, h.recv.tail_lt, by rw [h.level]; decide⟩,
    ⟨h.send.span_le, h.recv.span_le⟩, ⟨h.send.wf, h.send.mem⟩,
    ⟨h.recv.wf, fun e he => ⟨(h.recv.mem e he).1, hgap e he, (h.recv.mem e he).2⟩⟩, fun hr => absurd hr hreset,
    fun _ hne => .inr (hq hne), fun hp => absurd h.opened hp⟩, (sendsFit_iff P a).mpr ⟨h.pend, h.queue⟩⟩

/-- With the sequence state clear only the configuration, the level, the queue and the phase are left to say. -/
theorem session_of_clear (hw : wMin ≤ a.window ∧ a.window ≤ P.wMax) (ht : timeoutOk P a = true) (hl : a.resetLevel ≠ 3)
    (hc : SequenceClear a) (hqf : QueueFits P a.sendq) (hq : QueueInv a) (hp : PhaseInv a) : SessionInv P a := by
  obtain ⟨hsh, hst, hrh, hrt, hpend, hoor, hack⟩ := id hc
  have hpos : 0 < a.window := Nat.lt_of_lt_of_le (by decide) hw.1
  refine ⟨⟨⟨hw.1, hw.2, ht, hsh ▸ hpos, hst ▸ hpos, hrh ▸ hpos, hrt ▸ hpos, hl⟩, ?_, ?_, ?_, fun _ => hc, hq, hp⟩,
    (sendsFit_iff P a).mpr ⟨?_, hqf⟩⟩
  · simp [WindowInv, Arq.inflight, Arq.rspan, hsh, hst, hrh, hrt]
  · rw [PendInv, hpend]
    exact ⟨.nil, nofun⟩
  · rw [OorInv, hoor]
    exact ⟨.nil, nofun⟩
  · simp [PendFits, hpend]

theorem HandshakeInv.session (h : HandshakeInv P a) : SessionInv P a := by
  obtain ⟨hl0, hl3⟩ := h.level_ne
  exact session_of_clear ⟨h.cfg.window_ge, h.cfg.window_le⟩
    ((timeoutOk_iff P a).mpr ⟨.inr h.cfg.timeout_ge, h.cfg.timeout_le⟩) hl3 h.clear h.queue
    (fun _ _ => .inl ((inReset_iff a).mpr hl0)) (fun hp => absurd h.opened hp)

/-- A session that holds nothing, as every channel does that is not open (R39). -/
theorem session_of_empty (hw : wMin ≤ a.window ∧ a.window ≤ P.wMax) (ht : timeoutOk P a = true)
    (hl : a.resetLevel = 0) (hc : SequenceClear a) (hq : a.sendq = []) : SessionInv P a :=
  session_of_clear hw ht (by rw [hl]; decide) hc (by simp [hq, QueueFits]) (fun _ hne => absurd hq hne)
    (fun _ => ⟨hc, hq, hl⟩)

/-- A handshake that has ended is a live session that has exchanged nothing (R277, R278). -/
theorem HandshakeInv.live (h : HandshakeInv P a) : LiveInv P { a with resetLevel := 0 } := by
  obtain ⟨hsh, hst, hrh, hrt, hpend, hoor, -⟩ := h.clear
  have hpos : 0 < a.window := Nat.lt_of_lt_of_le (by decide) h.cfg.window_ge
  refine ⟨h.opened, h.cfg, rfl, ?_, ?_, ?_, ?_, h.queue⟩ <;> dsimp only
  · rw [hsh, hst, hpend]
    exact .clear hpos
  · rw [hrh, hrt, hoor]
    exact .clear hpos
  · rw [hoor]
    rfl
  · simp [PendFits, hpend]

end Forms

/-! ## The shared operations -/

section Operations

variable {P : Config.Params} {x : Acc Arq} {now : Nat}

/-- A configuration within its bounds is merged into one within its bounds (R282). -/
theorem CfgInv.merge {window timeout : Nat} (h : CfgInv P window timeout) {c : ArqCfg}
    (hc : 4 ≤ c.m ∧ P.tMin ≤ c.t ∧ c.t ≤ P.tMax) : CfgInv P (min window c.m) (max timeout c.t) :=
  ⟨Nat.le_min.mpr ⟨h.window_ge, hc.1⟩, (Nat.min_le_left _ _).trans h.window_le,
    h.timeout_ge.trans (Nat.le_max_left _ _), Nat.max_le.mpr ⟨h.timeout_le, hc.2.2⟩⟩

theorem PendFits.eraseAll {pend : Table PendEntry} (h : PendFits P pend) (qs : List Nat) :
    PendFits P (qs.foldl tableErase pend) := by
  induction qs generalizing pend with
  | nil => exact h
  | cons q qs ih => exact ih fun e he => h e ((mem_tableErase pend q e).mp he).1

theorem PendFits.set {pend : Table PendEntry} (h : PendFits P pend) (q : Nat) {entry : PendEntry}
    (he : payloadTooLong P entry.payload = false) : PendFits P (tableSet pend q entry) := by
  intro e hmem
  rcases mem_tableSet pend q entry e hmem with rfl | hmem
  · exact he
  · exact h e hmem

/-- Nothing in flight is left to be queued again once every send has failed (R265). -/
theorem requeued_failAll (res : Completion) (x : Acc Arq) : (failAll res x).st.requeued = [] := by
  rw [failAll_st]
  refine List.filterMap_eq_nil_iff.mpr fun q hq => ?_
  have hget : tableGet ((x.st.fromTail x.st.inflight).foldl tableErase x.st.pend) q = none := by
    rw [tableGet_foldl_erase]
    exact if_pos hq
  exact congrArg (Option.map _) hget

/-- The sends queued again are those in flight, so their payloads fit (R265). -/
theorem requeued_fits {a : Arq} (h : PendFits P a.pend) : QueueFits P a.requeued := by
  intro p hp
  obtain ⟨q, -, hq⟩ := List.mem_filterMap.mp hp
  obtain ⟨entry, he, rfl⟩ := Option.map_eq_some_iff.mp hq
  exact h _ (mem_of_tableGet _ _ _ he)

theorem resetState_clear (a : Arq) : SequenceClear a.resetState := ⟨rfl, rfl, rfl, rfl, rfl, rfl, rfl⟩

/-- After `ResetState` the queue holds payloads accepted for sending alone (R265). -/
theorem resetState_queue {a : Arq} (h : SessionInv P a) : QueueFits P a.resetState.sendq := by
  obtain ⟨hp, hq⟩ := (sendsFit_iff P a).mp h.2
  intro p hmem
  rcases List.mem_append.mp hmem with hmem | hmem
  · exact requeued_fits hp p hmem
  · exact hq p hmem

/-- The failure of every send keeps the invariants (R265). -/
theorem SessionInv.failAll (h : SessionInv P x.st) (hp : x.st.phase = .opened) (res : Completion) :
    SessionInv P (failAll res x).st := by
  rw [failAll_st]
  rcases h.forms hp with h | ⟨h, -⟩
  · obtain ⟨hsh, hst, hrh, hrt, hpend, hoor, hack⟩ := h.clear
    have hnone : x.st.fromTail x.st.inflight = [] := by simp [Arq.fromTail, Arq.inflight, hsh, hst]
    have hpend' : (x.st.fromTail x.st.inflight).foldl tableErase x.st.pend = [] := by rw [hnone]; exact hpend
    exact HandshakeInv.session ⟨h.opened, h.cfg, h.level, ⟨hsh, hst, hrh, hrt, hpend', hoor, hack⟩, nofun⟩
  · exact LiveInv.session ⟨h.opened, h.cfg, h.level, h.send.eraseAll _, h.recv, h.gap, h.pend.eraseAll _, nofun⟩
      fun hne => absurd rfl hne

/-- Allocation takes one place of the window (R266). -/
theorem LiveInv.alloc (h : LiveInv P x.st) (hspace : x.st.hasSpace = true) {p : Bytes} (hp : payloadTooLong P p = false)
    (handle : U16) : LiveInv P (alloc p handle now x).st := by
  rw [alloc_st]
  exact ⟨h.opened, h.cfg, h.level, h.send.push ((hasSpace_iff _).mp hspace) _, h.recv, h.gap, h.pend.set _ hp, h.queue⟩

/-- The loop of `StartQueued` keeps a live session live (R267). -/
theorem LiveInv.startFrom (queue : List Queued) (h : LiveInv P x.st) (hq : x.st.sendq = queue) :
    LiveInv P (startFrom now queue x).st := by
  induction queue generalizing x with
  | nil => exact h
  | cons p rest ih =>
    have hfits := h.queue
    rw [hq] at hfits
    unfold Machine.startFrom
    split
    case isTrue hc =>
      have hpop : LiveInv P (x.upd fun a => { a with sendq := rest }).st :=
        ⟨h.opened, h.cfg, h.level, h.send, h.recv, h.gap, h.pend, fun r hr => hfits r (List.mem_cons_of_mem _ hr)⟩
      exact ih (hpop.alloc hc.2 (hfits p List.mem_cons_self) p.handle) rfl
    case isFalse => exact h

/-- After `StartQueued` a send waits only while the window is full (R267, R39 (d)). -/
theorem LiveInv.startQueued (h : LiveInv P x.st) : SessionInv P (startQueued now x).st := by
  have hlive : LiveInv P (Machine.startQueued now x).st := h.startFrom x.st.sendq rfl
  refine hlive.session fun hne => ?_
  rcases startFrom_stop now x.st.sendq x rfl with hl | hq | hs
  · exact absurd hlive.level hl
  · exact absurd hq hne
  · have hfull : ¬ (Machine.startQueued now x).st.inflight < (Machine.startQueued now x).st.window / 2 := by
      rw [← hasSpace_iff]
      exact Bool.eq_false_iff.mp hs
    exact Nat.le_antisymm hlive.send.span_le (Nat.le_of_not_lt hfull)

/-- The covered sends are released and the tail moves behind them (R281). -/
theorem LiveInv.processAck (h : LiveInv P x.st) {r : Nat} (hr : r < x.st.window) : LiveInv P (processAck r x).st := by
  rw [processAck_st]
  split
  case isTrue hin =>
    refine ⟨h.opened, h.cfg, h.level, (h.send.eraseAll _).advance hr hin fun e he => ?_, h.recv, h.gap,
      h.pend.eraseAll _, h.queue⟩
    have hget := tableGet_of_mem _ (h.send.eraseAll _).wf e.1 e.2 he
    have hlt := ((h.send.eraseAll _).mem e he).1
    have hwin : fwd x.st.window r x.st.sendTail ≤ x.st.window := (fwd_lt _ _ _ (by omega)).le
    rw [tableGet_foldl_erase] at hget
    by_contra hshort
    rw [if_pos ((mem_fromTail x.st _ e.1 hwin h.send.tail_lt).mpr ⟨hlt, Nat.lt_of_not_le hshort⟩)] at hget
    cases hget
  case isFalse => exact h

theorem LiveInv.processX (h : LiveInv P x.st) (qs : List Nat) : LiveInv P (processX qs x).st := by
  rw [processX_eq, releaseAll_st]
  exact ⟨h.opened, h.cfg, h.level, h.send.eraseAll _, h.recv, h.gap, h.pend.eraseAll _, h.queue⟩

/-- Each round of `Drain` hands one payload over and moves the tail behind it (R285). -/
theorem drainFor_span (n : Nat) (h : SpanInv x.st.window x.st.recvHead x.st.recvTail x.st.oor) :
    SpanInv (drainFor n x).st.window (drainFor n x).st.recvHead (drainFor n x).st.recvTail (drainFor n x).st.oor := by
  induction n generalizing x with
  | zero => exact h
  | succ n ih =>
    unfold drainFor
    split
    · exact h
    · rename_i payload hget
      exact ih (h.dropTail hget)

/-- Accepting data keeps the receiving side a span, and draining restores its gap (R284, R285). -/
theorem LiveInv.acceptData (h : LiveInv P x.st) {s : Nat} (hs : s < x.st.window) (d : Bytes) :
    LiveInv P (acceptData s d x).st := by
  unfold Machine.acceptData
  split
  case isFalse => exact h
  case isTrue hhalf =>
    have hbuffered : SpanInv x.st.window (x.st.buffer s d).recvHead x.st.recvTail (x.st.buffer s d).oor := by
      have hhead : SpanInv x.st.window (x.st.buffer s d).recvHead x.st.recvTail x.st.oor ∧
          fwd x.st.window s x.st.recvTail < fwd x.st.window (x.st.buffer s d).recvHead x.st.recvTail := by
        unfold Arq.buffer
        dsimp only
        split_ifs with hbeyond
        · refine ⟨h.recv.extend hs hbeyond hhalf, ?_⟩
          have hlt : fwd x.st.window s x.st.recvTail < x.st.window / 2 := hhalf
          rw [Arq.nextSeq, fwd_succ_left _ _ _ hs h.recv.tail_lt (by omega)]
          omega
        · exact ⟨h.recv, Nat.lt_of_not_le hbeyond⟩
      show SpanInv _ _ _ (if (tableGet x.st.oor s).isNone then tableSet x.st.oor s d else x.st.oor)
      split_ifs
      · exact hhead.1.set hs hhead.2 d
      · exact hhead.1
    have hdrained := drainFor_span (x := x.upd fun a => a.buffer s d) (x.st.buffer s d).oor.length hbuffered
    have hgap := drainFor_stop _ (x.upd fun a => a.buffer s d) (Nat.le_refl _)
    unfold drain
    rw [drainFor_frame] at hdrained hgap ⊢
    exact ⟨h.opened, h.cfg, h.level, h.send, hdrained, hgap, h.pend, h.queue⟩

theorem LiveInv.markAck (h : LiveInv P x.st) : LiveInv P (markAck P now x).st := by
  rw [markAck_eq]
  exact ⟨h.opened, h.cfg, h.level, h.send, h.recv, h.gap, h.pend, h.queue⟩

/-- An acknowledgement sent is no longer pending (R264). -/
theorem SessionInv.clearAck {a : Arq} (h : SessionInv P a) : SessionInv P { a with ackPending := false } := by
  obtain ⟨⟨hranges, hwindow, hpend, hoor, hreset, hqueue, hphase⟩, hfit⟩ := h
  have hclear : SequenceClear a → SequenceClear { a with ackPending := false } :=
    fun ⟨hsh, hst, hrh, hrt, hp, ho, _⟩ => ⟨hsh, hst, hrh, hrt, hp, ho, rfl⟩
  exact ⟨⟨hranges, hwindow, hpend, hoor, fun hr => hclear (hreset hr), hqueue,
    fun hp => ⟨hclear (hphase hp).1, (hphase hp).2⟩⟩, hfit⟩

/-- The most overdue entry is one of those in flight (R288). -/
theorem mostOverdue_mem (a : Arq) (now : Nat) (e : Nat × PendEntry) (h : a.mostOverdue now = some e) : e ∈ a.pend := by
  refine List.foldlRecOn (motive := fun best => ∀ e, best = some e → e ∈ a.pend) _ _ (by simp)
    (fun best hbest d hd e he => ?_) e h
  have hd : d ∈ a.pend := (List.mem_filter.mp hd).1
  cases best with
  | none =>
    cases he
    exact hd
  | some b =>
    dsimp only at he
    split at he <;> cases he
    · exact hd
    · exact hbest _ rfl

/-- A retransmission gives one entry in flight a new deadline (R288). -/
theorem LiveInv.retransmit (h : LiveInv P x.st) {q : Nat} {entry : PendEntry} (he : (q, entry) ∈ x.st.pend) :
    LiveInv P (retransmit q entry now x).st := by
  obtain ⟨hq, hin⟩ := h.send.mem _ he
  exact ⟨h.opened, h.cfg, h.level, h.send.set hq hin _, h.recv, h.gap, h.pend.set q (h.pend _ he), h.queue⟩

end Operations

/-! ## The received messages -/

section Received

variable {P : Config.Params} {x : Acc Arq} {now : Nat}

/-- Closure leaves a session that holds nothing (R274, R289, R291). -/
theorem SessionInv.closeWith (h : SessionInv P x.st) (hp : x.st.phase = .opened) (res : Completion) :
    SessionInv P (closeWith res x).st := by
  have hcfg : CfgInv P (Machine.closeWith res x).st.window (Machine.closeWith res x).st.timeout := by
    have := SessionInv.cfg (h.failAll hp res) (by rw [failAll_st]; simp [hp])
    exact ⟨this.window_ge, this.window_le, this.timeout_ge, this.timeout_le⟩
  refine session_of_empty ⟨hcfg.window_ge, hcfg.window_le⟩
    ((timeoutOk_iff P _).mpr ⟨.inr hcfg.timeout_ge, hcfg.timeout_le⟩) rfl ⟨rfl, rfl, rfl, rfl, rfl, rfl, rfl⟩ ?_
  show (Machine.failAll res x).st.requeued ++ (Machine.failAll res x).st.sendq = []
  rw [requeued_failAll, failAll_st]
  rfl

/-- A session sent back to its handshake, at any level of it and under any legal configuration (R265, R275, R290). -/
theorem SessionInv.restart {a : Arq} (h : SessionInv P a) (hp : a.phase = .opened) {window timeout deadline : Nat}
    (hcfg : CfgInv P window timeout) {level : Fin 4} (hl : level = 1 ∨ level = 2) :
    SessionInv P
      { a.resetState with window := window, timeout := timeout, resetLevel := level, resetDeadline := deadline } :=
  HandshakeInv.session ⟨hp, hcfg, hl, resetState_clear a, resetState_queue h⟩

theorem SessionInv.recvLevel2 (h : SessionInv P x.st) (hp : x.st.phase = .opened) {c : ArqCfg}
    (hc : 4 ≤ c.m ∧ P.tMin ≤ c.t ∧ c.t ≤ P.tMax) : SessionInv P (recvLevel2 c now x).st := by
  unfold Machine.recvLevel2
  split
  case isFalse => exact h
  case isTrue hr =>
    have hshake := h.handshake hp ((inReset_iff _).mp hr)
    have hmerged : HandshakeInv P (x.st.merge c) :=
      ⟨hshake.opened, hshake.cfg.merge hc, hshake.level, hshake.clear, hshake.queue⟩
    exact LiveInv.startQueued (x := sendReset 3 none (x.upd fun a => { a.merge c with resetLevel := 0 })) hmerged.live

theorem SessionInv.recvLevel3 (h : SessionInv P x.st) (hp : x.st.phase = .opened) :
    SessionInv P (recvLevel3 now x).st := by
  unfold Machine.recvLevel3
  split
  case isFalse => exact h
  case isTrue hl =>
    have hshake := h.handshake hp (by rw [hl]; decide)
    exact LiveInv.startQueued (x := x.upd fun a => { a with resetLevel := 0 }) hshake.live

theorem failOnError_phase (msg : ArqMsg) (x : Acc Arq) : (failOnError msg x).st.phase = x.st.phase := by
  unfold failOnError
  split
  · rfl
  · rw [failAll_st]

theorem SessionInv.failOnError (h : SessionInv P x.st) (hp : x.st.phase = .opened) (msg : ArqMsg) :
    SessionInv P (failOnError msg x).st := by
  unfold Machine.failOnError
  split
  · exact h
  · exact h.failAll hp _

/-- A well-formed reset message at each of its levels (R271, R274, R275, R277, R278). -/
theorem SessionInv.recvResetMsg (h : SessionInv P x.st) (hp : x.st.phase = .opened) {msg : ArqMsg}
    (hmsg : resetMsgFault P msg = none) : SessionInv P (recvResetMsg msg now x).st := by
  obtain ⟨-, -, hbounds⟩ := (resetMsgFault_eq_none_iff P msg).mp hmsg
  unfold Machine.recvResetMsg
  split
  case h_1 => exact h.closeWith hp .closed
  case h_2 c _ hc => exact h.restart hp ((h.cfg (by simp [hp])).merge (hbounds c hc)) (.inr rfl)
  case h_3 c _ hc => exact h.recvLevel2 hp (hbounds c hc)
  case h_4 => exact h.recvLevel3 hp
  case h_5 => exact h

/-- A normal message at level 0: the send side, the receive side, then the queue (R280). -/
theorem LiveInv.recvNormal (h : LiveInv P x.st) {msg : ArqMsg} (hmsg : normalMsgOk x.st.window msg = true) :
    SessionInv P (recvNormal P msg now x).st := by
  obtain ⟨⟨hs, hs'⟩, ⟨hr, hr'⟩, -⟩ := (normalMsgOk_iff _ msg).mp hmsg
  have hsend : LiveInv P (Machine.processX (msg.x.getD []) (Machine.processAck msg.r.toNat x)).st :=
    (h.processAck (by omega)).processX _
  have hwindow : (Machine.processX (msg.x.getD []) (Machine.processAck msg.r.toNat x)).st.window = x.st.window := by
    rw [processX_eq, releaseAll_st, processAck_st]
    split <;> rfl
  have hdata : LiveInv P
      (Machine.recvData P msg now (Machine.processX (msg.x.getD []) (Machine.processAck msg.r.toNat x))).st := by
    unfold Machine.recvData
    split
    · exact hsend
    · exact (hsend.acceptData (by omega) _).markAck
  have hqueue := hdata.startQueued (now := now)
  unfold Machine.recvNormal
  rw [ackIfIdle_eq]
  split
  · exact hqueue.clearAck
  · exact hqueue

/-- A message received in phase `Open` (R263, R271). -/
theorem SessionInv.recvOpen (h : SessionInv P x.st) (hp : x.st.phase = .opened) (msg : ArqMsg) :
    SessionInv P (recvOpen P msg now x).st := by
  unfold Machine.recvOpen
  split
  · split
    · exact h
    · exact SessionInv.recvResetMsg (h.failOnError hp msg) ((failOnError_phase msg x).trans hp) ‹_›
  · split
    · exact h
    · rename_i hr
      split
      · exact (h.live hp (not_not.mp (mt (inReset_iff _).mpr hr))).1.recvNormal ‹_›
      · exact h

/-- One wake-up (R288). -/
theorem SessionInv.tickOpen (h : SessionInv P x.st) (hp : x.st.phase = .opened) : SessionInv P (tickOpen now x).st := by
  unfold Machine.tickOpen
  split
  · split <;> exact h
  · rename_i hr
    split
    case h_1 q entry hover =>
      obtain ⟨hlive, hwaits⟩ := h.live hp (not_not.mp (mt (inReset_iff _).mpr hr))
      exact (hlive.retransmit (mostOverdue_mem _ _ _ hover)).session hwaits
    case h_2 =>
      split
      · exact h.clearAck
      · exact h

theorem SessionInv.resetOpen (h : SessionInv P x.st) (hp : x.st.phase = .opened) (e : Option Bytes) :
    SessionInv P (resetOpen e now x).st := by
  cases e with
  | none => exact h.restart hp (h.cfg (by simp [hp])) (.inl rfl)
  | some err =>
    have hf := h.failAll hp (.resetError err)
    have hpf : (Machine.failAll (.resetError err) x).st.phase = .opened := by rw [failAll_st]; exact hp
    exact hf.restart hpf (hf.cfg (by simp [hpf])) (.inl rfl)

end Received

/-! ## The commands -/

section Commands

variable {P : Config.Params} {a : Arq}

/-- A channel that is not open opens in its handshake (R268). -/
theorem SessionInv.opening {window timeout now : Nat} (hcfg : CfgInv P window timeout) :
    SessionInv P (a.opening window timeout now) :=
  HandshakeInv.session ⟨rfl, hcfg, .inl rfl, ⟨rfl, rfl, rfl, rfl, rfl, rfl, rfl⟩, nofun⟩

/-- A send allocated at once: nothing waits (R270). -/
theorem SessionInv.alloc (h : SessionInv P a) (hp : a.phase = .opened) {payload : Bytes}
    (hfit : payloadTooLong P payload = false) (hl : a.resetLevel = 0) (hq : a.sendq = []) (hspace : a.hasSpace = true)
    (handle : U16) (now : Nat) : SessionInv P (alloc payload handle now (Acc.start a)).st :=
  (LiveInv.alloc (x := Acc.start a) (h.live hp hl).1 hspace hfit handle).session fun hne => absurd hq hne

/-- A send queued because it could not be allocated at once (R270, R39 (d)). -/
theorem SessionInv.enqueue (h : SessionInv P a) (hp : a.phase = .opened) {payload : Bytes}
    (hfit : payloadTooLong P payload = false) (hbusy : ¬ (a.resetLevel = 0 ∧ a.sendq = [] ∧ a.hasSpace = true))
    (handle : U16) : SessionInv P { a with sendq := a.sendq ++ [{ payload := payload, handle := handle }] } := by
  have hfits (hqf : QueueFits P a.sendq) : QueueFits P (a.sendq ++ [{ payload := payload, handle := handle }]) := by
    intro p hmem
    rcases List.mem_append.mp hmem with hmem | hmem
    · exact hqf p hmem
    · rw [List.mem_singleton.mp hmem]
      exact hfit
  rcases h.forms hp with h | ⟨h, hwaits⟩
  · exact HandshakeInv.session ⟨h.opened, h.cfg, h.level, h.clear, hfits h.queue⟩
  · refine LiveInv.session ⟨h.opened, h.cfg, h.level, h.send, h.recv, h.gap, h.pend, hfits h.queue⟩ fun _ => ?_
    by_cases hq : a.sendq = []
    · have hfull : ¬ a.inflight < a.window / 2 := fun hlt => hbusy ⟨h.level, hq, (hasSpace_iff a).mpr hlt⟩
      exact Nat.le_antisymm h.send.span_le (Nat.le_of_not_lt hfull)
    · exact hwaits hq

end Commands

end Sys2Proof.Machine

/-! The invariants of the whole state: right after reset, and after every command (R20, R24). One closure rule per form
the meanings are written in, then one lemma per command that needs a fact of its own. -/

namespace Sys2Proof.Machine

/-! ## Reset -/

/-- The session record after reset holds nothing, at the least window (R43). -/
theorem session_reset {P : Config.Params} (hP : LegalParams P) : SessionInv P Arq.reset := by
  have hT : 1 ≤ P.tMax := Nat.le_trans (by decide) hP.timeout_range.2
  exact session_of_empty ⟨Nat.le_refl 4, hP.window_range.1⟩ ((timeoutOk_iff P _).mpr ⟨.inl rfl, hT⟩) rfl
    ⟨rfl, rfl, rfl, rfl, rfl, rfl, rfl⟩ rfl

theorem inv_resetUnits {P : Config.Params} (hP : LegalParams P) (port : Port) :
    State.Inv P (State.resetUnits P port) := by
  obtain ⟨harq, hfit⟩ := session_reset hP
  refine ⟨List.length_replicate, fun m hm => ?_, frmInv_reset P, harq, hfit⟩
  rw [List.eq_of_mem_replicate hm]
  exact msgInv_empty

/-! ## The forms of a meaning -/

namespace State.Inv

variable {P : Config.Params} {s : State} {r : Nat} {m : Msg}

/-- The answer is the port's, and the port is under no invariant. -/
theorem answer (h : State.Inv P s) (st : Status) (v : Value) (ev : List Event) : State.Inv P (s.answer st v ev) := h

theorem ite {c : Prop} [Decidable c] {t u : State} (ht : c → State.Inv P t) (hu : ¬ c → State.Inv P u) :
    State.Inv P (if c then t else u) := by
  split
  · exact ht ‹_›
  · exact hu ‹_›

theorem commitFrm (h : State.Inv P s) {x : Acc Frm} (hx : FrmInv P x.st) : State.Inv P (s.commitFrm x) := by
  obtain ⟨hlen, hmsgs, -, harq, hfit⟩ := h
  exact ⟨hlen, hmsgs, hx, harq, hfit⟩

theorem session (h : State.Inv P s) : SessionInv P s.arq := by
  obtain ⟨-, -, -, harq, hfit⟩ := h
  exact ⟨harq, hfit⟩

theorem commitArq (h : State.Inv P s) {x : Acc Arq} (hx : SessionInv P x.st) : State.Inv P (s.commitArq x) := by
  obtain ⟨hlen, hmsgs, hfrm, -, -⟩ := h
  exact ⟨hlen, hmsgs, hfrm, hx.1, hx.2⟩

/-- A register may take any message within the ranges (R21, R25). -/
theorem setMsg (h : State.Inv P s) (hm : MsgInv m) : State.Inv P (s.setMsg r m) := by
  obtain ⟨hlen, hmsgs, hfrm, harq, hfit⟩ := h
  refine ⟨(setMsg_length s r m).trans hlen, fun m' hm' => ?_, hfrm, harq, hfit⟩
  rcases List.mem_or_eq_of_mem_set hm' with hm' | rfl
  · exact hmsgs m' hm'
  · exact hm

/-- A command on a register starts from a message within the ranges (R101). -/
theorem withMsg (h : State.Inv P s) {f : Msg → State} (hf : ∀ m, MsgInv m → State.Inv P (f m)) :
    State.Inv P (s.withMsg r f) := by
  obtain ⟨-, hmsgs, -⟩ := id h
  rcases withMsg_cases s r f with ⟨-, he⟩ | ⟨m, -, hm, he⟩ <;> rw [he]
  · exact h
  · exact hf m (hmsgs m (msg_mem s r m hm))

theorem withHeader (h : State.Inv P s) {f : Hdr → State} (hf : ∀ hd, needHeader m = .ok hd → State.Inv P (f hd)) :
    State.Inv P (s.withHeader m f) := by
  rcases withHeader_cases s m f with ⟨st, -, he⟩ | ⟨hd, hn, he⟩ <;> rw [he]
  · exact h
  · exact hf hd hn

/-! ## The message codec -/

/-- A decoded address is at most 127, and one below -4 is refused (R101, R161). -/
theorem msgSetaddr (h : State.Inv P s) {dst src : Int} (hdst : AddrField dst) (hsrc : AddrField src) :
    State.Inv P (msgSetaddr r dst src s) := by
  refine h.withMsg fun m ⟨_, _, hcode, hmax, _⟩ => .ite (fun _ => h) fun hok => (h.setMsg ?_).answer _ _ _
  obtain ⟨hd, hs⟩ := not_or.mp hok
  have haddr (a : Int) (ha : AddrField a) (hr : ¬ AddrRefused a) : addrOk (some a) = true := by
    simp only [addrOk, Bool.and_eq_true, decide_eq_true_eq]
    exact ⟨Int.not_lt.mp hr, ha.2⟩
  exact ⟨haddr dst hdst hd, haddr src hsrc hs, hcode, hmax, cursorOk_of_closed _ rfl⟩

theorem msgSetcode (h : State.Inv P s) {code : Nat} (hc : code < 256) : State.Inv P (msgSetcode r code s) :=
  h.withMsg fun m ⟨hdst, hsrc, _, hmax, _⟩ =>
    have hm : MsgInv { m with code := some code, xpos := none } :=
      ⟨hdst, hsrc, decide_eq_true hc, hmax, cursorOk_of_closed _ rfl⟩
    (h.setMsg hm).answer _ _ _

/-- The bytes are appended on a byte boundary, within the bound (R164). -/
theorem msgAdddata (h : State.Inv P s) : State.Inv P (msgAdddata r s) := by
  refine h.withMsg fun m hm => .ite (fun _ => h) fun hmax => (h.setMsg (hm.setBuf ?_ ?_)).answer _ _ _ <;>
    simp only [List.length_append, zeros_length, bitsOf_length] <;> omega

theorem msgHdrlen (h : State.Inv P s) : State.Inv P (msgHdrlen r s) := by
  refine h.withMsg fun m _ => ?_
  split <;> exact h

/-- Extraction leaves the cursor inside the stream (R26, R172). -/
theorem msgXchunk (h : State.Inv P s) (fb : Nat) : State.Inv P (msgXchunk P r fb s) := by
  refine h.withMsg fun m hm => .ite (fun _ => h) fun _ => ?_
  split
  · exact h
  · rename_i pos _
    refine h.withHeader fun hd hn => .ite (fun _ => h) fun hk => (h.setMsg (hm.setCursor hn ?_)).answer _ _ _
    exact (chunkAt_cursor_le (streamOf hd m) pos fb hk).trans_eq (streamOf_length hd m)

theorem msgAchunk (h : State.Inv P s) (fb value : Nat) : State.Inv P (msgAchunk P r fb value s) := by
  refine h.withMsg fun m hm => .ite (fun _ => h) fun _ => ?_
  split
  · exact h
  · exact .ite (fun _ => h) fun hmax =>
      (h.setMsg (hm.append (by rw [bitsOfNat_length]; exact Nat.le_of_not_lt hmax))).answer _ _ _

/-- The bits dropped after the last whole byte leave as many whole bytes (R178). -/
theorem msgAend (h : State.Inv P s) : State.Inv P (msgAend r s) := by
  refine h.withMsg fun m hm => .ite (fun _ => h) fun _ => ?_
  obtain ⟨-, -, -, hmax, -⟩ := id hm
  have hlen := wholeBytes_length m.buf
  exact (h.setMsg (hm.setBuf (by omega) (by omega))).answer _ _ _

/-! ## The ARQ engine -/

/-- A 16-bit timeout is within any legal `T_MAX` (R268, log 21). -/
theorem arqOpen (h : State.Inv P s) (hP : LegalParams P) {window timeout : Nat} (ht : timeout < 65536) :
    State.Inv P (arqOpen P window timeout s) := by
  refine .ite (fun _ => h) fun _ => .ite (fun _ => h) fun hr => h.commitArq (SessionInv.opening (a := s.arq) ?_)
  have hT := hP.timeout_range.2
  obtain ⟨hmin, hmax, hT'⟩ : wMin ≤ window ∧ window ≤ P.wMax ∧ P.tMin ≤ timeout := by omega
  exact ⟨hmin, hmax, hT', by omega⟩

theorem arqSend (h : State.Inv P s) (handle : U16) : State.Inv P (arqSend P handle s) := by
  unfold Machine.arqSend
  split
  · exact h
  · exact h
  · rename_i hp
    refine .ite (fun _ => h) fun hlong => ?_
    have hfit := Bool.eq_false_iff.mpr hlong
    exact .ite (fun ⟨hl, hq, hspace⟩ => h.commitArq (h.session.alloc hp hfit hl hq hspace handle _))
      fun hbusy => .ite (fun _ => h) fun _ => h.commitArq (h.session.enqueue hp hfit hbusy handle)

theorem arqRecv (h : State.Inv P s) : State.Inv P (arqRecv P s) := by
  unfold Machine.arqRecv
  split
  · exact h
  · refine h.commitArq ?_
    unfold recvClosed
    split <;> exact h.session
  · rename_i hp
    exact h.commitArq (h.session.recvOpen (x := Acc.start s.arq) hp _)

theorem arqTick (h : State.Inv P s) : State.Inv P (arqTick s) :=
  .ite (fun hp => h.commitArq (h.session.tickOpen (x := Acc.start s.arq) hp)) fun _ => h

theorem arqClose (h : State.Inv P s) : State.Inv P (arqClose s) := by
  unfold Machine.arqClose
  split
  · exact h
  · rename_i hp
    exact h.commitArq (h.session.closeWith (x := Acc.start s.arq) hp _)
  · exact h

theorem arqReset (h : State.Inv P s) (hasErr : Bool) : State.Inv P (arqReset hasErr s) := by
  unfold Machine.arqReset
  split
  · exact h
  · exact h
  · rename_i hp
    exact h.commitArq (h.session.resetOpen (x := Acc.start s.arq) hp _)

theorem arqLowerfail (h : State.Inv P s) : State.Inv P (arqLowerfail s) := by
  unfold Machine.arqLowerfail
  split
  · exact h
  · rename_i hp
    exact h.commitArq (h.session.closeWith (x := Acc.start s.arq) hp _)
  · exact h

end State.Inv

/-! ## Every command and every step -/

/-- Every command whose fields fit their word keeps the invariants, at legal parameters. -/
theorem execWith_inv {P : Config.Params} (hP : LegalParams P) {i : Instr} (hi : i.wellFormed = true) {s : State}
    (h : State.Inv P s) : State.Inv P (execWith P i s) := by
  have hline : 1 ≤ P.lineMax := Nat.le_trans (by decide) hP.line_big
  have hfrm : FrmInv P s.frm := by
    obtain ⟨-, -, hfrm, -, -⟩ := h
    exact hfrm
  cases i with
  | sysReset => exact inv_resetUnits hP s.port
  | crcReset => exact h
  | crcUpdate byte => exact h
  | crcFinish => exact h
  | msgClear r => exact h.withMsg fun _ _ => h.setMsg msgInv_empty
  | msgSetaddr r dst src =>
    simp only [Instr.wellFormed, Bool.and_eq_true, decide_eq_true_eq] at hi
    obtain ⟨⟨-, hdst⟩, hsrc⟩ := hi
    exact h.msgSetaddr hdst hsrc
  | msgSetcode r code =>
    simp only [Instr.wellFormed, Bool.and_eq_true, decide_eq_true_eq] at hi
    exact h.msgSetcode hi.2
  | msgSetprio r prio => exact h.withMsg fun _ hm => h.setMsg hm
  | msgAdddata r => exact h.msgAdddata
  | msgHeader r => exact h.withMsg fun _ _ => h.withHeader fun _ _ => h
  | msgHdrlen r => exact h.msgHdrlen
  | msgFirstbits r n => exact h.withMsg fun _ _ => h.withHeader fun _ _ => .ite (fun _ => h) fun _ => h
  | msgGet r => exact h.withMsg fun _ _ => h
  | msgXstart r => exact h.withMsg fun _ hm => h.withHeader fun _ hn => h.setMsg (hm.setCursor hn (Nat.zero_le _))
  | msgXchunk r fb => exact h.msgXchunk fb
  | msgAstart r => exact h.withMsg fun _ _ => h.setMsg msgInv_empty
  | msgAchunk r fb value => exact h.msgAchunk fb value
  | msgAend r => exact h.msgAend
  | frmRxbyte byte => exact h.commitFrm (rxByte_inv hfrm hline byte)
  | frmTimeout => exact h.commitFrm (rxTimeout_inv hfrm)
  | frmSend r =>
    exact h.withMsg fun _ _ => h.withHeader fun _ _ => .ite (fun _ => h) fun _ => .ite (fun _ => h) fun _ => h
  | frmRelease => exact h.commitFrm (x := Acc.start _) (release_hold_inv hfrm)
  | arqOpen window timeout =>
    simp only [Instr.wellFormed, Bool.and_eq_true, decide_eq_true_eq] at hi
    exact h.arqOpen hP hi.2
  | arqSend handle => exact h.arqSend handle
  | arqRecv => exact h.arqRecv
  | arqTick => exact h.arqTick
  | arqClose => exact h.arqClose
  | arqReset hasErr => exact h.arqReset hasErr
  | arqLowerfail => exact h.arqLowerfail
  | arqNext => exact h

/-- A step is a refusal or a command with fields that fit, so it keeps the invariants. -/
theorem stepWith_inv {P : Config.Params} (hP : LegalParams P) {s : State} (h : State.Inv P s) :
    State.Inv P (stepWith P s) := by
  rcases stepWith_cases P s with ⟨-, he⟩ | ⟨c, rest, -, ⟨-, -, he⟩ | ⟨i, hd, he⟩⟩ <;> rw [he]
  · exact h
  · exact h
  · exact execWith_inv hP (decode_wellFormed c.word i hd) h

end Sys2Proof.Machine

namespace Sys2Proof.Settled

open Sys2Proof.Machine

/-- Settles O14: every unit's reset value meets its invariant. -/
theorem invariantAtReset : Obligations.InvariantAtReset :=
  ⟨inv_resetUnits defaultParams_legal Port.reset, fun _ hP port => inv_resetUnits hP port⟩

/-- Settles O15, by the case of every command in `execWith_inv`. -/
theorem invariantKept : Obligations.InvariantKept := by
  refine ⟨fun s t h hst => ?_, fun P hP s h => stepWith_inv hP h⟩
  rw [step_eq_stepWith, Host.Outcome.next.injEq] at hst
  exact hst ▸ stepWith_inv defaultParams_legal h

end Sys2Proof.Settled

/-! The command word, read and written (R100 to R103): what a decoded word holds, what the word of a well-formed command
decodes to, and the rows of the match and mask table that select a word. -/

namespace Sys2Proof

/-! ## Fields and immediates -/

theorem sext8_unsext8 (a : Int) (h : AddrField a) : sext8 (unsext8 a) = a := by
  obtain ⟨hlo, hhi⟩ := h
  unfold sext8 unsext8
  split <;> omega

theorem unsext8_sext8 (v : Nat) (h : v < 256) : unsext8 (sext8 v) = v := by
  unfold sext8 unsext8
  split <;> omega

/-- Bit by bit, a field is the stretch of the word from `lo` to `hi` (R12). -/
theorem field_testBit (w : Word) (hi lo j : Nat) :
    (field w hi lo).testBit j = (decide (j < hi + 1 - lo) && w.getLsbD (lo + j)) := by
  rw [field, Nat.testBit_mod_two_pow, Nat.testBit_div_two_pow, BitVec.getLsbD, Nat.add_comm j lo]

/-- A field is 0 exactly when each of its bits is (R103). -/
theorem field_eq_zero_iff (w : Word) (hi lo : Nat) :
    field w hi lo = 0 ↔ ∀ k, lo ≤ k → k ≤ hi → w.getLsbD k = false := by
  constructor
  · intro h k hlo hhi
    have hbit := field_testBit w hi lo (k - lo)
    rw [h, Nat.zero_testBit, show lo + (k - lo) = k by omega] at hbit
    simpa [show k - lo < hi + 1 - lo by omega] using hbit.symm
  · intro h
    refine Nat.eq_of_testBit_eq fun j => ?_
    rw [field_testBit, Nat.zero_testBit]
    by_cases hj : j < hi + 1 - lo
    · rw [h (lo + j) (by omega) (by omega), Bool.and_false]
    · simp [hj]

/-- The opcode is the word from bit 24 up (R100). -/
theorem opOf_eq_iff (w : Word) (op : Nat) (hop : op < 256) :
    opOf w = op ↔ ∀ k, 24 ≤ k → k < 32 → w.getLsbD k = op.testBit (k - 24) := by
  constructor
  · rintro rfl k hlo hhi
    rw [opOf, field_testBit, Nat.add_sub_cancel' hlo, decide_eq_true (by omega), Bool.true_and]
  · intro h
    refine Nat.eq_of_testBit_eq fun j => ?_
    rw [opOf, field_testBit]
    by_cases hj : j < 8
    · rw [h (24 + j) (by omega) (by omega), Nat.add_sub_cancel_left, decide_eq_true (by omega), Bool.true_and]
    · rw [decide_eq_false (by omega), Bool.false_and]
      exact (Nat.testBit_lt_two_pow (hop.trans_le (Nat.pow_le_pow_right Nat.two_pos (by omega : 8 ≤ j)))).symm

/-! ## The rows -/

/-- The stretch of `imm` that a command's row leaves unassigned, as its highest and its lowest bit (R101); an empty one
where the row assigns every bit. -/
def Instr.unassigned : Instr → Nat × Nat
  | .crcUpdate _ | .frmRxbyte _ => (23, 8)
  | .msgSetaddr _ _ _ => (21, 16)
  | .msgSetcode _ _ => (21, 8)
  | .msgSetprio _ _ => (21, 2)
  | .msgFirstbits _ _ => (21, 19)
  | .msgXchunk _ _ => (21, 5)
  | .msgClear _ | .msgAdddata _ | .msgHeader _ | .msgHdrlen _ | .msgGet _ | .msgXstart _ | .msgAstart _ | .msgAend _
  | .frmSend _ => (21, 0)
  | .msgAchunk _ _ _ | .arqOpen _ _ => (23, 24)
  | .arqSend _ => (23, 16)
  | .arqReset _ => (23, 1)
  | .sysReset | .crcReset | .crcFinish | .frmTimeout | .frmRelease | .arqRecv | .arqTick | .arqClose | .arqLowerfail
  | .arqNext => (23, 0)

/-- The word carries the opcode of `i` and no bit that the row of `i` leaves unassigned (R103). -/
def Instr.Fits (i : Instr) (w : Word) : Prop :=
  opOf w = i.opcode ∧ field w i.unassigned.1 i.unassigned.2 = 0

theorem unassigned_le (i : Instr) : i.unassigned.1 < 24 ∧ i.unassigned.2 ≤ i.unassigned.1 + 1 := by
  cases i <;> simp [Instr.unassigned]

/-- The opcodes that R101 lists. -/
theorem opcode_listed (i : Instr) :
    i.opcode = 0x01 ∨ 0x10 ≤ i.opcode ∧ i.opcode ≤ 0x12 ∨ 0x20 ≤ i.opcode ∧ i.opcode ≤ 0x2D ∨
      0x30 ≤ i.opcode ∧ i.opcode ≤ 0x33 ∨ 0x40 ≤ i.opcode ∧ i.opcode ≤ 0x47 := by
  cases i <;> simp [Instr.opcode]

theorem opcode_lt (i : Instr) : i.opcode < 256 := by
  have := opcode_listed i
  omega

/-- The bits a row compares: the opcode's and the unassigned ones (R102). -/
def Instr.mask (i : Instr) : Nat :=
  2 ^ 24 * (2 ^ 8 - 1) + 2 ^ i.unassigned.2 * (2 ^ (i.unassigned.1 + 1 - i.unassigned.2) - 1)

/-- The row of a command's mnemonic (R102). -/
def Instr.row (i : Instr) : OpRow := ⟨i.mnemonic, BitVec.ofNat 32 (2 ^ 24 * i.opcode), BitVec.ofNat 32 i.mask⟩

/-- One command of each row, in the order of the table. -/
def rowCommands : List Instr :=
  [.sysReset, .crcReset, .crcUpdate 0, .crcFinish, .frmRxbyte 0, .frmTimeout, .frmSend 0, .frmRelease, .msgClear 0,
    .msgSetaddr 0 0 0, .msgSetcode 0 0, .msgSetprio 0 0, .msgAdddata 0, .msgHeader 0, .msgHdrlen 0, .msgFirstbits 0 0,
    .msgGet 0, .msgXstart 0, .msgXchunk 0 0, .msgAstart 0, .msgAchunk 0 0 0, .msgAend 0, .arqOpen 0 0, .arqSend 0,
    .arqRecv, .arqTick, .arqClose, .arqReset false, .arqLowerfail, .arqNext]

theorem opcodeTable_eq_map_row : opcodeTable = rowCommands.map Instr.row := by
  simp [opcodeTable, opcodeTableSysCrcFrm, opcodeTableMsg, opcodeTableArq, rowCommands, Instr.row, Instr.mask,
    Instr.unassigned, Instr.mnemonic, Instr.opcode]

/-- The opcode names the row (R101, R102). -/
theorem find_row (i : Instr) : (rowCommands.find? fun j => j.opcode = i.opcode).map Instr.row = some i.row := by
  cases i <;> rfl

theorem row_eq_of_opcode_eq {i j : Instr} (h : i.opcode = j.opcode) : i.row = j.row := by
  have hi := find_row i
  rw [h, find_row j, Option.some.injEq] at hi
  exact hi.symm

/-- The table holds the row of every command and nothing else (R102). -/
theorem mem_opcodeTable_iff (row : OpRow) : row ∈ opcodeTable ↔ ∃ i : Instr, i.row = row := by
  rw [opcodeTable_eq_map_row, List.mem_map]
  constructor
  · rintro ⟨i, -, hi⟩
    exact ⟨i, hi⟩
  · rintro ⟨i, rfl⟩
    obtain ⟨j, hj, hrow⟩ := Option.map_eq_some_iff.mp (find_row i)
    exact ⟨j, List.mem_of_find?_eq_some hj, hrow⟩

/-- The bits of a row's mask are the opcode's and the unassigned ones (R102). -/
theorem mask_testBit (i : Instr) (k : Nat) (hk : k < 32) :
    i.mask.testBit k = decide (24 ≤ k ∨ i.unassigned.2 ≤ k ∧ k ≤ i.unassigned.1) := by
  obtain ⟨hhi, hlo⟩ := unassigned_le i
  have hlt : 2 ^ i.unassigned.2 * (2 ^ (i.unassigned.1 + 1 - i.unassigned.2) - 1) < 2 ^ 24 := by
    calc 2 ^ i.unassigned.2 * (2 ^ (i.unassigned.1 + 1 - i.unassigned.2) - 1)
        < 2 ^ i.unassigned.2 * 2 ^ (i.unassigned.1 + 1 - i.unassigned.2) :=
          Nat.mul_lt_mul_of_pos_left (Nat.sub_lt (Nat.two_pow_pos _) Nat.one_pos) (Nat.two_pow_pos _)
      _ = 2 ^ (i.unassigned.1 + 1) := by rw [← Nat.pow_add, Nat.add_sub_cancel' hlo]
      _ ≤ 2 ^ 24 := Nat.pow_le_pow_right Nat.two_pos hhi
  rw [Instr.mask, Nat.testBit_two_pow_mul_add _ hlt, Nat.testBit_two_pow_mul, Nat.testBit_two_pow_sub_one,
    Nat.testBit_two_pow_sub_one, Bool.eq_iff_iff]
  split <;> simp only [Bool.and_eq_true, decide_eq_true_eq] <;> omega

/-- The match and mask of a row say that the word carries its opcode and no unassigned bit (R102, R103). -/
theorem row_selects_iff (i : Instr) (w : Word) : i.row.Selects w ↔ i.Fits w := by
  obtain ⟨hhi, hlo⟩ := unassigned_le i
  have hand (k : Nat) (hk : k < 32) :
      (w &&& i.row.mask).getLsbD k =
        (w.getLsbD k && decide (24 ≤ k ∨ i.unassigned.2 ≤ k ∧ k ≤ i.unassigned.1)) := by
    rw [BitVec.getLsbD_and, Instr.row, BitVec.getLsbD_ofNat, mask_testBit i k hk, decide_eq_true hk, Bool.true_and]
  have hpattern (k : Nat) (hk : k < 32) :
      i.row.pattern.getLsbD k = (decide (24 ≤ k) && i.opcode.testBit (k - 24)) := by
    rw [Instr.row, BitVec.getLsbD_ofNat, Nat.testBit_two_pow_mul, decide_eq_true hk, Bool.true_and]
  rw [Instr.Fits, opOf_eq_iff w _ (opcode_lt i), field_eq_zero_iff, OpRow.Selects, BitVec.eq_of_getLsbD_eq_iff]
  constructor
  · intro h
    have hbit (k : Nat) (hk : k < 32) := (hand k hk).symm.trans ((h k hk).trans (hpattern k hk))
    constructor
    · intro k hk hk'
      simpa [hk] using hbit k hk'
    · intro k hk hk'
      simpa [hk, hk', show ¬ 24 ≤ k by omega] using hbit k (by omega)
  · rintro ⟨hop, hz⟩ k hk
    rw [hand k hk, hpattern k hk]
    by_cases h24 : 24 ≤ k
    · simp [h24, hop k h24 hk]
    · by_cases hun : i.unassigned.2 ≤ k ∧ k ≤ i.unassigned.1
      · simp [h24, hz k hun.1 hun.2]
      · simp [h24, hun]

/-! ## The decoder -/

theorem needZero_eq_ok_iff (w : Word) (hi lo : Nat) (i j : Instr) :
    needZero w hi lo i = .ok j ↔ field w hi lo = 0 ∧ i = j := by
  unfold needZero
  split <;> simp_all

/-- A decoded word fits the row of its command, and its immediates are those of the word (R100, R101). -/
theorem decode_fits (w : Word) (i : Instr) (h : decode w = .ok i) : i.Fits w ∧ i.imm = w.toNat % 2 ^ 24 := by
  have hdst := unsext8_sext8 _ (field_lt w 15 8)
  have hsrc := unsext8_sext8 _ (field_lt w 7 0)
  have hflag : (field w 0 0 == 1).toNat = field w 0 0 := by
    obtain hf | hf := Nat.le_one_iff_eq_zero_or_eq_one.mp (Nat.le_of_lt_succ (field_lt w 0 0)) <;> rw [hf] <;> rfl
  unfold decode at h
  split at h
  case h_31 => cases h
  case h_17 hop =>
    cases h
    refine ⟨⟨hop, Nat.mod_one _⟩, ?_⟩
    simp only [Instr.imm, regOf, field]
    omega
  case h_23 hop =>
    cases h
    refine ⟨⟨hop, Nat.mod_one _⟩, ?_⟩
    simp only [Instr.imm, field]
    omega
  all_goals
    rename_i hop
    obtain ⟨hz, rfl⟩ := (needZero_eq_ok_iff _ _ _ _ _).mp h
    refine ⟨⟨hop, hz⟩, ?_⟩
    simp only [Instr.imm, hdst, hsrc, hflag, BitVec.toNat_ofNat, Fin.ofNat]
    simp only [regOf, field] at hz ⊢
    omega

/-- A word that fits a row decodes to a command of the row (R102). -/
theorem decode_of_fits (w : Word) (i : Instr) (h : i.Fits w) : ∃ j, decode w = .ok j ∧ j.mnemonic = i.mnemonic := by
  obtain ⟨hop, hz⟩ := h
  cases i <;> simp only [Instr.opcode, Instr.unassigned] at hop hz <;> simp [decode, hop, needZero, hz, Instr.mnemonic]

/-- A word is its opcode and its immediates (R100). -/
theorem encode_eq (w : Word) (i : Instr) (hop : opOf w = i.opcode) (himm : i.imm = w.toNat % 2 ^ 24) :
    encode i = w := by
  have hw := w.isLt
  simp only [opOf, field] at hop
  refine BitVec.eq_of_toNat_eq ?_
  rw [encode, BitVec.toNat_ofNat, himm, ← hop]
  omega

/-- The immediates of every well-formed command fit `imm`, and its word carries its opcode (R100, R101). -/
theorem encode_fits (i : Instr) : Laws.EncodeFits.Statement i := by
  cases i with
  | sysReset => exact Laws.EncodeFits.sysReset
  | crcReset => exact Laws.EncodeFits.crcReset
  | crcUpdate byte => exact Laws.EncodeFits.crcUpdate byte
  | crcFinish => exact Laws.EncodeFits.crcFinish
  | msgClear r => exact Laws.EncodeFits.msgClear r
  | msgSetaddr r dst src => exact Laws.EncodeFits.msgSetaddr r dst src
  | msgSetcode r code => exact Laws.EncodeFits.msgSetcode r code
  | msgSetprio r prio => exact Laws.EncodeFits.msgSetprio r prio
  | msgAdddata r => exact Laws.EncodeFits.msgAdddata r
  | msgHeader r => exact Laws.EncodeFits.msgHeader r
  | msgHdrlen r => exact Laws.EncodeFits.msgHdrlen r
  | msgFirstbits r n => exact Laws.EncodeFits.msgFirstbits r n
  | msgGet r => exact Laws.EncodeFits.msgGet r
  | msgXstart r => exact Laws.EncodeFits.msgXstart r
  | msgXchunk r frameBits => exact Laws.EncodeFits.msgXchunk r frameBits
  | msgAstart r => exact Laws.EncodeFits.msgAstart r
  | msgAchunk r frameBits value => exact Laws.EncodeFits.msgAchunk r frameBits value
  | msgAend r => exact Laws.EncodeFits.msgAend r
  | frmRxbyte byte => exact Laws.EncodeFits.frmRxbyte byte
  | frmTimeout => exact Laws.EncodeFits.frmTimeout
  | frmSend r => exact Laws.EncodeFits.frmSend r
  | frmRelease => exact Laws.EncodeFits.frmRelease
  | arqOpen window timeout => exact Laws.EncodeFits.arqOpen window timeout
  | arqSend handle => exact Laws.EncodeFits.arqSend handle
  | arqRecv => exact Laws.EncodeFits.arqRecv
  | arqTick => exact Laws.EncodeFits.arqTick
  | arqClose => exact Laws.EncodeFits.arqClose
  | arqReset hasErr => exact Laws.EncodeFits.arqReset hasErr
  | arqLowerfail => exact Laws.EncodeFits.arqLowerfail
  | arqNext => exact Laws.EncodeFits.arqNext

/-- The decoder finds in a well-formed command's word the row and the immediates that the encoder wrote (R100, R101). -/
theorem decode_encode (i : Instr) (hw : i.wellFormed = true) : decode (encode i) = .ok i := by
  obtain ⟨-, hn, hop⟩ := encode_fits i hw
  generalize encode i = w at hn hop ⊢
  cases i <;> simp only [Instr.opcode, Instr.imm, Instr.wellFormed, Bool.and_eq_true, decide_eq_true_eq] at hn hop hw
  case sysReset | crcReset | crcFinish | frmTimeout | frmRelease | arqRecv | arqTick | arqClose | arqLowerfail
    | arqNext =>
    have hz : field w 23 0 = 0 := by simp only [field]; omega
    simp [decode, hop, needZero, hz]
  case msgClear r | msgAdddata r | msgHeader r | msgHdrlen r | msgGet r | msgXstart r | msgAstart r | msgAend r
    | frmSend r =>
    have hf : field w 21 0 = 0 ∧ regOf w = r := by simp only [regOf, field]; omega
    simp [decode, hop, needZero, hf]
  case crcUpdate byte | frmRxbyte byte =>
    have hb := byte.isLt
    have hf : field w 23 8 = 0 ∧ field w 7 0 = byte.toNat := by simp only [field]; omega
    simp [decode, hop, needZero, hf]
  case arqSend handle =>
    have hh := handle.isLt
    have hf : field w 23 16 = 0 ∧ field w 15 0 = handle.toNat := by simp only [field]; omega
    simp [decode, hop, needZero, hf]
  case arqReset hasErr =>
    have he := hasErr.toNat_lt
    have hf : field w 23 1 = 0 ∧ field w 0 0 = hasErr.toNat := by simp only [field]; omega
    simp [decode, hop, needZero, hf]
  case msgSetaddr r dst src =>
    obtain ⟨⟨hr, hdst⟩, hsrc⟩ := hw
    have hd := Laws.EncodeFits.unsext8_lt dst
    have hs := Laws.EncodeFits.unsext8_lt src
    have hf : field w 21 16 = 0 ∧ regOf w = r ∧ field w 15 8 = unsext8 dst ∧ field w 7 0 = unsext8 src := by
      simp only [regOf, field]; omega
    simp [decode, hop, needZero, hf, sext8_unsext8 _ hdst, sext8_unsext8 _ hsrc]
  case msgSetcode r code =>
    have hf : field w 21 8 = 0 ∧ regOf w = r ∧ field w 7 0 = code := by simp only [regOf, field]; omega
    simp [decode, hop, needZero, hf]
  case msgSetprio r prio =>
    have hp := prio.isLt
    have hf : field w 21 2 = 0 ∧ regOf w = r ∧ field w 1 0 = prio := by simp only [regOf, field]; omega
    simp [decode, hop, needZero, hf]
  case msgFirstbits r n =>
    have hf : field w 21 19 = 0 ∧ regOf w = r ∧ field w 18 0 = n := by simp only [regOf, field]; omega
    simp [decode, hop, needZero, hf]
  case msgXchunk r fb =>
    have hf : field w 21 5 = 0 ∧ regOf w = r ∧ field w 4 0 = fb := by simp only [regOf, field]; omega
    simp [decode, hop, needZero, hf]
  case msgAchunk r fb value =>
    have hf : regOf w = r ∧ field w 21 17 = fb ∧ field w 16 0 = value := by simp only [regOf, field]; omega
    simp [decode, hop, hf]
  case arqOpen window timeout =>
    have hf : field w 23 16 = window ∧ field w 15 0 = timeout := by simp only [field]; omega
    simp [decode, hop, hf]

end Sys2Proof

namespace Sys2Proof.Machine

/-- A word that fits no row is refused with ILLEGAL (R103). -/
theorem step_of_error {s : State} {c : Command} {rest : List Command} {e : DecodeError}
    (h : s.port.issued = c :: rest) (hd : decode c.word = .error e) :
    step s = .next { s with port := ⟨rest, c.operands, some ⟨.illegal, .none, []⟩⟩ } := by
  rw [step, fetch_of_cons s c rest h]
  simp only [hd]
  rfl

end Sys2Proof.Machine

namespace Sys2Proof.Settled

open Sys2Proof.Machine

/-- Settles O1: each field is read back from the place the encoder gives it. -/
theorem decodeOfEncode : Obligations.DecodeOfEncode := decode_encode

/-- Settles O2: a decoded word holds the opcode and the immediates of its command. -/
theorem encodeOfDecode : Obligations.EncodeOfDecode := by
  intro w i h
  obtain ⟨⟨hop, -⟩, himm⟩ := decode_fits w i h
  exact ⟨decode_wellFormed w i h, encode_eq w i hop himm⟩

/-- Settles O3: a row selects a word exactly when the word fits it, and the word's opcode names the row. -/
theorem decodeAgreesWithTable : Obligations.DecodeAgreesWithTable := by
  refine fun w => ⟨fun i h => ?_, fun row hrow hsel => ?_, fun a ha b hb hsa hsb => ?_⟩
  · exact ⟨i.row, (mem_opcodeTable_iff _).mpr ⟨i, rfl⟩, rfl, (row_selects_iff i w).mpr (decode_fits w i h).1⟩
  · obtain ⟨i, rfl⟩ := (mem_opcodeTable_iff row).mp hrow
    exact decode_of_fits w i ((row_selects_iff i w).mp hsel)
  · obtain ⟨i, rfl⟩ := (mem_opcodeTable_iff a).mp ha
    obtain ⟨j, rfl⟩ := (mem_opcodeTable_iff b).mp hb
    obtain ⟨hi, -⟩ := (row_selects_iff i w).mp hsa
    obtain ⟨hj, -⟩ := (row_selects_iff j w).mp hsb
    exact row_eq_of_opcode_eq (hi.symm.trans hj)

/-- Settles O4, by reading the nine words. -/
theorem specWordsDecode : Obligations.SpecWordsDecode := by
  unfold Obligations.SpecWordsDecode
  decide

/-- Settles O6: a word that decodes is selected by the row of its command, and a selected word has a command's opcode. -/
theorem stepRefusesIllegalWord : Obligations.StepRefusesIllegalWord := by
  refine ⟨fun s c rest h hnone => ?_, fun w hres row hrow hsel => ?_⟩
  · cases hd : decode c.word with
    | error e => exact step_of_error h hd
    | ok i =>
      exact absurd ((row_selects_iff i c.word).mpr (decode_fits c.word i hd).1)
        (hnone _ ((mem_opcodeTable_iff _).mpr ⟨i, rfl⟩))
  · obtain ⟨i, rfl⟩ := (mem_opcodeTable_iff row).mp hrow
    obtain ⟨hop, -⟩ := (row_selects_iff i w).mp hsel
    have hlisted := opcode_listed i
    omega

end Sys2Proof.Settled

/-! A command that the host writes as its word, run by a step (R10, R75), and from it the stream form of the CRC unit
(R107, R132). -/

namespace Sys2Proof.Machine

/-- A step on the word of a well-formed command runs the command, with a blank operand record at the port (R10, R75). -/
theorem stepWith_plain (P : Config.Params) {i : Instr} (hi : i.wellFormed = true) {s : State} {rest : List Command}
    (h : s.port.issued = plain i :: rest) :
    stepWith P s = execWith P i { s with port := { s.port with issued := rest, operands := {} } } := by
  have hd : decode (plain i).word = .ok i := decode_encode i hi
  rcases stepWith_cases P s with ⟨hnil, -⟩ | ⟨c, rest', hc, ⟨e, he, -⟩ | ⟨j, hj, hstep⟩⟩
  · rw [h] at hnil
    cases hnil
  all_goals
    rw [h] at hc
    obtain ⟨rfl, rfl⟩ := List.cons.inj hc
  · rw [hd] at he
    cases he
  · rw [hd] at hj
    cases hj
    exact hstep

/-- CRC.UPDATE on each byte and CRC.FINISH, from any accumulator (R107, R135, R136). -/
theorem runWith_updates_finish (P : Config.Params) (bytes : Bytes) (rest : List Command) (s : State)
    (h : s.port.issued = bytes.map (fun b => plain (.crcUpdate b)) ++ plain .crcFinish :: rest) :
    runWith P (bytes.length + 1) s =
      { s with
        crc := ⟨crcFold P s.crc.acc bytes⟩
        port := ⟨rest, {}, some ⟨.ok, .num (P.crcFin (crcFold P s.crc.acc bytes)).toNat, []⟩⟩ } := by
  induction bytes generalizing s with
  | nil =>
    rw [List.length_nil, runWith, stepWith_plain P rfl h]
    rfl
  | cons b bytes ih =>
    rw [List.length_cons, runWith, stepWith_plain P rfl h, ih _ rfl]
    rfl

/-- A register number beyond the register file is refused with RANGE by every command that names it (R101). -/
theorem execWith_of_missing (P : Config.Params) {r : Nat} {s : State} (h : s.msgs.length ≤ r)
    (dst src : Int) (code n frameBits value : Nat) (prio : Fin 4) :
    ∀ i ∈ [Instr.msgClear r, .msgSetaddr r dst src, .msgSetcode r code, .msgSetprio r prio, .msgAdddata r, .msgHeader r,
        .msgHdrlen r, .msgFirstbits r n, .msgGet r, .msgXstart r, .msgXchunk r frameBits, .msgAstart r,
        .msgAchunk r frameBits value, .msgAend r, .frmSend r],
      execWith P i s = s.answer .range .none [] := by
  have hmiss (f : Msg → State) : s.withMsg r f = s.refuse .range := withMsg_of_none s r f (msg_none_of_le s r h)
  simp only [List.forall_mem_cons, List.not_mem_nil, false_implies, implies_true, and_true]
  exact ⟨hmiss _, hmiss _, hmiss _, hmiss _, hmiss _, hmiss _, hmiss _, hmiss _, hmiss _, hmiss _, hmiss _, hmiss _,
    hmiss _, hmiss _, hmiss _⟩

end Sys2Proof.Machine

namespace Sys2Proof.Settled

open Sys2Proof.Machine

/-- Settles O20: CRC.RESET, then the bytes one by one, then CRC.FINISH. -/
theorem crcOfStream : Obligations.CrcOfStream := by
  intro P bytes rest s h
  have hissued : s.port.issued =
      plain .crcReset :: (bytes.map (fun b => plain (.crcUpdate b)) ++ plain .crcFinish :: rest) := by
    simpa [crcOver] using h
  rw [runWith, stepWith_plain P rfl hissued, runWith_updates_finish P bytes rest _ rfl]
  rfl

/-- Settles O23: the register file is shorter than the number, at every choice of the parameters. -/
theorem registerOutOfRange : Obligations.RegisterOutOfRange := by
  intro r dst src code n frameBits value prio s i hi
  refine ⟨fun hlen hr => (exec_eq_next_iff i s _).mpr ?_, fun P hlen hr => ?_⟩
  · exact execWith_of_missing defaultParams (hlen.trans_le hr) dst src code n frameBits value prio i hi
  · exact execWith_of_missing P (hlen.trans_le hr) dst src code n frameBits value prio i hi

end Sys2Proof.Settled

/-! The header read back from its encoding (R91, R92, R176): the two tag bits fix the three fields' places, a stretch
shorter than the header is kept, and the first append that completes it splits it off. -/

namespace Sys2Proof.Machine

/-- The tag bit of an address (R91). -/
def addrTag (a : Int) : Bool := decide (a < 0)

theorem tagW_addrTag (a : Int) : tagW (addrTag a) = addrW a := by simp [tagW, addrTag, addrW]

theorem tagHdrBits_addrTag (dst src : Int) : tagHdrBits (addrTag dst) (addrTag src) = hdrBits dst src := by
  rcases hdrBits_cases dst src with ⟨hd, hs, -, hb⟩ | ⟨hd, hs, -, hb⟩ | ⟨hd, hs, -, hb⟩ | ⟨hd, hs, -, hb⟩ <;>
    simp [tagHdrBits, addrTag, hb, hd, hs, not_lt.mpr]

/-- An address field begins with its tag bit (R91). -/
theorem encAddr_zero (a : Int) : (encAddr a)[0]? = some (addrTag a) := by
  unfold encAddr addrTag
  split <;> simp [*]

/-- An address is read back from its field (R91). -/
theorem decAddr_encAddr (a : Int) (hlo : -4 ≤ a) (hhi : a ≤ 127) : decAddr (encAddr a) = a := by
  unfold encAddr
  split
  · have hu := uint_bitsOfNat_of_lt 2 (a + 4).toNat (by omega)
    simp only [decAddr, hu]
    omega
  · have hu := uint_bitsOfNat_of_lt 7 a.toNat (by omega)
    simp only [decAddr, uint_cons, hu, Bool.toNat_false]
    omega

/-- A stretch between two others (R13). -/
theorem slice_append_middle (A B C : Bits) : slice (A ++ (B ++ C)) A.length (A.length + B.length) = B := by
  simp [slice]

section Header

variable (h : Hdr) (rest : Bits)

/-- The destination's tag is the first bit of a header (R92). -/
theorem encHeader_dstTag : (encHeader h ++ rest)[0]? = some (addrTag h.dst) := by
  have hpos : 0 < (encAddr h.dst).length := by rcases addrW_cases h.dst with ⟨-, hw⟩ | ⟨-, hw⟩ <;> simp [hw]
  rw [encHeader, List.append_assoc, List.append_assoc, List.getElem?_append_left hpos, encAddr_zero]

/-- The source's tag follows the destination's field (R92). -/
theorem encHeader_srcTag : (encHeader h ++ rest)[addrW h.dst]? = some (addrTag h.src) := by
  have hpos : 0 < (encAddr h.src).length := by rcases addrW_cases h.src with ⟨-, hw⟩ | ⟨-, hw⟩ <;> simp [hw]
  rw [encHeader, List.append_assoc, List.append_assoc, List.getElem?_append_right (by simp), encAddr_length,
    Nat.sub_self, List.getElem?_append_left hpos, encAddr_zero]

/-- A complete header is split off, and what follows it is left (R92, R176). -/
theorem headerSplit_encHeader (hdst : -4 ≤ h.dst ∧ h.dst ≤ 127) (hsrc : -4 ≤ h.src ∧ h.src ≤ 127)
    (hcode : h.code < 2 ^ codeW h.dst h.src) : headerSplit (encHeader h ++ rest) = some (h, rest) := by
  have hlen : hdrBits h.dst h.src ≤ (encHeader h ++ rest).length := by simp
  have hd : slice (encHeader h ++ rest) 0 (addrW h.dst) = encAddr h.dst := by
    simpa [encHeader] using slice_append_middle [] (encAddr h.dst) _
  have hs : slice (encHeader h ++ rest) (addrW h.dst) (addrW h.dst + addrW h.src) = encAddr h.src := by
    simpa [encHeader] using slice_append_middle (encAddr h.dst) (encAddr h.src) _
  have hc : slice (encHeader h ++ rest) (addrW h.dst + addrW h.src) (hdrBits h.dst h.src) =
      bitsOfNat (codeW h.dst h.src) h.code := by
    simpa [encHeader, hdrBits] using
      slice_append_middle (encAddr h.dst ++ encAddr h.src) (bitsOfNat (codeW h.dst h.src) h.code) rest
  have hrest : (encHeader h ++ rest).drop (hdrBits h.dst h.src) = rest := by simp
  unfold headerSplit
  simp only [encHeader_dstTag, tagW_addrTag, encHeader_srcTag, tagHdrBits_addrTag, if_pos hlen, hd, hs, hc, hrest,
    decAddr_encAddr _ hdst.1 hdst.2, decAddr_encAddr _ hsrc.1 hsrc.2, uint_bitsOfNat_of_lt _ _ hcode]

/-- A beginning of a header that is not the whole header is not split (R92, R176). -/
theorem headerSplit_of_short {b tail : Bits} (hb : b ++ tail = encHeader h ++ rest)
    (hlt : b.length < hdrBits h.dst h.src) : headerSplit b = none := by
  have hread {k : Nat} {t : Bool} (hk : b[k]? = some t) : (encHeader h ++ rest)[k]? = some t := by
    rw [← hb, List.getElem?_append_left (List.getElem?_eq_some_iff.mp hk).1, hk]
  unfold headerSplit
  split
  · rfl
  · rename_i t1 h1
    obtain rfl := Option.some.inj ((hread h1).symm.trans (encHeader_dstTag h rest))
    split
    · rfl
    · rename_i t2 h2
      rw [tagW_addrTag] at h2
      obtain rfl := Option.some.inj ((hread h2).symm.trans (encHeader_srcTag h rest))
      rw [tagHdrBits_addrTag, if_neg (by omega)]

end Header

/-! ## The append in pieces -/

/-- Without a header the append keeps the bits until one can be split off (R176). -/
theorem append_of_unsplit {m : Msg} {B : Bits} (hc : m.code = none) (hs : headerSplit (m.buf ++ B) = none) :
    m.append B = { m with buf := m.buf ++ B } := by
  simp [Msg.append, hc, hs]

/-- The append that completes the header sets the three fields and keeps the bits after it (R176). -/
theorem append_of_split {m : Msg} {B rest : Bits} {h : Hdr} (hc : m.code = none)
    (hs : headerSplit (m.buf ++ B) = some (h, rest)) :
    m.append B = { m with dst := some h.dst, src := some h.src, code := some h.code, buf := rest } := by
  simp [Msg.append, hc, hs]

/-- With a complete header every piece is payload (R176). -/
theorem foldl_append_of_code (pieces : List Bits) (m : Msg) (c : Nat) (hc : m.code = some c) :
    pieces.foldl Msg.append m = { m with buf := m.buf ++ pieces.flatten } := by
  induction pieces generalizing m with
  | nil => simp
  | cons B pieces ih =>
    rw [List.foldl_cons, append_of_code m B c hc, ih { m with buf := m.buf ++ B } hc]
    simp

/-- From the beginning of a header that is still incomplete, the pieces that follow complete it (R176, R180). -/
theorem foldl_append_header {h : Hdr} {rest : Bits} (hdst : -4 ≤ h.dst ∧ h.dst ≤ 127) (hsrc : -4 ≤ h.src ∧ h.src ≤ 127)
    (hcode : h.code < 2 ^ codeW h.dst h.src) (pieces : List Bits) (buf : Bits) (hlt : buf.length < hdrBits h.dst h.src)
    (hcat : buf ++ pieces.flatten = encHeader h ++ rest) :
    pieces.foldl Msg.append { Msg.empty with buf := buf } =
      { Msg.empty with dst := some h.dst, src := some h.src, code := some h.code, buf := rest } := by
  induction pieces generalizing buf with
  | nil =>
    have hlen := congrArg List.length hcat
    simp at hlen
    omega
  | cons B pieces ih =>
    rw [List.flatten_cons, ← List.append_assoc] at hcat
    rw [List.foldl_cons]
    by_cases hB : (buf ++ B).length < hdrBits h.dst h.src
    · rw [append_of_unsplit rfl (headerSplit_of_short h rest hcat hB)]
      exact ih _ hB hcat
    · obtain ⟨payload, hp⟩ : encHeader h <+: buf ++ B :=
        List.prefix_of_prefix_length_le ⟨rest, rfl⟩ ⟨_, hcat⟩ (by rw [encHeader_length]; omega)
      rw [← hp, List.append_assoc, List.append_cancel_left_eq] at hcat
      have hs := headerSplit_encHeader h payload hdst hsrc hcode
      rw [hp] at hs
      rw [append_of_split rfl hs, foldl_append_of_code _ _ h.code rfl, ← hcat]

end Sys2Proof.Machine

namespace Sys2Proof.Settled

open Sys2Proof.Machine

/-- Settles O32: the message starts with no bit of the header, and the pieces complete it. -/
theorem headerRoundTrip : Obligations.HeaderRoundTrip := by
  intro h pieces rest hd hd' hs hs' hcode hcat
  have hpos : 0 < hdrBits h.dst h.src := by have := hdrBits_mod h.dst h.src; omega
  exact foldl_append_header ⟨hd, hd'⟩ ⟨hs, hs'⟩ hcode pieces [] hpos hcat

end Sys2Proof.Settled

/-! The framer's console text (R202, R203, R208 to R210, R221, R222): what is handed out and what stays in the line, and
the record and events of a console byte in `Idle`. The frame that FRM.SEND writes is spelled out at the end (R224). -/

namespace Sys2Proof.Machine

/-! ## No console byte is lost -/

theorem consoleOut_append (ev ev' : List Event) : consoleOut (ev ++ ev') = consoleOut ev ++ consoleOut ev' :=
  List.flatMap_append

/-- The console text a command has handed out so far, followed by what stays in the line. -/
def Acc.console (x : Acc Frm) : Bytes := consoleOut x.ev ++ x.st.line

/-- An assignment that leaves the line alone. -/
theorem upd_console (x : Acc Frm) (f : Frm → Frm) (h : (f x.st).line = x.st.line) : (x.upd f).console = x.console := by
  rw [Acc.console, acc_upd_ev, acc_upd_st, h, Acc.console]

/-- An event that is no console line. -/
theorem emit_console (x : Acc Frm) (e : Event) (h : consoleOut [e] = []) : (x.emit e).console = x.console := by
  rw [Acc.console, acc_emit_ev, acc_emit_st, consoleOut_append, h, List.append_nil, Acc.console]

theorem flushLine_console (x : Acc Frm) : (flushLine x).console = x.console := by
  rw [Acc.console, flushLine_ev, flushLine_st, consoleOut_append, Acc.console]
  split
  · simp [consoleOut, *]
  · simp [consoleOut]

theorem putLine_console (P : Config.Params) (b : Byte) (x : Acc Frm) : (putLine P b x).console = x.console ++ [b] := by
  have happ (y : Acc Frm) :
      (y.upd fun f => { f with line := f.line ++ [b], lineAge := 0 }).console = y.console ++ [b] :=
    (List.append_assoc _ _ _).symm
  rw [putLine, happ]
  split
  · rw [flushLine_console]
  · rfl

theorem syncTimeout_console (x : Acc Frm) : (syncTimeout x).console = x.console := by
  unfold syncTimeout
  split
  · rfl
  · exact (emit_console _ _ rfl).trans (upd_console _ _ rfl)

theorem frameOutcome_console (x : Acc Frm) : (frameOutcome x).console = x.console := by
  rcases frameOutcome_cases x with ⟨-, he⟩ | ⟨-, -, he⟩ | ⟨-, -, -, he⟩ | ⟨-, -, -, he⟩ <;> rw [he]
  · exact emit_console _ _ rfl
  · exact emit_console _ _ rfl
  · exact emit_console _ _ rfl
  · exact (emit_console _ _ rfl).trans ((emit_console _ _ rfl).trans (upd_console _ _ rfl))

/-- A byte in `Idle` is kept as console text where it is a lead byte or text (R206 to R210). -/
theorem rxIdle_console (P : Config.Params) (b : Byte) (x : Acc Frm) (hs : x.st.s = .idle) :
    (rxIdle P b x).console = x.console ++ if isConsoleText P b x.st then [b] else [] := by
  unfold rxIdle isConsoleText
  rw [hs]
  cases classify P b with
  | ack => simpa using emit_console x .processAck rfl
  | mark p => simpa using (upd_console (flushLine x) _ rfl).trans (flushLine_console x)
  | lead n => simpa using (upd_console (putLine P b x) _ rfl).trans (putLine_console P b x)
  | eol => simpa using flushLine_console x
  | text => simpa using putLine_console P b x

theorem rxUtf8_console (P : Config.Params) (b : Byte) (x : Acc Frm) : (rxUtf8 P b x).console = x.console ++ [b] :=
  (upd_console _ _ rfl).trans (putLine_console P b x)

theorem rxCrc2_console (b : Byte) (x : Acc Frm) : (rxCrc2 b x).console = x.console :=
  (upd_console _ _ rfl).trans ((frameOutcome_console _).trans (upd_console x _ rfl))

/-- A byte outside `Idle` is kept as console text in a UTF-8 run alone (R211 to R221). -/
theorem rxByState_console (P : Config.Params) (b : Byte) (x : Acc Frm) :
    (rxByState P b x).console = x.console ++ if isConsoleText P b x.st then [b] else [] := by
  cases hs : x.st.s with
  | idle => simpa only [rxByState, hs] using rxIdle_console P b x hs
  | utf8 => simpa [rxByState, isConsoleText, hs] using rxUtf8_console P b x
  | len =>
    have hst : (rxLen P b x).st.line = x.st.line := by
      obtain ⟨-, ⟨-, he⟩ | ⟨-, he⟩⟩ := rxLen_cases P b x <;> rw [he]
    simp [rxByState, isConsoleText, hs, Acc.console, hst, (rxLen_cases P b x).1]
  | len2 => simp [rxByState, isConsoleText, hs, Acc.console]
  | data => simp [rxByState, isConsoleText, hs, Acc.console]
  | crc1 => simp [rxByState, isConsoleText, hs, Acc.console]
  | crc2 => simpa [rxByState, isConsoleText, hs] using rxCrc2_console b x

theorem lostFrame_console (x : Acc Frm) : (lostFrame x).console = x.console := by
  refine (upd_console _ _ rfl).trans ?_
  split
  · exact (flushLine_console _).trans (emit_console _ _ rfl)
  · exact emit_console _ _ rfl

theorem timeoutBusy_console (x : Acc Frm) : (timeoutBusy x).console = x.console := by
  unfold timeoutBusy
  dsimp only
  split
  · exact (lostFrame_console _).trans (upd_console _ _ rfl)
  · exact upd_console _ _ rfl

theorem timeoutIdle_console (P : Config.Params) (x : Acc Frm) : (timeoutIdle P x).console = x.console := by
  unfold timeoutIdle
  dsimp only
  split
  · rfl
  · split
    · exact (flushLine_console _).trans (upd_console _ _ rfl)
    · exact upd_console _ _ rfl

/-! ## A console byte in `Idle` -/

theorem acc_ext {σ : Type} {x y : Acc σ} (hst : x.st = y.st) (hev : x.ev = y.ev) : x = y := by
  cases x
  cases y
  cases hst
  cases hev
  rfl

/-- The record after a byte has been put in the line and the timeout runs (R203, R204). -/
def Frm.put (P : Config.Params) (b : Byte) (f : Frm) : Frm :=
  { f with idleCnt := 0, line := (if f.line.length = P.lineMax then [] else f.line) ++ [b], lineAge := 0, tmoEn := true }

/-- What putting a byte in the line in `Idle` emits: the timeout is started with an empty line, and a full line is handed
out (R203, R204). -/
def Frm.putEvents (P : Config.Params) (f : Frm) : List Event :=
  if f.line = [] then [.setTimeout true] else if f.line.length = P.lineMax then [.consoleLine f.line] else []

/-- In `Idle` the timeout runs exactly while the line holds something (R35 (a)). -/
theorem tmoEn_eq_of_idle {f : Frm} (ht : TimeoutInv f) (hs : f.s = .idle) : f.tmoEn = !f.line.isEmpty := by
  simp [ht, Frm.wantTimeout, Frm.quiescent, hs]

section Idle

variable {P : Config.Params} {b : Byte} {f : Frm}

/-- After `PutLine`, whatever becomes of the run and the receive state, `SyncTimeout` finds text in the line (R203, R204,
R208, R210). -/
theorem syncTimeout_put (hs : f.s = .idle) (ht : TimeoutInv f) {y : Acc Frm} (run : Nat) (st : FrmState)
    (hst : y.st = { (putLine P b (Acc.start { f with idleCnt := 0 })).st with utf8Rem := run, s := st })
    (hev : y.ev = (putLine P b (Acc.start { f with idleCnt := 0 })).ev) :
    syncTimeout y = ⟨{ f.put P b with utf8Rem := run, s := st }, f.putEvents P⟩ := by
  have hwant : y.st.wantTimeout = true := by simp [hst, Frm.wantTimeout, Frm.quiescent]
  have htmo := tmoEn_eq_of_idle ht hs
  apply acc_ext
  · rw [syncTimeout_st, hwant, hst, putLine_st]
    rfl
  · rw [syncTimeout_ev, hwant, hev, hst, putLine_ev]
    by_cases hl : f.line = [] <;> simp [Frm.putEvents, htmo, hl]

/-- A lead byte is put in the line and starts a run (R208). -/
theorem rxByte_of_lead {n : Nat} (hs : f.s = .idle) (ht : TimeoutInv f) (hc : classify P b = .lead n) :
    rxByte P b f = ⟨{ f.put P b with utf8Rem := n, s := .utf8 }, f.putEvents P⟩ := by
  simp only [rxByte, rxByState, acc_start_st, hs, rxIdle, hc]
  rw [← hs]
  exact syncTimeout_put hs ht n .utf8 rfl rfl

/-- Text is put in the line (R210). -/
theorem rxByte_of_text (hs : f.s = .idle) (ht : TimeoutInv f) (hc : classify P b = .text) :
    rxByte P b f = ⟨f.put P b, f.putEvents P⟩ := by
  simp only [rxByte, rxByState, acc_start_st, hs, rxIdle, hc]
  rw [← hs]
  exact syncTimeout_put hs ht f.utf8Rem f.s (by rw [putLine_st]; rfl) rfl

/-- The end of a line flushes it and stops the timeout where it ran (R209). -/
theorem rxByte_of_eol (hs : f.s = .idle) (ht : TimeoutInv f) (hc : classify P b = .eol) :
    rxByte P b f =
      ⟨{ f with idleCnt := 0, line := [], lineAge := 0, tmoEn := false },
        if f.line = [] then [] else [.consoleLine f.line, .setTimeout false]⟩ := by
  have htmo := tmoEn_eq_of_idle ht hs
  have hrx : rxByte P b f = syncTimeout (flushLine (Acc.start { f with idleCnt := 0 })) := by
    simp [rxByte, rxByState, hs, rxIdle, hc]
  rw [hrx]
  apply acc_ext
  · simp [Frm.wantTimeout, Frm.quiescent, hs]
  · by_cases hl : f.line = [] <;> simp [Frm.wantTimeout, Frm.quiescent, hs, htmo, hl]

end Idle

/-- The run length of a lead byte, as R98 tabulates it. -/
theorem runLength_eq : ∀ b : Byte, 0xC0 ≤ b.toNat →
    runLength b =
      if b.toNat < 0xE0 then 1 else if b.toNat < 0xF0 then 2 else if b.toNat < 0xF8 then 3
      else if b.toNat < 0xFC then 4 else if b.toNat < 0xFE then 5 else if b.toNat = 0xFE then 6 else 7 := by
  decide

/-! ## The frame on the line -/

/-- The length field with both its bytes written out (R95). -/
theorem lengthField_eq (L : Nat) :
    lengthField L =
      if L < 128 then [BitVec.ofNat 8 L] else [0x80#8 ||| BitVec.ofNat 8 (L / 256), BitVec.ofNat 8 (L % 256)] := by
  have hlow : BitVec.ofNat 8 (L % 256) = BitVec.ofNat 8 L := BitVec.eq_of_toNat_eq (by simp)
  rw [lengthField, hlow]

section Send

variable {P : Config.Params} {r : Nat} {s : State} {m : Msg}

theorem frmSend_of_error {st : Status} (hm : s.msg? r = some m) (hn : needHeader m = .error st) :
    frmSend P r s = s.answer st .none [] := by
  rw [frmSend, withMsg_of_some s r _ m hm]
  exact withHeader_of_error s m _ st hn

/-- With a header: a payload that is not whole bytes is refused, then a body too long, and the frame goes out (R224). -/
theorem frmSend_of_ok {h : Hdr} (hm : s.msg? r = some m) (hn : needHeader m = .ok h) :
    frmSend P r s =
      if m.buf.length % 8 ≠ 0 then s.answer .state .none []
      else if lenMax < (frameBody h m).length then s.answer .range .none []
      else s.answer .ok .none [.dataOut (frameBytes P m.prio (frameBody h m))] := by
  rw [frmSend, withMsg_of_some s r _ m hm]
  exact withHeader_of_ok s m _ h hn

end Send

end Sys2Proof.Machine

namespace Sys2Proof.Settled

open Sys2Proof.Machine

/-- Settles O45: each receive state keeps the text handed out and in the line, but for the byte it appends. -/
theorem consoleBytesKept : Obligations.ConsoleBytesKept := by
  refine fun P f => ⟨fun b => ?_, ?_⟩
  · exact (syncTimeout_console _).trans (rxByState_console P b (Acc.start { f with idleCnt := 0 }))
  · refine (syncTimeout_console _).trans ?_
    split
    · exact timeoutIdle_console P (Acc.start f)
    · exact timeoutBusy_console (Acc.start f)

/-- Settles O36, by the class of the byte. -/
theorem rxConsoleByte : Obligations.RxConsoleByte := by
  intro b s hs ht hack put putEvents run after
  have hafter (P : Config.Params) (hm : ∀ p, P.marker p ≠ b) : execWith P (.frmRxbyte b) s = after P := by
    rcases classify_cases P b with
      ⟨ha, -⟩ | ⟨p, -, hp, -⟩ | ⟨-, -, hl, hc⟩ | ⟨-, -, hl, he, hc⟩ | ⟨-, -, hl, hlf, hcr, hc⟩
    · exact absurd ha hack
    · exact absurd hp (hm p)
    · rw [runLength_eq b hl] at hc
      exact (congrArg s.commitFrm (rxByte_of_lead hs ht hc)).trans (if_pos hl).symm
    · exact (congrArg s.commitFrm (rxByte_of_eol hs ht hc)).trans ((if_neg (by omega)).trans (if_pos he)).symm
    · have hne : ¬ (b = 0x0A#8 ∨ b = 0x0D#8) := not_or_intro hlf hcr
      exact (congrArg s.commitFrm (rxByte_of_text hs ht hc)).trans ((if_neg (by omega)).trans (if_neg hne)).symm
  exact ⟨fun hm => (exec_eq_next_iff _ _ _).mpr (hafter defaultParams hm), fun P _ hm => hafter P hm⟩

/-- Settles O42: the refusals are those of `needHeader` and of the two lengths, and the frame is written out. -/
theorem frmReleaseAndSend : Obligations.FrmReleaseAndSend := by
  refine fun s => ⟨rfl, fun r m hm => ⟨fun st hn => (exec_eq_next_iff _ _ _).mpr (frmSend_of_error hm hn), ?_⟩⟩
  intro h hn body L after
  have hafter (P : Config.Params) : execWith P (.frmSend r) s = after P := by
    refine (frmSend_of_ok hm hn).trans ?_
    rw [frameBytes, lengthField_eq]
    rfl
  exact ⟨(exec_eq_next_iff _ _ _).mpr (hafter defaultParams), hafter⟩

end Sys2Proof.Settled

/-! The frame on the line, received (R207, R211 to R220, R224): the residue of the two CRC bytes, the bytes up to them,
and the framer's record and events when the last of them has come. -/

namespace Sys2Proof.Machine

/-! ## The residue of the two CRC bytes -/

/-- Two bytes as one word, the first the higher (R63). -/
theorem shift_xor_eq_append (c1 c2 : Byte) : (c1.zeroExtend 16 <<< 8) ^^^ c2.zeroExtend 16 = c1 ++ c2 := by
  refine BitVec.eq_of_getLsbD_eq fun i hi => ?_
  rw [BitVec.getLsbD_append]
  by_cases h : i < 8
  · simp [h, hi]
  · have hc2 : c2.getLsbD i = false := BitVec.getLsbD_of_ge c2 i (by omega)
    simp [h, hi, hc2]

/-- The bytes on the line are the CRC's exactly when they make its word (R63, R96). -/
theorem crcBytes_eq_iff (c : U16) (c1 c2 : Byte) : [c1, c2] = crcBytes c ↔ c = c1 ++ c2 := by
  constructor
  · intro h
    obtain ⟨rfl, hc2⟩ := List.cons.inj h
    obtain ⟨rfl, -⟩ := List.cons.inj hc2
    have hjoin : c.extractLsb' 8 8 ++ c.extractLsb' 0 8 = c.extractLsb' 0 (8 + 8) :=
      BitVec.extractLsb'_append_extractLsb'_eq_extractLsb' rfl
    exact (hjoin.trans BitVec.extractLsb'_eq_self).symm
  · rintro rfl
    rw [crcBytes, BitVec.extractLsb'_append_eq_left, BitVec.extractLsb'_append_eq_right]

/-! ## The timeout inside a frame -/

/-- Inside a frame `SyncTimeout` starts the timeout where it is stopped (R204). -/
theorem syncTimeout_inFrame {x : Acc Frm} (hs : inFrame x.st.s = true) :
    syncTimeout x = ⟨{ x.st with tmoEn := true }, x.ev ++ if x.st.tmoEn = true then [] else [.setTimeout true]⟩ := by
  have hwant : x.st.wantTimeout = true := by
    rw [Frm.wantTimeout, Frm.quiescent]
    cases hst : x.st.s <;> simp_all [inFrame]
  apply acc_ext
  · rw [syncTimeout_st, hwant]
  · rw [syncTimeout_ev, hwant]
    simp only [eq_comm]

section Receive

variable {P : Config.Params} {f g : Frm} {ev : List Event}

/-- A byte that emits nothing itself and leaves the framer inside a frame, the timeout running, emits nothing (R205). -/
theorem rxByte_quiet {b : Byte} (hrx : rxByState P b (Acc.start { f with idleCnt := 0 }) = ⟨g, []⟩)
    (hs : inFrame g.s = true) (ht : g.tmoEn = true) : rxByte P b f = ⟨g, []⟩ := by
  rw [rxByte, hrx, syncTimeout_inFrame hs]
  exact acc_ext (by rw [← ht]) (by simp [ht])

theorem rxBytes_append (a b : Bytes) (x : Acc Frm) : rxBytes P (a ++ b) x = rxBytes P b (rxBytes P a x) := by
  induction a generalizing x with
  | nil => rfl
  | cons c a ih => exact ih _

/-- A byte that emits nothing leaves the events as they are (R76). -/
theorem rxBytes_cons_quiet {b : Byte} (rest : Bytes) (h : rxByte P b f = ⟨g, []⟩) :
    rxBytes P (b :: rest) ⟨f, ev⟩ = rxBytes P rest ⟨g, ev⟩ := by
  simp [rxBytes, h]

end Receive

/-! ## The bytes of a frame up to its CRC -/

/-- The record after a marker of priority `p` (R207). -/
def Frm.marked (f : Frm) (p : Fin 4) : Frm :=
  { f with idleCnt := 0, line := [], lineAge := 0, mIn := Msg.empty, prioIn := p, lenIn := 0, s := .len, tmoEn := true }

/-- What a marker in `Idle` emits: a pending line is handed out, and the timeout is started where it is stopped (R202,
R204, R207). -/
def Frm.markEvents (f : Frm) : List Event :=
  (if f.line = [] then [] else [.consoleLine f.line]) ++ if f.tmoEn = true then [] else [.setTimeout true]

theorem mem_markEvents {f : Frm} {e : Event} (he : e ∈ f.markEvents) :
    e = .consoleLine f.line ∨ e = .setTimeout true := by
  rw [Frm.markEvents] at he
  split_ifs at he <;> simp_all

/-- The message that the body bytes assemble, header first (R176, R214). -/
def assembledMsg (body : Bytes) : Msg := (body.map byteBits).foldl Msg.append Msg.empty

/-- The record inside a frame of priority `p` when `body` has been taken in and `n` bytes of the body are still to come
(R213, R214). -/
def Frm.assembled (P : Config.Params) (p : Fin 4) (f : Frm) (body : Bytes) (n : Nat) : Frm :=
  { f.marked p with crc := crcFold P P.crcInit body, mIn := assembledMsg body, lenIn := n,
                    s := if n = 0 then .crc1 else .data }

section Frame

variable {P : Config.Params} {f : Frm}

theorem assembled_inFrame (p : Fin 4) (body : Bytes) (n : Nat) : inFrame (f.assembled P p body n).s = true := by
  show inFrame (if n = 0 then .crc1 else .data) = true
  split <;> rfl

/-- A marker byte in `Idle` (R207). -/
theorem rxByte_of_marker {b : Byte} {p : Fin 4} (hs : f.s = .idle) (hc : classify P b = .mark p) :
    rxByte P b f = ⟨f.marked p, f.markEvents⟩ := by
  simp only [rxByte, rxByState, acc_start_st, hs, rxIdle, hc]
  rw [syncTimeout_inFrame rfl]
  apply acc_ext
  · simp [Frm.marked]
  · by_cases hl : f.line = [] <;> simp [Frm.markEvents, hl]

/-- A length byte below 128 leads into the body (R211, R213). -/
theorem rxByte_shortLength (p : Fin 4) {b : Byte} (hb : b.toNat < 128) :
    rxByte P b (f.marked p) = ⟨f.assembled P p [] b.toNat, []⟩ := by
  obtain ⟨hev, ⟨-, hst⟩ | ⟨hge, -⟩⟩ := rxLen_cases P b (Acc.start (f.marked p))
  · exact rxByte_quiet (acc_ext hst hev) (assembled_inFrame ..) rfl
  · omega

/-- A length byte from 128 on gives the high part of the length (R211). -/
theorem rxByte_longLength (p : Fin 4) {b : Byte} (hb : 128 ≤ b.toNat) :
    rxByte P b (f.marked p) = ⟨{ f.marked p with lenIn := (b.toNat - 128) * 256, s := .len2 }, []⟩ := by
  obtain ⟨hev, ⟨hlt, -⟩ | ⟨-, hst⟩⟩ := rxLen_cases P b (Acc.start (f.marked p))
  · omega
  · exact rxByte_quiet (acc_ext hst hev) rfl rfl

/-- The second length byte leads into the body (R212, R213). -/
theorem rxByte_secondLength (p : Fin 4) (high : Nat) (b : Byte) :
    rxByte P b { f.marked p with lenIn := high, s := .len2 } = ⟨f.assembled P p [] (high ||| b.toNat), []⟩ :=
  rxByte_quiet rfl (assembled_inFrame ..) rfl

/-- The high length byte carries the bits of the length above the low byte, marked by its first bit (R95). -/
theorem highLength_toNat {L : Nat} (hL : L ≤ 32767) : (0x80#8 ||| BitVec.ofNat 8 (L / 256)).toNat = 128 + L / 256 := by
  have hq : L / 256 < 2 ^ 7 := by omega
  have hmod : BitVec.toNat (BitVec.ofNat 8 (L / 256)) = L / 256 := by
    rw [BitVec.toNat_ofNat]
    omega
  rw [BitVec.toNat_or, hmod]
  exact (Nat.two_pow_add_eq_or_of_lt hq 1).symm

/-- The two parts of a length together (R95, R212). -/
theorem lengthParts_or (L : Nat) : L / 256 * 256 ||| L % 256 = L := by
  have hor := Nat.two_pow_add_eq_or_of_lt (i := 8) (Nat.mod_lt L (by decide)) (L / 256)
  rw [Nat.mul_comm, ← hor]
  exact Nat.div_add_mod L 256

/-- The length field leads from the marker into the body (R211 to R213). -/
theorem rxBytes_lengthField (p : Fin 4) {L : Nat} (hL : L ≤ 32767) (ev : List Event) :
    rxBytes P (lengthField L) ⟨f.marked p, ev⟩ = ⟨f.assembled P p [] L, ev⟩ := by
  have hlow : (BitVec.ofNat 8 L).toNat = L % 256 := BitVec.toNat_ofNat L 8
  unfold lengthField
  split
  · have hb : (BitVec.ofNat 8 L).toNat = L := by omega
    rw [rxBytes_cons_quiet [] (rxByte_shortLength p (by omega)), hb]
    rfl
  · have hhigh := highLength_toNat hL
    rw [rxBytes_cons_quiet _ (rxByte_longLength p (by omega)), rxBytes_cons_quiet [] (rxByte_secondLength p _ _), hhigh,
      hlow, Nat.add_sub_cancel_left, lengthParts_or]
    rfl

/-- One byte of the body (R214). -/
theorem rxByte_assembled (p : Fin 4) (body : Bytes) (n : Nat) (b : Byte) :
    rxByte P b (f.assembled P p body (n + 1)) = ⟨f.assembled P p (body ++ [b]) n, []⟩ := by
  refine rxByte_quiet (acc_ext ?_ rfl) (assembled_inFrame ..) rfl
  simp [rxByState, Frm.assembled, Frm.marked, crcFold, assembledMsg]

/-- The rest of the body (R214). -/
theorem rxBytes_body (p : Fin 4) (body rest : Bytes) (ev : List Event) :
    rxBytes P rest ⟨f.assembled P p body rest.length, ev⟩ = ⟨f.assembled P p (body ++ rest) 0, ev⟩ := by
  induction rest generalizing body with
  | nil => simp [rxBytes]
  | cons b rest ih =>
    rw [List.length_cons, rxBytes_cons_quiet rest (rxByte_assembled p body rest.length b), ih, List.append_assoc]
    rfl

/-- A frame's bytes up to its CRC, received in `Idle` (R207, R211 to R214). -/
theorem rxBytes_marker_length_body (hP : LegalParams P) (hs : f.s = .idle) (p : Fin 4) {body : Bytes}
    (hlen : body.length ≤ 32767) :
    rxBytes P ([P.marker p] ++ lengthField body.length ++ body) (Acc.start f) =
      ⟨f.assembled P p body 0, f.markEvents⟩ := by
  rw [rxBytes_append, rxBytes_append]
  have hmark : rxBytes P [P.marker p] (Acc.start f) = ⟨f.marked p, f.markEvents⟩ := by
    simp [rxBytes, rxByte_of_marker hs (classify_marker P hP p)]
  rw [hmark, rxBytes_lengthField p hlen, rxBytes_body, List.nil_append]

end Frame

/-! ## The end of a frame -/

/-- The record when the first CRC byte has come (R204, R215). -/
def Frm.halfTested (P : Config.Params) (f : Frm) (c1 : Byte) : Frm :=
  { f with idleCnt := 0, res := P.crcFin f.crc ^^^ (c1.zeroExtend 16 <<< 8), s := .crc2, tmoEn := true }

/-- The record at the test of the residue, when both CRC bytes have come (R215, R216). -/
def Frm.tested (P : Config.Params) (f : Frm) (c1 c2 : Byte) : Frm :=
  { f with idleCnt := 0, res := P.crcFin f.crc ^^^ (c1 ++ c2), s := .idle, tmoEn := true }

/-- What becomes of the frame whose CRC bytes are `c1` and `c2` (R216). -/
def Frm.outcome (P : Config.Params) (f : Frm) (c1 c2 : Byte) : Acc Frm := frameOutcome (Acc.start (f.tested P c1 c2))

section End

variable {P : Config.Params} {f : Frm} {c1 c2 : Byte}

theorem tested_res_eq_zero_iff : (f.tested P c1 c2).res = 0 ↔ P.crcFin f.crc = c1 ++ c2 := BitVec.xor_eq_zero_iff

/-- A frame's outcome writes the hold register alone (R216 to R220). -/
theorem outcome_st_frame :
    (f.outcome P c1 c2).st.s = .idle ∧ (f.outcome P c1 c2).st.line = f.line ∧ (f.outcome P c1 c2).st.tmoEn = true := by
  rcases frameOutcome_st (Acc.start (f.tested P c1 c2)) with he | ⟨-, he⟩ <;> rw [Frm.outcome, he] <;>
    exact ⟨rfl, rfl, rfl⟩

/-- The first CRC byte (R204, R215). -/
theorem rxByte_crc1 (hs : f.s = .crc1) :
    rxByte P c1 f = ⟨f.halfTested P c1, if f.tmoEn = true then [] else [.setTimeout true]⟩ := by
  simp only [rxByte, rxByState, acc_start_st, hs]
  exact syncTimeout_inFrame rfl

/-- The second CRC byte, after the first: the frame's outcome, and the timeout is stopped unless console text is pending
(R204, R216). -/
theorem rxByte_crc2 :
    rxByte P c2 (f.halfTested P c1) =
      ⟨{ (f.outcome P c1 c2).st with mIn := Msg.empty, tmoEn := !f.line.isEmpty },
        (f.outcome P c1 c2).ev ++ if f.line = [] then [.setTimeout false] else []⟩ := by
  have hrx : rxByte P c2 (f.halfTested P c1) =
      syncTimeout ((f.outcome P c1 c2).upd fun g => { g with mIn := Msg.empty }) := by
    rw [Frm.outcome, Frm.tested, ← shift_xor_eq_append, ← BitVec.xor_assoc]
    rfl
  obtain ⟨hidle, hline, htmo⟩ := outcome_st_frame (P := P) (f := f) (c1 := c1) (c2 := c2)
  rw [hrx]
  apply acc_ext
  · simp [Frm.wantTimeout, Frm.quiescent, hidle, hline]
  · by_cases hl : f.line = [] <;> simp [Frm.wantTimeout, Frm.quiescent, hidle, hline, htmo, hl]

/-- The two CRC bytes from any framer in `Crc1` (R215, R216). -/
theorem rxBytes_crc (hs : f.s = .crc1) (ev : List Event) :
    rxBytes P [c1, c2] ⟨f, ev⟩ =
      ⟨{ (f.outcome P c1 c2).st with mIn := Msg.empty, tmoEn := !f.line.isEmpty },
        ev ++ (if f.tmoEn = true then [] else [.setTimeout true]) ++
          ((f.outcome P c1 c2).ev ++ if f.line = [] then [.setTimeout false] else [])⟩ := by
  simp only [rxBytes, rxByte_crc1 hs, rxByte_crc2]

/-- A residue other than 0 is reported and nothing else is done (R217). -/
theorem outcome_of_crc_ne (hc : P.crcFin f.crc ≠ c1 ++ c2) :
    f.outcome P c1 c2 = ⟨f.tested P c1 c2, [.reportError .crc]⟩ :=
  if_pos (mt tested_res_eq_zero_iff.mp hc)

/-- A frame with its own CRC and a complete header is handed over and acknowledged where the hold is free (R219). -/
theorem outcome_of_accepted (hc : P.crcFin f.crc = c1 ++ c2) (hcode : f.mIn.code.isSome = true)
    (hfree : f.holdValid = false) :
    f.outcome P c1 c2 =
      ⟨{ f.tested P c1 c2 with hold := { f.mIn with prio := f.prioIn, xpos := none }, holdValid := true },
        [.process { dst := f.mIn.dst, src := f.mIn.src, code := f.mIn.code, prio := f.prioIn, data := f.mIn.data },
          .dataOut [ackByte]]⟩ := by
  have hres := tested_res_eq_zero_iff.mpr hc
  rcases frameOutcome_cases (Acc.start (f.tested P c1 c2)) with
    ⟨hne, -⟩ | ⟨-, hnone, -⟩ | ⟨-, -, hfull, -⟩ | ⟨-, -, -, he⟩
  · exact absurd hres hne
  · exact absurd hcode (by simpa [Frm.tested] using hnone)
  · exact absurd hfree (by simpa [Frm.tested] using hfull)
  · exact he

/-- The CRC error is reported exactly when the residue is not 0 (R216, R217). -/
theorem crcReport_mem_outcome_iff : .reportError .crc ∈ (f.outcome P c1 c2).ev ↔ P.crcFin f.crc ≠ c1 ++ c2 := by
  rw [Ne, ← tested_res_eq_zero_iff (c1 := c1) (c2 := c2), Frm.outcome]
  rcases frameOutcome_cases (Acc.start (f.tested P c1 c2)) with ⟨hr, he⟩ | ⟨hr, -, he⟩ | ⟨hr, -, -, he⟩ | ⟨hr, -, -, he⟩
  · exact iff_of_true (by simp [he]) hr
  · exact iff_of_false (by simp [he]) (not_not.mpr hr)
  · exact iff_of_false (by simp [he]) (not_not.mpr hr)
  · exact iff_of_false (by simp [he, acceptFrame]) (not_not.mpr hr)

end End

/-! ## A whole frame -/

section Whole

variable {P : Config.Params} {f : Frm}

/-- A frame received in `Idle` with any two CRC bytes: the outcome, then the timeout stopped (R205 to R220). -/
theorem rxBytes_frame (hP : LegalParams P) (hs : f.s = .idle) (p : Fin 4) {body : Bytes} (hlen : body.length ≤ 32767)
    (c1 c2 : Byte) :
    rxBytes P ([P.marker p] ++ lengthField body.length ++ body ++ [c1, c2]) (Acc.start f) =
      ⟨{ ((f.assembled P p body 0).outcome P c1 c2).st with mIn := Msg.empty, tmoEn := false },
        f.markEvents ++ ((f.assembled P p body 0).outcome P c1 c2).ev ++ [.setTimeout false]⟩ := by
  rw [rxBytes_append, rxBytes_marker_length_body hP hs p hlen, rxBytes_crc rfl]
  simp [Frm.assembled, Frm.marked]

/-- The message whose header and payload make the body is assembled again (R176, R180, R224). -/
theorem assembledMsg_frameBody {m : Msg} {h : Hdr} (hn : needHeader m = .ok h) (hdst : addrOk m.dst = true)
    (hsrc : addrOk m.src = true) (hbuf : m.buf.length % 8 = 0) :
    assembledMsg (frameBody h m) = { m with prio := 0, xpos := none } := by
  obtain ⟨hd, hs, hc, hfits⟩ := (needHeader_ok_iff m h).mp hn
  obtain ⟨hmod, hge, -⟩ := hdrBits_mod h.dst h.src
  have hheader : bitsOf (bytesOf (encHeader h)) = encHeader h :=
    bitsOf_bytesOf (hdrBits h.dst h.src / 8) _ (by rw [encHeader_length]; omega)
  have hpayload : bitsOf m.data = m.buf := by
    rw [Msg.data, wholeBytes_eq_self _ hbuf]
    exact bitsOf_bytesOf (m.buf.length / 8) _ (by omega)
  have hbits : ((frameBody h m).map byteBits).flatten = encHeader h ++ m.buf := by
    rw [← List.flatMap_def]
    show bitsOf (frameBody h m) = _
    rw [frameBody, bitsOf_append, hheader, hpayload]
  rw [hd] at hdst
  rw [hs] at hsrc
  have hsplit := foldl_append_header (by simpa [addrOk] using hdst) (by simpa [addrOk] using hsrc) hfits
    ((frameBody h m).map byteBits) [] (by rw [List.length_nil]; omega) hbits
  refine Eq.trans hsplit ?_
  rw [← hd, ← hs, ← hc]
  rfl

/-- What FRM.SEND emits when it is not refused: the frame of whole payload bytes and a body within its bound (R224). -/
theorem frmSend_ok {r : Nat} {s : State} {m : Msg} {h : Hdr} {bytes : Bytes} (hm : s.msg? r = some m)
    (hn : needHeader m = .ok h)
    (hans : (frmSend P r s).port.answer = some ⟨.ok, .none, [.dataOut bytes]⟩) :
    m.buf.length % 8 = 0 ∧ (frameBody h m).length ≤ 32767 ∧ bytes = frameBytes P m.prio (frameBody h m) := by
  rw [frmSend_of_ok hm hn] at hans
  split_ifs at hans with hbuf hlen
  · simp at hans
  · simp at hans
  · exact ⟨by omega, Nat.le_of_not_lt hlen, by simpa using hans.symm⟩

end Whole

end Sys2Proof.Machine

namespace Sys2Proof.Settled

open Sys2Proof.Machine

/-- Settles O44: the frame's own CRC bytes leave the residue 0, and the body assembles the message that was sent. -/
theorem loopBack : Obligations.LoopBack := by
  intro P hP s r m h f bytes hm hn hdst hsrc hans hs hfree ht x
  obtain ⟨hbuf, hlen, rfl⟩ := frmSend_ok hm hn hans
  have hmsg := assembledMsg_frameBody hn hdst hsrc hbuf
  obtain ⟨-, -, hcode, -⟩ := (needHeader_ok_iff m h).mp hn
  have hout := outcome_of_accepted (f := f.assembled P m.prio (frameBody h m) 0)
    ((crcBytes_eq_iff (crc16 P (frameBody h m)) _ _).mp rfl) (by simp [Frm.assembled, hmsg, hcode]) hfree
  have hx : x = _ := rxBytes_frame hP hs m.prio hlen _ _
  have hmark : f.markEvents = if f.line = [] then [.setTimeout true] else [.consoleLine f.line] := by
    by_cases hl : f.line = [] <;> simp [Frm.markEvents, tmoEn_eq_of_idle ht hs, hl]
  have hmIn : (f.assembled P m.prio (frameBody h m) 0).mIn = { m with prio := 0, xpos := none } := hmsg
  rw [hmIn] at hout
  rw [hx, hout, hmark]
  exact ⟨List.append_assoc _ _ _, rfl, rfl, rfl, rfl, rfl, rfl⟩

/-- Settles O21: of the events of the two bytes the outcome's alone can hold a CRC error. -/
theorem crcResidueLaw : Obligations.CrcResidueLaw := by
  intro P B c1 c2 f hs hcrc
  have hmem : .reportError .crc ∈ (rxBytes P [c1, c2] (Acc.start f)).ev ↔
      .reportError .crc ∈ (f.outcome P c1 c2).ev := by
    rw [Acc.start, rxBytes_crc hs]
    split_ifs <;> simp
  rw [hmem, crcReport_mem_outcome_iff, not_not, hcrc]

/-- Settles O22: other CRC bytes leave a residue, which the framer reports and does nothing else. -/
theorem frameIntegrity : Obligations.FrameIntegrity := by
  intro P hP p body c1 c2 f hlen hs hne x
  have htake : (frameBytes P p body).take ((frameBytes P p body).length - 2) =
      [P.marker p] ++ lengthField body.length ++ body := List.take_left' (by simp [frameBytes, crcBytes]; omega)
  have hout := outcome_of_crc_ne (f := f.assembled P p body 0) (mt (crcBytes_eq_iff _ c1 c2).mpr hne)
  have hx : x = _ := (congrArg (fun bytes => rxBytes P (bytes ++ [c1, c2]) (Acc.start f)) htake).trans
    (rxBytes_frame hP hs p hlen c1 c2)
  rw [hx, hout]
  refine ⟨by simp, fun m hmem => ?_, fun bytes hmem => ?_, rfl, rfl, rfl⟩
  · have hmark : .process m ∈ f.markEvents := by simpa using hmem
    simpa using mem_markEvents hmark
  · have hmark : .dataOut bytes ∈ f.markEvents := by simpa using hmem
    simpa using mem_markEvents hmark

/-- Settles O17: each side is what CRC.RESET is defined to do. -/
theorem crcReset : Obligations.CrcReset := ⟨rfl, fun _ => ⟨rfl, fun _ => rfl⟩⟩

/-- Settles O18: the word is the encoder's, and the example is computed. -/
theorem crcUpdate : Obligations.CrcUpdate := by
  refine ⟨?_, fun byte s => ⟨?_, rfl, fun _ => rfl⟩⟩
  · simp [defaultParams, xmodemStep, xmodemShift, BitVec.msb_eq_decide]
  · obtain ⟨-, hword, -⟩ := Laws.EncodeFits.crcUpdate byte rfl
    rw [hword]
    simp only [Instr.opcode, Instr.imm]
    omega

/-- Settles O19, the check value by computing the nine steps. -/
theorem crcFinish : Obligations.CrcFinish := by
  refine ⟨rfl, ?_, fun _ => ⟨rfl, fun _ => rfl⟩⟩
  simp [defaultParams, xmodemStep, xmodemShift, BitVec.msb_eq_decide]

end Sys2Proof.Settled

/-! A message taken apart and put together again (R172, R175 to R178, R181, R182): the chunks of a bit string as R99 forms
them, that MSG.XCHUNK repeated yields them, what MSG.ACHUNK makes of them, and the chunks of width 8. The codec's
commands that these use, and MSG.FIRSTBITS (R167), stand in front, a body byte of the framer (R214, R215) at the end. -/

namespace Sys2Proof.Machine

/-! ## The commands on a register that exists -/

section Register

variable {r : Nat} {s : State} {m : Msg} {st : Status} {h : Hdr}

/-- A write to a register that exists is read back (R24). -/
theorem msg_setMsg_of_some (hm : s.msg? r = some m) (m' : Msg) : (s.setMsg r m').msg? r = some m' :=
  msg_setMsg_same s r m' (List.getElem?_eq_some_iff.mp hm).1

theorem msgFirstbits_of_error (n : Nat) (hm : s.msg? r = some m) (hn : needHeader m = .error st) :
    msgFirstbits r n s = s.answer st .none [] := by
  rw [msgFirstbits, withMsg_of_some s r _ m hm]
  exact withHeader_of_error s m _ st hn

/-- The stream's first bits, where it has as many (R167). -/
theorem msgFirstbits_of_ok (n : Nat) (hm : s.msg? r = some m) (hn : needHeader m = .ok h) :
    msgFirstbits r n s =
      if (streamOf h m).length < n then s.answer .range .none []
      else s.answer .ok (.bits ((streamOf h m).take n)) [] := by
  rw [msgFirstbits, withMsg_of_some s r _ m hm, streamOf_length]
  exact withHeader_of_ok s m _ h hn

theorem msgXstart_of_error (hm : s.msg? r = some m) (hn : needHeader m = .error st) :
    msgXstart r s = s.answer st .none [] := by
  rw [msgXstart, withMsg_of_some s r _ m hm]
  exact withHeader_of_error s m _ st hn

/-- With a header the extraction is opened at the first bit (R171). -/
theorem msgXstart_of_ok (hm : s.msg? r = some m) (hn : needHeader m = .ok h) :
    msgXstart r s = (s.setMsg r { m with xpos := some 0 }).answer .ok .none [] := by
  rw [msgXstart, withMsg_of_some s r _ m hm]
  exact withHeader_of_ok s m _ h hn

theorem msgAstart_of_some (hm : s.msg? r = some m) : msgAstart r s = (s.setMsg r Msg.empty).answer .ok .none [] :=
  withMsg_of_some s r _ m hm

theorem msgAend_of_incomplete (hm : s.msg? r = some m) (hc : m.code = none) :
    msgAend r s = s.answer .state .none [] := by
  simp [msgAend, hm, Msg.headerIncomplete, hc, State.refuse]

/-- With a header the bits beyond the last whole byte are dropped (R178). -/
theorem msgAend_of_complete {c : Nat} (hm : s.msg? r = some m) (hc : m.code = some c) :
    msgAend r s = (s.setMsg r { m with buf := wholeBytes m.buf }).answer .ok .none [] := by
  simp [msgAend, hm, Msg.headerIncomplete, hc, State.done]

end Register

/-! ## The chunks of a bit string -/

/-- `Chunks fb R vs`: cut into chunks of width `fb`, the bits `R` have the values `vs`; the last chunk is full, short
with the flag, or padded (R99, R172). -/
inductive Chunks (fb : Nat) : Bits → List Nat → Prop where
  | nil : Chunks fb [] []
  | full (A R : Bits) (vs : List Nat) (hA : A.length = fb) (hR : Chunks fb R vs) : Chunks fb (A ++ R) (uint A :: vs)
  | short (A : Bits) (hpos : 0 < A.length) (hA : A.length + 8 ≤ fb) : Chunks fb A [2 ^ fb + uint A]
  | padded (A : Bits) (hpos : 0 < A.length) (hlt : A.length < fb) (hA : fb < A.length + 8) :
    Chunks fb A [uint A * 2 ^ (fb - A.length)]

/-- No bits make no chunk. -/
theorem Chunks.eq_nil {fb : Nat} {R : Bits} {vs : List Nat} (hc : Chunks fb R vs) (hfb : 1 ≤ fb) (hR : R = []) :
    vs = [] := by
  cases hc with
  | nil => rfl
  | full A R vs hA =>
    obtain ⟨rfl, -⟩ := List.append_eq_nil_iff.mp hR
    rw [List.length_nil] at hA
    omega
  | short A hpos => simp [hR] at hpos
  | padded A hpos => simp [hR] at hpos

/-- The chunk taken before the end is the first one of the bits from the cursor on, and the cursor moves to the bits
behind it (R172). -/
theorem Chunks.of_chunkAt {S : Bits} {pos fb : Nat} (hfb : 1 ≤ fb) (hk : S.length - pos ≠ 0) {vs : List Nat}
    (hrest : Chunks fb (S.drop (chunkAt S pos (S.length - pos) fb).2) vs) :
    Chunks fb (S.drop pos) ((chunkAt S pos (S.length - pos) fb).1 :: vs) := by
  have hlen : (S.drop pos).length = S.length - pos := List.length_drop
  by_cases hfull : fb ≤ S.length - pos
  · rw [chunkAt_full _ _ _ _ hfull] at hrest ⊢
    have hsplit : (S.drop pos).take fb ++ S.drop (pos + fb) = S.drop pos := by
      rw [← List.drop_drop, List.take_append_drop]
    rw [← hsplit, memRead_eq]
    exact .full _ _ vs (List.length_take_of_le (hfull.trans_eq hlen.symm)) hrest
  · have hend : (chunkAt S pos (S.length - pos) fb).2 = S.length := by
      unfold chunkAt
      split_ifs <;> rfl
    obtain rfl := hrest.eq_nil hfb (by rw [hend, List.drop_length])
    by_cases hshort : S.length - pos + 8 ≤ fb
    · rw [chunkAt_short _ _ _ _ hshort, memRead_rest]
      exact .short _ (by omega) (by omega)
    · rw [chunkAt_padded _ _ _ _ (by omega) (by omega), memRead_rest, ← hlen]
      exact .padded _ (by omega) (by omega) (by omega)

/-- A chunk moves the cursor on (R172). -/
theorem lt_chunkAt_cursor {S : Bits} {pos fb : Nat} (hfb : 1 ≤ fb) (hk : S.length - pos ≠ 0) :
    pos < (chunkAt S pos (S.length - pos) fb).2 := by
  unfold chunkAt
  split_ifs <;> dsimp only <;> omega

/-- The chunks of width 8 of whole bytes are the bytes (R182). -/
theorem Chunks.eq_map_toNat {R : Bits} {vs : List Nat} (hc : Chunks 8 R vs) (hR : R.length % 8 = 0) :
    vs = (bytesOf R).map BitVec.toNat := by
  induction hc with
  | nil => rfl
  | full A R vs hA _ ih =>
    have hlt := uint_lt A
    rw [hA] at hlt
    rw [List.length_append, hA, Nat.add_mod_left] at hR
    rw [bytesOf_append_of_length A R hA, List.map_cons, ← ih hR, BitVec.toNat_ofNat, Nat.mod_eq_of_lt hlt]
  | short A hpos hA => omega
  | padded A hpos hlt => omega

/-! ## Extraction -/

section Extraction

variable {P : Config.Params} {r fb : Nat} {s : State} {m : Msg} {h : Hdr}

/-- MSG.XCHUNK repeated from a cursor inside the message yields the chunks of the bits that remain, then END (R172). -/
theorem extractAll_chunks {n pos : Nat} (hw : FrameBitsOk P fb) (hm : s.msg? r = some m) (hx : m.xpos = some pos)
    (hn : needHeader m = .ok h) (hlt : (streamOf h m).length - pos < n) :
    Chunks fb ((streamOf h m).drop pos) (extractAll P n r fb s).1 ∧
      (extractAll P n r fb s).2.status = some .ended ∧
      (extractAll P n r fb s).2.msgs.length = s.msgs.length := by
  induction n generalizing s m pos with
  | zero => omega
  | succ n ih =>
    have hchunk := msgXchunk_of_ok hm hw hx hn
    by_cases hk : (streamOf h m).length - pos = 0
    · rw [if_pos hk] at hchunk
      have hstop : extractAll P (n + 1) r fb s = ([], s.answer .ended .none []) := by simp [extractAll, hchunk]
      rw [hstop, List.drop_eq_nil_of_le (Nat.le_of_sub_eq_zero hk)]
      exact ⟨.nil, rfl, rfl⟩
    · rw [if_neg hk] at hchunk
      have hgo : extractAll P (n + 1) r fb s =
          ((chunkAt (streamOf h m) pos ((streamOf h m).length - pos) fb).1 ::
              (extractAll P n r fb (msgXchunk P r fb s)).1,
            (extractAll P n r fb (msgXchunk P r fb s)).2) := by simp [extractAll, hchunk]
      have hmoved := lt_chunkAt_cursor hw.1 hk
      obtain ⟨hrest, hended, hmsgs⟩ := ih ((congrArg (State.msg? · r) hchunk).trans (msg_setMsg_of_some hm _)) rfl hn
        (by change (streamOf h m).length - _ < n; omega)
      rw [hgo]
      exact ⟨.of_chunkAt hw.1 hk hrest, hended, hmsgs.trans (by rw [hchunk]; exact setMsg_length s r _)⟩

/-- MSG.XSTART, and MSG.XCHUNK to END, on any message with a header (R171, R172). -/
theorem extractAll_msgXstart {n : Nat} (hw : FrameBitsOk P fb) (hm : s.msg? r = some m) (hn : needHeader m = .ok h)
    (hlt : streamLen h m < n) :
    Chunks fb (streamOf h m) (extractAll P n r fb (msgXstart r s)).1 ∧
      (extractAll P n r fb (msgXstart r s)).2.status = some .ended ∧
      (extractAll P n r fb (msgXstart r s)).2.msgs.length = s.msgs.length := by
  have hstart := msgXstart_of_ok hm hn
  obtain ⟨hc, hended, hmsgs⟩ := extractAll_chunks hw
    ((congrArg (State.msg? · r) hstart).trans (msg_setMsg_of_some hm _)) rfl hn
    (by rw [Nat.sub_zero, streamOf_length]; exact hlt)
  exact ⟨hc, hended, hmsgs.trans (by rw [hstart]; exact setMsg_length s r _)⟩

end Extraction

/-! ## Assembly -/

/-- A header split off leaves the bits' number modulo 8 as it is (R22, R176). -/
theorem append_length_mod (m : Msg) (B : Bits) : (m.append B).buf.length % 8 = (m.buf.length + B.length) % 8 := by
  rcases append_cases m B with he | ⟨h, rest, -, hs, he⟩
  · rw [he, List.length_append]
  · obtain ⟨n, hn, hle, rfl⟩ := headerSplit_rest _ h rest hs
    rw [List.length_append] at hle
    rw [he, List.length_drop, List.length_append]
    omega

theorem uint_zeros (n : Nat) : uint (zeros n) = 0 := by
  induction n with
  | zero => rfl
  | succ n ih => rw [zeros, List.replicate_succ, uint_cons, ← zeros, ih]; simp

/-- Bits with zeros after them (R99). -/
theorem uint_append_zeros (A : Bits) (n : Nat) : uint (A ++ zeros n) = uint A * 2 ^ n := by
  rw [uint_append, uint_zeros, zeros_length, Nat.add_zero]

section Assembly

variable {P : Config.Params} {r fb : Nat} {s : State} {u : Msg}

/-- A chunk accepted with the bits `B` appends them, and the chunks that follow go to the longer message (R177). -/
theorem assembleAll_cons {v : Nat} {B : Bits} (vs : List Nat) (hw : FrameBitsOk P fb) (hu : s.msg? r = some u)
    (hc : chunkBits u.buf.length fb v = .ok (B.length, uint B)) (hmax : u.buf.length + B.length ≤ 8 * 32767 + 40) :
    assembleAll P (v :: vs) r fb s =
      assembleAll P vs r fb ((s.setMsg r (u.append B)).answer .ok .none []) := by
  have hchunk := msgAchunk_of_ok hu hw hc
  rw [if_neg (Nat.not_lt.mpr hmax), bitsOfNat_uint] at hchunk
  rw [assembleAll, hchunk]
  exact if_pos rfl

/-- The last chunk, accepted with the bits `B` (R177). -/
theorem assembleAll_last {v : Nat} {B : Bits} (hw : FrameBitsOk P fb) (hu : s.msg? r = some u)
    (hc : chunkBits u.buf.length fb v = .ok (B.length, uint B)) (hmax : u.buf.length + B.length ≤ 8 * 32767 + 40) :
    ∃ t, assembleAll P [v] r fb s = some t ∧ t.msg? r = some (u.append B) :=
  ⟨_, assembleAll_cons [] hw hu hc hmax, msg_setMsg_of_some hu _⟩

/-- The chunks of `R`, received on a register that `R` brings to a byte boundary, append the bits of `R` in pieces, with
fewer than eight zeros after them (R177, R181). -/
theorem assembleAll_chunks {R : Bits} {vs : List Nat} (hc : Chunks fb R vs) (hw : FrameBitsOk P fb) (hfb : fb ≤ 16)
    (hu : s.msg? r = some u) (hmod : (u.buf.length + R.length) % 8 = 0)
    (hmax : u.buf.length + R.length ≤ 8 * 32767 + 24) :
    ∃ (t : State) (pieces : List Bits) (p : Nat), assembleAll P vs r fb s = some t ∧
      t.msg? r = some (pieces.foldl Msg.append u) ∧ pieces.flatten = R ++ zeros p ∧ p < 8 := by
  induction hc generalizing s u with
  | nil => exact ⟨s, [], 0, rfl, hu, rfl, by decide⟩
  | full A R vs hA _ ih =>
    rw [List.length_append] at hmod hmax
    have hlt := uint_lt A
    have hval : chunkBits u.buf.length fb (uint A) = .ok (A.length, uint A) := by
      rw [hA] at hlt ⊢
      exact chunkBits_unflagged _ fb _ hlt
    have happ := append_length_mod u A
    have hle := append_length_le u A
    obtain ⟨t, pieces, p, ht, hmsg, hflat, hp⟩ :=
      ih (s := (s.setMsg r (u.append A)).answer .ok .none []) (msg_setMsg_of_some hu _) (by omega) (by omega)
    refine ⟨t, A :: pieces, p, ?_, hmsg, by rw [List.flatten_cons, hflat, List.append_assoc], hp⟩
    rw [assembleAll_cons vs hw hu hval (by omega), ht]
  | short A hpos hA =>
    have hmissing : missingBits u.buf.length = A.length := by unfold missingBits; omega
    have hval := chunkBits_flagged u.buf.length fb (uint A) (by omega) (by rw [hmissing]; exact uint_lt A)
    rw [hmissing] at hval
    obtain ⟨t, ht, hmsg⟩ := assembleAll_last hw hu hval (by omega)
    exact ⟨t, [A], 0, ht, hmsg, by simp [zeros], by decide⟩
  | padded A hpos hlt hA =>
    have hlen : (A ++ zeros (fb - A.length)).length = fb := by rw [List.length_append, zeros_length]; omega
    have hfits := uint_lt (A ++ zeros (fb - A.length))
    have hval : chunkBits u.buf.length fb (uint A * 2 ^ (fb - A.length)) =
        .ok ((A ++ zeros (fb - A.length)).length, uint (A ++ zeros (fb - A.length))) := by
      rw [hlen] at hfits ⊢
      rw [← uint_append_zeros]
      exact chunkBits_unflagged _ fb _ hfits
    obtain ⟨t, ht, hmsg⟩ := assembleAll_last hw hu hval (by omega)
    exact ⟨t, [A ++ zeros (fb - A.length)], fb - A.length, ht, hmsg, by simp, by omega⟩

end Assembly

/-- Pieces of a message's stream with bits after it make the message, those bits at the end of its payload (R180). -/
theorem foldl_append_streamOf {m : Msg} {h : Hdr} (hn : needHeader m = .ok h) (hdst : addrOk m.dst = true)
    (hsrc : addrOk m.src = true) {pieces : List Bits} {tail : Bits} (hcat : pieces.flatten = streamOf h m ++ tail) :
    pieces.foldl Msg.append Msg.empty = { m with buf := m.buf ++ tail, prio := 0, xpos := none } := by
  obtain ⟨hd, hs, hc, hcode⟩ := (needHeader_ok_iff m h).mp hn
  obtain ⟨-, hpos, -⟩ := hdrBits_mod h.dst h.src
  rw [hd] at hdst
  rw [hs] at hsrc
  rw [streamOf, List.append_assoc] at hcat
  refine (foldl_append_header (by simpa [addrOk] using hdst) (by simpa [addrOk] using hsrc) hcode pieces []
    (by rw [List.length_nil]; omega) hcat).trans ?_
  rw [← hd, ← hs, ← hc]
  rfl

/-- Fewer than eight bits after whole bytes are dropped (R178). -/
theorem wholeBytes_append_short {A B : Bits} (hA : A.length % 8 = 0) (hB : B.length < 8) : wholeBytes (A ++ B) = A := by
  have hlen : 8 * ((A ++ B).length / 8) = A.length := by rw [List.length_append]; omega
  rw [wholeBytes, hlen, List.take_left]

/-! ## The body of a frame -/

/-- The whole bytes in front are read first (R13). -/
theorem bytesOf_append (n : Nat) {A : Bits} (B : Bits) (hA : A.length = 8 * n) :
    bytesOf (A ++ B) = bytesOf A ++ bytesOf B := by
  rw [← bitsOf_bytesOf n A hA, bytesOf_bitsOf]
  induction bytesOf A with
  | nil => rfl
  | cons b S ih =>
    rw [bitsOf_cons, List.append_assoc, bytesOf_append_of_length _ _ (byteBits_length b), ofNat_uint_byteBits, ih]
    rfl

/-- The body of a frame is the bytes of the stream (R154, R224). -/
theorem frameBody_eq_bytesOf_streamOf (h : Hdr) {m : Msg} (hbuf : m.buf.length % 8 = 0) :
    frameBody h m = bytesOf (streamOf h m) := by
  have := hdrBits_mod h.dst h.src
  rw [frameBody, Msg.data, wholeBytes_eq_self _ hbuf, streamOf,
    bytesOf_append (hdrBits h.dst h.src / 8) m.buf (by rw [encHeader_length]; omega)]

/-! ## The framer's body and CRC bytes -/

/-- The timeout runs inside a frame (R35 (a)). -/
theorem tmoEn_of_inFrame {f : Frm} (ht : TimeoutInv f) (hs : inFrame f.s = true) : f.tmoEn = true := by
  rw [ht, ← Bool.not_eq_false, wantTimeout_eq_false_iff]
  rintro ⟨hidle, -⟩
  rw [hidle] at hs
  cases hs

/-- A body byte, while bytes of the body are to come (R214). -/
theorem rxByte_data (P : Config.Params) (b : Byte) {f : Frm} (hs : f.s = .data) (hlen : 0 < f.lenIn)
    (ht : f.tmoEn = true) :
    rxByte P b f =
      ⟨{ f with idleCnt := 0, crc := P.crcStep f.crc b, mIn := f.mIn.append (byteBits b), lenIn := f.lenIn - 1,
                s := if f.lenIn = 1 then .crc1 else .data }, []⟩ := by
  have hlast : f.lenIn - 1 = 0 ↔ f.lenIn = 1 := by omega
  refine rxByte_quiet (acc_ext ?_ ?_) ?_ ht
  · simp [rxByState, hs, hlast]
  · simp [rxByState, hs]
  · show inFrame (if f.lenIn = 1 then .crc1 else .data) = true
    split <;> rfl

/-- The first CRC byte, with the timeout running (R215). -/
theorem rxByte_crc1_running (P : Config.Params) (b : Byte) {f : Frm} (hs : f.s = .crc1) (ht : f.tmoEn = true) :
    rxByte P b f =
      ⟨{ f with idleCnt := 0, res := P.crcFin f.crc ^^^ (b.zeroExtend 16 <<< 8), s := .crc2 }, []⟩ :=
  rxByte_quiet (by simp only [rxByState, acc_start_st, hs]; rfl) rfl ht

end Sys2Proof.Machine

namespace Sys2Proof.Settled

open Sys2Proof.Machine

/-- Settles O33: the chunks' bits, appended in pieces, make the header and the payload with fewer than eight zeros after
it, which MSG.AEND drops. -/
theorem chunkRoundTrip : Obligations.ChunkRoundTrip := by
  intro P hP s r r' fb n m h hm _ hr' hn hdst hsrc hbuf hmax hfb hfb' hlt x
  obtain ⟨hchunks, hended, hmsgs⟩ := extractAll_msgXstart ⟨hfb, hfb'⟩ hm hn hlt
  refine ⟨hended, ?_⟩
  obtain ⟨old, hold⟩ := Option.isSome_iff_exists.mp ((msg_isSome_iff x.2 r').mpr (hr'.trans_eq hmsgs.symm))
  have hempty : (msgAstart r' x.2).msg? r' = some Msg.empty := by
    rw [msgAstart_of_some hold]
    exact msg_setMsg_of_some hold _
  have hlen : Msg.empty.buf.length + (streamOf h m).length = hdrBits h.dst h.src + m.buf.length := by
    rw [streamOf_length, empty_buf, List.length_nil, Nat.zero_add, streamLen]
  obtain ⟨hmod, -, hhdr⟩ := hdrBits_mod h.dst h.src
  obtain ⟨t, pieces, p, ht, hmsg, hflat, hp⟩ := assembleAll_chunks hchunks ⟨hfb, hfb'⟩
    (hfb'.trans hP.chunk_width.2) hempty (by omega) (by omega)
  rw [foldl_append_streamOf hn hdst hsrc hflat] at hmsg
  obtain ⟨-, -, hcode, -⟩ := (needHeader_ok_iff m h).mp hn
  have hend := msgAend_of_complete hmsg hcode
  have hread := (congrArg (State.msg? · r') hend).trans (msg_setMsg_of_some hmsg _)
  refine ⟨t, _, ht, by rw [hend]; rfl, hread, rfl, rfl, rfl, ?_⟩
  exact wholeBytes_append_short hbuf (by rw [zeros_length]; exact hp)

/-- Settles O34: the body is the bytes of the stream, and so the chunks of width 8 and the pieces appended. -/
theorem widthAgreement : Obligations.WidthAgreement := by
  intro P s r n m h hfb hm hn hdst hsrc hbuf hlt
  obtain ⟨hchunks, -, -⟩ := extractAll_msgXstart ⟨by decide, hfb⟩ hm hn hlt
  have hmod : (streamOf h m).length % 8 = 0 := by
    have := hdrBits_mod h.dst h.src
    rw [streamOf_length, streamLen]
    omega
  refine ⟨?_, ?_⟩
  · rw [frameBody_eq_bytesOf_streamOf h hbuf]
    exact hchunks.eq_map_toNat hmod
  · rw [← List.foldl_map (f := byteBits) (g := Msg.append)]
    exact assembledMsg_frameBody hn hdst hsrc hbuf

/-- Settles O24: each command's effect on the register it names. -/
theorem msgClearAstartSetcodeSetprio : Obligations.MsgClearAstartSetcodeSetprio := by
  intro r code prio s m hm
  simp only [exec_eq_next_iff]
  exact ⟨withMsg_of_some s r _ m hm, msgAstart_of_some hm, withMsg_of_some s r _ m hm, withMsg_of_some s r _ m hm⟩

/-- Settles O25: the word is the encoder's, and the refusal is of an address below -4. -/
theorem msgSetaddr : Obligations.MsgSetaddr := by
  refine ⟨fun r dst src hwf => ?_, fun r dst src s m hm =>
    (exec_eq_next_iff _ _ _).mpr (withMsg_of_some s r _ m hm)⟩
  obtain ⟨-, hword, -⟩ := Laws.EncodeFits.msgSetaddr r dst src hwf
  rw [hword]
  simp only [Instr.opcode, Instr.imm, unsext8]
  omega

/-- Settles O26: the word is the encoder's, and the padding goes in front of the bytes. -/
theorem msgAdddata : Obligations.MsgAdddata := by
  refine ⟨fun r hr => ?_, fun r s m hm => (exec_eq_next_iff _ _ _).mpr (withMsg_of_some s r _ m hm)⟩
  obtain ⟨-, hword, -⟩ := Laws.EncodeFits.msgAdddata r (decide_eq_true hr)
  rw [hword]
  simp only [Instr.opcode, Instr.imm]
  omega

/-- Settles O28: the refusals are those of `needHeader` and of a stream too short. -/
theorem msgFirstbitsAndGet : Obligations.MsgFirstbitsAndGet := by
  intro r n s m hm
  simp only [exec_eq_next_iff]
  exact ⟨withMsg_of_some s r _ m hm, fun _ hn => msgFirstbits_of_error n hm hn, fun _ hn => msgFirstbits_of_ok n hm hn⟩

/-- Settles O29: MSG.XSTART turns on the header, MSG.AEND on the code. -/
theorem msgXstartAndAend : Obligations.MsgXstartAndAend := by
  intro r s m hm
  simp only [exec_eq_next_iff]
  exact ⟨fun _ hn => msgXstart_of_error hm hn, fun _ hn => msgXstart_of_ok hm hn, msgAend_of_incomplete hm,
    fun _ hc => msgAend_of_complete hm hc⟩

/-- Settles O38: inside a frame the timeout runs already, so neither byte emits an event. -/
theorem rxBodyAndCrc1 : Obligations.RxBodyAndCrc1 := by
  intro b s ht
  simp only [exec_eq_next_iff]
  refine ⟨fun hs hlen => ?_, fun hs => ?_⟩
  · have htmo := tmoEn_of_inFrame ht (by rw [hs]; rfl)
    have hrx (P : Config.Params) := congrArg s.commitFrm (rxByte_data P b hs hlen htmo)
    exact ⟨hrx defaultParams, hrx⟩
  · have htmo := tmoEn_of_inFrame ht (by rw [hs]; rfl)
    have hrx (P : Config.Params) := congrArg s.commitFrm (rxByte_crc1_running P b hs htmo)
    exact ⟨hrx defaultParams, hrx⟩

end Sys2Proof.Settled

/-! The framer's received bytes and timeouts, exactly (R206, R207, R211 to R213, R216 to R222): where each leaves the
record and what it emits, by way of what `SyncTimeout` does where the timeout is as R35 (a) has it and where it is to be
stopped. Then many timeouts in a row (R227). -/

namespace Sys2Proof.Machine

/-! ## The timeout enable -/

/-- `SyncTimeout` does nothing where the timeout is as R35 (a) has it (R204). -/
theorem syncTimeout_of_timeoutInv {x : Acc Frm} (ht : TimeoutInv x.st) : syncTimeout x = x := if_pos ht.symm

/-- `SyncTimeout` stops a running timeout in a quiescent framer (R204). -/
theorem syncTimeout_of_quiescent {x : Acc Frm} (hs : x.st.s = .idle) (hl : x.st.line = []) (ht : x.st.tmoEn = true) :
    syncTimeout x = ⟨{ x.st with tmoEn := false }, x.ev ++ [.setTimeout false]⟩ := by
  have hwant := (wantTimeout_eq_false_iff x.st).mpr ⟨hs, hl⟩
  apply acc_ext
  · rw [syncTimeout_st, hwant]
  · rw [syncTimeout_ev, hwant, ht]
    rfl

/-- The timeout runs outside `Idle` (R35 (a)). -/
theorem tmoEn_of_ne_idle {f : Frm} (ht : TimeoutInv f) (hs : f.s ≠ .idle) : f.tmoEn = true := by
  rw [ht, ← Bool.not_eq_false, wantTimeout_eq_false_iff]
  exact fun ⟨hidle, _⟩ => hs hidle

/-- The receive states other than `Idle` and `Utf8` are those inside a frame (R35). -/
theorem inFrame_of_ne {st : FrmState} (hidle : st ≠ .idle) (hutf8 : st ≠ .utf8) : inFrame st = true := by
  cases st with
  | idle => exact absurd rfl hidle
  | utf8 => exact absurd rfl hutf8
  | _ => rfl

/-- What holds of the parametric block at every choice of the parameters holds of exec at the default one. -/
theorem exec_and_execWith {i : Instr} {s : State} {after : Config.Params → State}
    (h : ∀ P, execWith P i s = after P) :
    exec i s = .next (after defaultParams) ∧ ∀ P, execWith P i s = after P :=
  ⟨(exec_eq_next_iff _ _ _).mpr (h defaultParams), h⟩

section Byte

variable {P : Config.Params} {b : Byte} {f : Frm}

/-- A byte that leaves the timeout as R35 (a) has it (R204, R205). -/
theorem rxByte_of_timeoutInv {x : Acc Frm} (hrx : rxByState P b (Acc.start { f with idleCnt := 0 }) = x)
    (ht : TimeoutInv x.st) : rxByte P b f = x := by
  rw [rxByte, hrx, syncTimeout_of_timeoutInv ht]

/-! ## An acknowledgement and a marker in `Idle` -/

/-- The acknowledgement byte is reported (R206). -/
theorem rxByte_of_ack (hs : f.s = .idle) (ht : TimeoutInv f) (hc : classify P b = .ack) :
    rxByte P b f = ⟨{ f with idleCnt := 0 }, [.processAck]⟩ := by
  refine rxByte_of_timeoutInv ?_ ht
  simp only [rxByState, acc_start_st, hs, rxIdle, hc]
  rfl

/-- In `Idle` the timeout is stopped exactly with an empty line, so a marker emits one event (R202, R204, R207). -/
theorem markEvents_of_idle (hs : f.s = .idle) (ht : TimeoutInv f) :
    f.markEvents = if f.line = [] then [.setTimeout true] else [.consoleLine f.line] := by
  by_cases hl : f.line = [] <;> simp [Frm.markEvents, tmoEn_eq_of_idle ht hs, hl]

/-! ## The length bytes -/

/-- The record after `EnterBody` with the length `n`, the idle counter cleared (R205, R213). -/
def Frm.entered (P : Config.Params) (f : Frm) (n : Nat) : Frm :=
  { f with idleCnt := 0, lenIn := n, crc := P.crcInit, s := if n = 0 then .crc1 else .data }

theorem entered_inFrame (n : Nat) : inFrame (f.entered P n).s = true := by
  show inFrame (if n = 0 then .crc1 else .data) = true
  split <;> rfl

/-- A first length byte below 128 is the length (R211). -/
theorem rxByte_len_short (hs : f.s = .len) (ht : f.tmoEn = true) (hb : b.toNat < 128) :
    rxByte P b f = ⟨f.entered P b.toNat, []⟩ := by
  refine rxByte_quiet ?_ (entered_inFrame _) ht
  simp only [rxByState, acc_start_st, hs]
  obtain ⟨hev, ⟨-, hst⟩ | ⟨hge, -⟩⟩ := rxLen_cases P b (Acc.start { f with idleCnt := 0, s := .len })
  · exact acc_ext hst hev
  · omega

/-- A first length byte from 128 on is the high part of the length (R211). -/
theorem rxByte_len_long (hs : f.s = .len) (ht : f.tmoEn = true) (hb : 128 ≤ b.toNat) :
    rxByte P b f = ⟨{ f with idleCnt := 0, lenIn := (b.toNat - 128) * 256, s := .len2 }, []⟩ := by
  refine rxByte_quiet ?_ rfl ht
  simp only [rxByState, acc_start_st, hs]
  obtain ⟨hev, ⟨hlt, -⟩ | ⟨-, hst⟩⟩ := rxLen_cases P b (Acc.start { f with idleCnt := 0, s := .len })
  · omega
  · exact acc_ext hst hev

/-- The second length byte is joined to the first's part (R212). -/
theorem rxByte_len2 (hs : f.s = .len2) (ht : f.tmoEn = true) :
    rxByte P b f = ⟨f.entered P (f.lenIn ||| b.toNat), []⟩ :=
  rxByte_quiet (by simp only [rxByState, acc_start_st, hs]; rfl) (entered_inFrame _) ht

/-! ## The second CRC byte -/

/-- The record at the test of the residue that the second CRC byte completes (R205, R216). -/
def Frm.completed (f : Frm) (b : Byte) : Frm :=
  { f with idleCnt := 0, res := f.res ^^^ b.zeroExtend 16, s := .idle }

/-- A frame's outcome leaves the receive state, the line and the timeout (R216 to R220). -/
theorem frameOutcome_keeps (x : Acc Frm) :
    (frameOutcome x).st.s = x.st.s ∧ (frameOutcome x).st.line = x.st.line ∧
      (frameOutcome x).st.tmoEn = x.st.tmoEn := by
  rcases frameOutcome_st x with he | ⟨-, he⟩ <;> rw [he] <;> exact ⟨rfl, rfl, rfl⟩

/-- The second CRC byte, with the timeout running and no console text in the line: the frame's outcome, then nothing is
assembled and the timeout is stopped (R204, R216). -/
theorem rxByte_crc2_running (hs : f.s = .crc2) (hl : f.line = []) (ht : f.tmoEn = true) :
    rxByte P b f =
      ⟨{ (frameOutcome (Acc.start (f.completed b))).st with mIn := Msg.empty, tmoEn := false },
        (frameOutcome (Acc.start (f.completed b))).ev ++ [.setTimeout false]⟩ := by
  have hrx : rxByState P b (Acc.start { f with idleCnt := 0 }) =
      (frameOutcome (Acc.start (f.completed b))).upd fun g => { g with mIn := Msg.empty } := by
    simp only [rxByState, acc_start_st, hs]
    rfl
  rw [rxByte, hrx]
  obtain ⟨hidle, hline, htmo⟩ := frameOutcome_keeps (Acc.start (f.completed b))
  exact syncTimeout_of_quiescent hidle (hline.trans hl) (htmo.trans ht)

/-! ## A byte of a UTF-8 run -/

/-- The timeout runs already and the line holds the byte, so `SyncTimeout` does nothing; a full line is not empty where
it holds at least a byte (R203, R204, R221). -/
theorem rxByte_utf8 (hs : f.s = .utf8) (ht : TimeoutInv f) (hmax : 0 < P.lineMax) :
    rxByte P b f =
      ⟨{ f with idleCnt := 0, line := (if f.line.length = P.lineMax then [] else f.line) ++ [b], lineAge := 0,
                utf8Rem := f.utf8Rem - 1, s := if f.utf8Rem - 1 = 0 then .idle else .utf8 },
        if f.line.length = P.lineMax then [.consoleLine f.line] else []⟩ := by
  have hfull (h : f.line.length = P.lineMax) : f.line ≠ [] := List.ne_nil_of_length_pos (h ▸ hmax)
  refine rxByte_of_timeoutInv (acc_ext ?_ ?_) ?_
  · simp only [rxByState, acc_start_st, hs, rxUtf8_st, putLine_st]
    rfl
  · simp only [rxByState, acc_start_st, acc_start_ev, hs, rxUtf8_ev, putLine_ev, List.nil_append,
      and_iff_left_of_imp hfull]
  · simp [TimeoutInv, Frm.wantTimeout, Frm.quiescent, tmoEn_of_ne_idle ht (by simp [hs])]

end Byte

/-! ## One timeout -/

/-- Where only a run has text in the line, giving up a frame or run hands out any text, after the report (R202,
R222). -/
theorem lostFrame_eq {x : Acc Frm} (hline : x.st.s ≠ .utf8 → x.st.line = []) :
    lostFrame x =
      ⟨{ x.st with mIn := Msg.empty, lenIn := 0, utf8Rem := 0, idleCnt := 0, s := .idle, line := [],
                   lineAge := if x.st.s = .utf8 then 0 else x.st.lineAge },
        x.ev ++ [.reportError .lost] ++ if x.st.line = [] then [] else [.consoleLine x.st.line]⟩ := by
  apply acc_ext
  · rw [lostFrame_st, ite_eq_left_iff.mpr hline]
  · unfold lostFrame
    by_cases hu : x.st.s = .utf8
    · simp only [if_pos hu, acc_upd_ev, flushLine_ev, acc_raise_ev, acc_raise_st]
      rfl
    · simp [hu, hline hu]

section Timeout

variable {P : Config.Params} {f : Frm}

/-- The first three timeouts outside `Idle` are counted (R222). -/
theorem rxTimeout_of_counted (hs : f.s ≠ .idle) (hc : f.idleCnt < 3) :
    rxTimeout P f = syncTimeout ⟨{ f with idleCnt := f.idleCnt + 1 }, []⟩ := by
  have hlim : ¬ idleLimit < f.idleCnt + 1 := by show ¬ 3 < f.idleCnt + 1; omega
  rw [rxTimeout, if_neg hs]
  exact congrArg syncTimeout (if_neg hlim)

/-- The fourth discards the partial frame or run (R222). -/
theorem rxTimeout_of_lost (hs : f.s ≠ .idle) (hc : 3 ≤ f.idleCnt) :
    rxTimeout P f = syncTimeout (lostFrame (Acc.start { f with idleCnt := f.idleCnt + 1 })) := by
  have hlim : idleLimit < f.idleCnt + 1 := Nat.lt_succ_of_le hc
  rw [rxTimeout, if_neg hs]
  exact congrArg syncTimeout (if_pos hlim)

/-- In `Idle` with an empty line a timeout does nothing of its own (R222). -/
theorem rxTimeout_of_noLine (hs : f.s = .idle) (hl : f.line = []) : rxTimeout P f = syncTimeout ⟨f, []⟩ := by
  rw [rxTimeout, if_pos hs]
  exact congrArg syncTimeout (if_pos hl)

/-- In `Idle` a console line ages (R222). -/
theorem rxTimeout_of_freshLine (hs : f.s = .idle) (hl : f.line ≠ []) (ha : f.lineAge < P.lineStaleTicks) :
    rxTimeout P f = syncTimeout ⟨{ f with lineAge := f.lineAge + 1 }, []⟩ := by
  have hstale : ¬ P.lineStaleTicks < f.lineAge + 1 := by omega
  rw [rxTimeout, if_pos hs]
  exact congrArg syncTimeout ((if_neg hl).trans (if_neg hstale))

/-- In `Idle` a console line that has become stale is flushed (R222). -/
theorem rxTimeout_of_staleLine (hs : f.s = .idle) (hl : f.line ≠ []) (ha : P.lineStaleTicks ≤ f.lineAge) :
    rxTimeout P f = syncTimeout ⟨{ f with line := [], lineAge := 0 }, [.consoleLine f.line]⟩ := by
  have hstale : P.lineStaleTicks < f.lineAge + 1 := Nat.lt_succ_of_le ha
  have hflush : flushLine ⟨{ f with lineAge := f.lineAge + 1 }, []⟩ =
      ⟨{ f with line := [], lineAge := 0 }, [.consoleLine f.line]⟩ := if_neg hl
  rw [rxTimeout, if_pos hs, ← hflush]
  exact congrArg syncTimeout ((if_neg hl).trans (if_pos hstale))

/-- The fourth timeout under R35 (a) and (b): only a run has text in the line, so any text is handed out (R204,
R222). -/
theorem rxTimeout_lost_eq (ht : TimeoutInv f) (hline : LineInv f) (hs : f.s ≠ .idle) (hc : 3 ≤ f.idleCnt) :
    rxTimeout P f =
      ⟨{ f with mIn := Msg.empty, lenIn := 0, utf8Rem := 0, idleCnt := 0, s := .idle, line := [],
                lineAge := if f.s = .utf8 then 0 else f.lineAge, tmoEn := false },
        [.reportError .lost] ++ (if f.line = [] then [] else [.consoleLine f.line]) ++ [.setTimeout false]⟩ := by
  have hempty : f.s ≠ .utf8 → f.line = [] := fun hu => hline (inFrame_of_ne hs hu)
  have htmo := tmoEn_of_ne_idle ht hs
  rw [rxTimeout_of_lost hs hc, lostFrame_eq hempty, syncTimeout_of_quiescent rfl rfl htmo]
  rfl

/-! ## Timeouts in a row -/

/-- One timeout in `Idle` leaves the receive state and the counter, and either the framer is quiescent with the timeout
stopped or its line is older (R222). -/
theorem rxTimeout_idle_cases (hs : f.s = .idle) :
    (rxTimeout P f).st.s = .idle ∧ (rxTimeout P f).st.idleCnt = f.idleCnt ∧
      ((rxTimeout P f).st.line = [] ∧ (rxTimeout P f).st.tmoEn = false ∨
        f.line ≠ [] ∧ f.lineAge < P.lineStaleTicks ∧ (rxTimeout P f).st.lineAge = f.lineAge + 1) := by
  by_cases hl : f.line = []
  · rw [rxTimeout_of_noLine hs hl, syncTimeout_st]
    exact ⟨hs, rfl, .inl ⟨hl, (wantTimeout_eq_false_iff f).mpr ⟨hs, hl⟩⟩⟩
  · by_cases ha : f.lineAge < P.lineStaleTicks
    · rw [rxTimeout_of_freshLine hs hl ha, syncTimeout_st]
      exact ⟨hs, rfl, .inr ⟨hl, ha, rfl⟩⟩
    · rw [rxTimeout_of_staleLine hs hl (Nat.le_of_not_lt ha), syncTimeout_st]
      exact ⟨hs, rfl, .inl ⟨rfl, (wantTimeout_eq_false_iff _).mpr ⟨hs, rfl⟩⟩⟩

/-- One timeout outside `Idle` is counted, or it is the fourth and ends in `Idle` with the counter cleared (R222). -/
theorem rxTimeout_busy_cases (hs : f.s ≠ .idle) :
    (f.idleCnt < 3 ∧ (rxTimeout P f).st.s = f.s ∧ (rxTimeout P f).st.idleCnt = f.idleCnt + 1) ∨
      (3 ≤ f.idleCnt ∧ (rxTimeout P f).st.s = .idle ∧ (rxTimeout P f).st.idleCnt = 0) := by
  by_cases hc : f.idleCnt < 3
  · rw [rxTimeout_of_counted hs hc, syncTimeout_st]
    exact .inl ⟨hc, rfl, rfl⟩
  · rw [rxTimeout_of_lost hs (Nat.le_of_not_lt hc), syncTimeout_st, lostFrame_st]
    exact .inr ⟨Nat.le_of_not_lt hc, rfl, rfl⟩

end Timeout

section Timeouts

variable {P : Config.Params}

theorem rxTimeouts_add (m n : Nat) (x : Acc Frm) : rxTimeouts P (m + n) x = rxTimeouts P n (rxTimeouts P m x) := by
  induction m generalizing x with
  | zero => rw [Nat.zero_add]; rfl
  | succ m ih => rw [Nat.succ_add]; exact ih _

/-- In `Idle` timeouts change neither the receive state nor the counter (R222). -/
theorem rxTimeouts_of_idle (n : Nat) {x : Acc Frm} (hs : x.st.s = .idle) :
    (rxTimeouts P n x).st.s = .idle ∧ (rxTimeouts P n x).st.idleCnt = x.st.idleCnt := by
  induction n generalizing x with
  | zero => exact ⟨hs, rfl⟩
  | succ n ih =>
    obtain ⟨hidle, hcnt, -⟩ := rxTimeout_idle_cases (P := P) hs
    obtain ⟨hs', hcnt'⟩ := ih (x := rxTimeouts P 1 x) hidle
    exact ⟨hs', hcnt'.trans hcnt⟩

/-- A framer outside `Idle` whose counter lacks at most `n` of three is back in `Idle` after `n + 1` timeouts (R227). -/
theorem rxTimeouts_reaches_idle (n : Nat) {x : Acc Frm} (hs : x.st.s ≠ .idle) (hn : 3 ≤ n + x.st.idleCnt) :
    (rxTimeouts P (n + 1) x).st.s = .idle ∧ (rxTimeouts P (n + 1) x).st.idleCnt = 0 := by
  induction n generalizing x with
  | zero =>
    obtain ⟨hlt, -⟩ | ⟨-, hlost⟩ := rxTimeout_busy_cases (P := P) hs
    · omega
    · exact hlost
  | succ n ih =>
    obtain ⟨-, hs', hcnt⟩ | ⟨-, hidle, hcnt⟩ := rxTimeout_busy_cases (P := P) hs
    · refine ih (x := rxTimeouts P 1 x) (hs'.trans_ne hs) ?_
      show 3 ≤ n + (rxTimeout P x.st).st.idleCnt
      omega
    · obtain ⟨hs', hcnt'⟩ := rxTimeouts_of_idle (P := P) (n + 1) (x := rxTimeouts P 1 x) hidle
      exact ⟨hs', hcnt'.trans hcnt⟩

/-- In `Idle` the framer is quiescent after `n + 1` timeouts where its line lacks at most `n` of the age at which it is
stale (R227). -/
theorem rxTimeouts_quiescent (n : Nat) {x : Acc Frm} (hs : x.st.s = .idle)
    (hn : x.st.line ≠ [] → P.lineStaleTicks ≤ n + x.st.lineAge) :
    (rxTimeouts P (n + 1) x).st.line = [] ∧ (rxTimeouts P (n + 1) x).st.tmoEn = false := by
  induction n generalizing x with
  | zero =>
    obtain ⟨-, -, hq | ⟨hl, ha, -⟩⟩ := rxTimeout_idle_cases (P := P) hs
    · exact hq
    · have := hn hl
      omega
  | succ n ih =>
    obtain ⟨hidle, -, ⟨hl, -⟩ | ⟨hl, -, hage⟩⟩ := rxTimeout_idle_cases (P := P) hs
    · exact ih (x := rxTimeouts P 1 x) hidle fun h => absurd hl h
    · refine ih (x := rxTimeouts P 1 x) hidle fun _ => ?_
      have := hn hl
      show P.lineStaleTicks ≤ n + (rxTimeout P x.st).st.lineAge
      omega

end Timeouts

end Sys2Proof.Machine

namespace Sys2Proof.Settled

open Sys2Proof.Machine

/-- Settles O43: outside `Idle` the counter rises to its limit, and in `Idle` the line's age does. -/
theorem framerRecovery : Obligations.FramerRecovery := by
  intro P f hi
  have hfour : (rxTimeouts P 4 (Acc.start f)).st.s = .idle ∧ (rxTimeouts P 4 (Acc.start f)).st.idleCnt = 0 := by
    by_cases hs : f.s = .idle
    · obtain ⟨hidle, hcnt⟩ := rxTimeouts_of_idle (P := P) 4 (x := Acc.start f) hs
      exact ⟨hidle, hcnt.trans (hi hs)⟩
    · exact rxTimeouts_reaches_idle 3 hs (Nat.le_add_right 3 _)
  obtain ⟨hidle, hcnt⟩ := hfour
  refine ⟨hidle, hcnt, fun n hn => ?_⟩
  obtain ⟨k, rfl⟩ : ∃ k, n = 4 + (k + 1) := ⟨n - 5, by omega⟩
  rw [rxTimeouts_add]
  exact ⟨(rxTimeouts_of_idle (k + 1) hidle).1, rxTimeouts_quiescent k hidle fun _ => by omega⟩

/-- Settles O35, by the class of the byte. -/
theorem rxAckAndMarker : Obligations.RxAckAndMarker := by
  intro s hs ht acked
  have hack (P : Config.Params) : execWith P (.frmRxbyte 0x06#8) s = acked :=
    congrArg s.commitFrm (rxByte_of_ack hs ht (classify_ack P))
  refine ⟨(exec_eq_next_iff _ _ _).mpr (hack defaultParams), hack, ?_⟩
  intro p started
  have hmark (P : Config.Params) (hP : LegalParams P) : execWith P (.frmRxbyte (P.marker p)) s = started := by
    refine congrArg s.commitFrm ((rxByte_of_marker hs (classify_marker P hP p)).trans ?_)
    rw [markEvents_of_idle hs ht]
    rfl
  exact ⟨(exec_eq_next_iff _ _ _).mpr (hmark defaultParams defaultParams_legal), hmark⟩

/-- Settles O37: inside a frame the timeout runs already, so no length byte emits an event. -/
theorem rxLengthByte : Obligations.RxLengthByte := by
  intro b s ht enter long
  refine ⟨fun hs hb => ?_, fun hs hb => ?_, fun hs => ?_⟩
  · have htmo := tmoEn_of_ne_idle ht (by simp [hs])
    exact exec_and_execWith (after := (enter · b.toNat)) fun _ => congrArg s.commitFrm (rxByte_len_short hs htmo hb)
  · have htmo := tmoEn_of_ne_idle ht (by simp [hs])
    exact exec_and_execWith (after := fun _ => long) fun _ => congrArg s.commitFrm (rxByte_len_long hs htmo hb)
  · have htmo := tmoEn_of_ne_idle ht (by simp [hs])
    exact exec_and_execWith (after := (enter · (s.frm.lenIn ||| b.toNat))) fun _ =>
      congrArg s.commitFrm (rxByte_len2 hs htmo)

/-- Settles O39, by the four outcomes of a complete frame. -/
theorem rxFrameEnd : Obligations.RxFrameEnd := by
  intro b s ht hs hl res f after
  have hafter (P : Config.Params) : execWith P (.frmRxbyte b) s = after := by
    have htmo := tmoEn_of_ne_idle ht (by simp [hs])
    refine (congrArg s.commitFrm (rxByte_crc2_running hs hl htmo)).trans ?_
    rcases frameOutcome_cases (Acc.start (s.frm.completed b)) with
      ⟨hr, he⟩ | ⟨hr, hc, he⟩ | ⟨hr, hc, hv, he⟩ | ⟨hr, hc, hv, he⟩ <;> rw [he]
    · exact (if_pos hr).symm
    · exact ((if_neg (not_not.mpr hr)).trans (if_pos hc)).symm
    · have hc := Option.isSome_iff_ne_none.mp hc
      exact ((if_neg (not_not.mpr hr)).trans ((if_neg hc).trans (if_pos hv))).symm
    · have hc := Option.isSome_iff_ne_none.mp hc
      exact ((if_neg (not_not.mpr hr)).trans ((if_neg hc).trans (if_neg (Bool.eq_false_iff.mp hv)))).symm
  exact exec_and_execWith hafter

/-- Settles O40: the byte goes to the line, which is then not empty. -/
theorem rxUtf8Byte : Obligations.RxUtf8Byte := by
  intro b s ht hs hrem after
  have hlast : s.frm.utf8Rem - 1 = 0 ↔ s.frm.utf8Rem = 1 := by omega
  have hafter (P : Config.Params) (hP : LegalParams P) : execWith P (.frmRxbyte b) s = after P := by
    have hrx := rxByte_utf8 (P := P) (b := b) hs ht (by have := hP.line_big; omega)
    simp only [hlast] at hrx
    exact congrArg s.commitFrm hrx
  exact ⟨(exec_eq_next_iff _ _ _).mpr (hafter defaultParams defaultParams_legal), hafter⟩

/-- Settles O41, by the receive state, the counter, the line and its age. -/
theorem frmTimeout : Obligations.FrmTimeout := by
  intro s ht hline after
  have hafter (P : Config.Params) : execWith P .frmTimeout s = after P := by
    show s.commitFrm (rxTimeout P s.frm) = after P
    by_cases hs : s.frm.s = .idle
    · refine Eq.trans ?_ (if_neg (not_not.mpr hs)).symm
      by_cases hl : s.frm.line = []
      · rw [if_pos hl, rxTimeout_of_noLine hs hl, syncTimeout_of_timeoutInv ht]
        rfl
      · rw [if_neg hl]
        have htmo : s.frm.tmoEn = true := by simp [tmoEn_eq_of_idle ht hs, hl]
        by_cases ha : s.frm.lineAge < P.lineStaleTicks
        · rw [if_pos ha, rxTimeout_of_freshLine hs hl ha, syncTimeout_of_timeoutInv ht]
        · rw [if_neg ha, rxTimeout_of_staleLine hs hl (Nat.le_of_not_lt ha),
            syncTimeout_of_quiescent hs rfl htmo]
          rfl
    · refine Eq.trans ?_ (if_pos hs).symm
      by_cases hc : s.frm.idleCnt < 3
      · rw [if_pos hc, rxTimeout_of_counted hs hc, syncTimeout_of_timeoutInv ht]
      · rw [if_neg hc, rxTimeout_lost_eq ht hline hs (Nat.le_of_not_lt hc)]
  exact exec_and_execWith hafter

end Sys2Proof.Settled

/-! No send is lost and none is completed twice (R262, R265, R360): the handles a session holds, together with those its
events have completed, counted as a multiset. One equation per operation of the engine, then per command. The bound on
the sends held (R312) follows by counting. -/

namespace Sys2Proof.Machine

/-! ## Tables as collections of entries -/

section Entries

variable {α : Type} {t : Table α} {q : Nat} {v : α}

/-- A write at a free index adds one entry. -/
theorem tableSet_perm_of_none (h : tableGet t q = none) (v : α) : (tableSet t q v).Perm ((q, v) :: t) := by
  induction t with
  | nil => exact .refl _
  | cons d t ih =>
    obtain ⟨k, w⟩ := d
    simp only [tableGet] at h
    split_ifs at h with hk
    rw [tableSet, if_neg (Ne.symm hk)]
    split_ifs
    · exact .refl _
    · exact ((ih h).cons _).trans (.swap _ _ _)

/-- An erasure at an index in use takes one entry out. -/
theorem perm_cons_tableErase (hwf : TableWf t) (h : tableGet t q = some v) : t.Perm ((q, v) :: tableErase t q) := by
  have hnone : tableGet (tableErase t q) q = none := by rw [tableGet_erase, if_pos rfl]
  have hset : tableSet (tableErase t q) q v = t := by
    refine table_ext _ _ (tableSet_wf _ q v (tableErase_wf t q hwf)) hwf fun p => ?_
    rw [tableGet_set _ _ _ _ (tableErase_wf t q hwf), tableGet_erase]
    split_ifs with hp
    · rw [hp, h]
    · rfl
  exact (List.Perm.of_eq hset.symm).trans (tableSet_perm_of_none hnone v)

/-- A write replaces the entry at its index. -/
theorem tableSet_perm_tableErase (hwf : TableWf t) (v : α) : (tableSet t q v).Perm ((q, v) :: tableErase t q) := by
  have hget : tableGet (tableSet t q v) q = some v := by rw [tableGet_set _ _ _ _ hwf, if_pos rfl]
  have herase : tableErase (tableSet t q v) q = tableErase t q := by
    refine table_ext _ _ (tableErase_wf _ q (tableSet_wf t q v hwf)) (tableErase_wf t q hwf) fun p => ?_
    rw [tableGet_erase, tableGet_erase, tableGet_set _ _ _ _ hwf]
    split_ifs <;> rfl
  exact herase ▸ perm_cons_tableErase (tableSet_wf t q v hwf) hget

end Entries

/-! ## The sends of a span -/

/-- The place at the head of a span is free (R38). -/
theorem SpanInv.head_free {α : Type} {W head tail : Nat} {t : Table α} (h : SpanInv W head tail t) :
    tableGet t head = none := by
  refine (tableGet_eq_none_iff t head).mpr fun e he heq => ?_
  have := (h.mem e he).2
  rw [heq] at this
  omega

/-- The sending side is a span (R38, R39 (a)). -/
abbrev SendSpan (a : Arq) : Prop := SpanInv a.window a.sendHead a.sendTail a.pend

theorem ArqInv.sendSpan {P : Config.Params} {a : Arq} (h : ArqInv P a) : SendSpan a := by
  obtain ⟨⟨-, -, -, hhead, htail, -⟩, ⟨hspan, -⟩, ⟨hwf, hmem⟩, -⟩ := h
  exact ⟨hhead, htail, hspan, hwf, hmem⟩

/-- The entries of `pend` are those read at the sequence numbers in flight (R39 (a)). -/
theorem filterMap_fromTail_perm {a : Arq} (h : SendSpan a) :
    ((a.fromTail a.inflight).filterMap fun q => (tableGet a.pend q).map (q, ·)).Perm a.pend := by
  have hlt : a.inflight ≤ a.window := (fwd_lt _ _ _ (Nat.zero_lt_of_lt h.head_lt)).le
  have hpend : a.pend.Nodup := .of_map Prod.fst (h.wf.imp Nat.ne_of_lt)
  have hleft : ((a.fromTail a.inflight).filterMap fun q => (tableGet a.pend q).map (q, ·)).Nodup := by
    refine (fromTail_nodup a _ hlt).filterMap fun p q e hp hq => ?_
    obtain ⟨v, -, rfl⟩ := Option.map_eq_some_iff.mp hp
    obtain ⟨w, -, hw⟩ := Option.map_eq_some_iff.mp hq
    exact (congrArg Prod.fst hw).symm
  refine (List.perm_ext_iff_of_nodup hleft hpend).mpr fun ⟨q, v⟩ => ?_
  rw [List.mem_filterMap]
  constructor
  · rintro ⟨p, -, hp⟩
    obtain ⟨w, hw, heq⟩ := Option.map_eq_some_iff.mp hp
    cases heq
    exact mem_of_tableGet _ _ _ hw
  · intro hmem
    refine ⟨q, (mem_fromTail a _ q hlt h.tail_lt).mpr (h.mem _ hmem), ?_⟩
    rw [tableGet_of_mem _ h.wf q v hmem]
    rfl

/-- A span has at most as many entries as places. -/
theorem pend_length_le_inflight {a : Arq} (h : SendSpan a) : a.pend.length ≤ a.inflight := by
  have hle : ((a.fromTail a.inflight).filterMap fun q => (tableGet a.pend q).map (q, ·)).length ≤ a.inflight :=
    (List.length_filterMap_le _ _).trans (by simp [Arq.fromTail])
  rwa [(filterMap_fromTail_perm h).length_eq] at hle

/-- What `ResetState` queues again are the sends in flight (R265). -/
theorem requeued_handles_perm {a : Arq} (h : SendSpan a) :
    (a.requeued.map Queued.handle).Perm (a.pend.map fun e => e.2.handle) := by
  have hmap : a.requeued.map Queued.handle =
      ((a.fromTail a.inflight).filterMap fun q => (tableGet a.pend q).map (q, ·)).map fun e => e.2.handle := by
    simp only [Arq.requeued, List.map_filterMap, Option.map_map, Function.comp_def]
  rw [hmap]
  exact (filterMap_fromTail_perm h).map _

/-! ## The handles completed by events -/

theorem doneHandles_append (ev ev' : List Event) : doneHandles (ev ++ ev') = doneHandles ev ++ doneHandles ev' :=
  List.filterMap_append

@[simp] theorem doneHandles_nil : doneHandles [] = [] := rfl
@[simp] theorem doneHandles_sendDone (h : U16) (res : Completion) : doneHandles [.sendDone h res] = [h] := rfl

theorem doneHandles_map_sendDone {β : Type} (l : List β) (f : β → U16) (res : Completion) :
    doneHandles (l.map fun b => .sendDone (f b) res) = l.map f := by
  simp [doneHandles, List.filterMap_map]

/-! ## The operations of the engine -/

/-- The handles of the sends held and of the sends completed so far, each as often. -/
def Acc.sends (x : Acc Arq) : Multiset U16 := (x.st.handles : Multiset U16) + (doneHandles x.ev : Multiset U16)

section Operations

variable {x : Acc Arq} {now : Nat}

/-- The three places a handle can be in: in flight, queued, completed. -/
theorem sends_eq : x.sends = ((x.st.pend.map fun e => e.2.handle : List U16) : Multiset U16) +
    (x.st.sendq.map Queued.handle : List U16) + (doneHandles x.ev : List U16) := by
  rw [Acc.sends, Arq.handles, ← Multiset.coe_add]

theorem start_sends (a : Arq) : (Acc.start a).sends = (a.handles : Multiset U16) := add_zero _

/-- An update that keeps the sends held. -/
theorem upd_sends (f : Arq → Arq) (h : ((f x.st).handles : Multiset U16) = x.st.handles) : (x.upd f).sends = x.sends :=
  congrArg (· + _) h

/-- An event that completes nothing. -/
theorem emit_sends (e : Event) (h : doneHandles [e] = []) : (x.emit e).sends = x.sends := by
  simp [Acc.sends, doneHandles_append, h]

theorem sendReset_sends (n : Fin 4) (e : Option Bytes) : (sendReset n e x).sends = x.sends := emit_sends _ rfl

theorem sendCarrier_sends (msg : ArqMsg) : (sendCarrier msg x).sends = x.sends :=
  (upd_sends _ rfl).trans (emit_sends _ rfl)

/-- A released send is no longer held, and completed (R265). -/
theorem release_sends (res : Completion) (q : Nat) (h : TableWf x.st.pend) : (release res x q).sends = x.sends := by
  rcases release_cases res x q with ⟨-, he⟩ | ⟨e, hget, he⟩
  · rw [he]
  · have hheld : ((x.st.pend.map fun e => e.2.handle : List U16) : Multiset U16) =
        (e.handle :: (tableErase x.st.pend q).map fun e => e.2.handle : List U16) :=
      Multiset.coe_eq_coe.mpr ((perm_cons_tableErase h hget).map _)
    rw [he, sends_eq, sends_eq, hheld]
    simp only [doneHandles_append, doneHandles_sendDone, ← Multiset.coe_add, ← Multiset.cons_coe,
      ← Multiset.singleton_add]
    abel

theorem releaseAll_sends (res : Completion) (qs : List Nat) (h : TableWf x.st.pend) :
    (releaseAll res qs x).sends = x.sends := by
  induction qs generalizing x with
  | nil => rfl
  | cons q qs ih =>
    have hwf : TableWf (release res x q).st.pend := by
      rw [release_st]
      exact tableErase_wf _ q h
    exact (ih hwf).trans (release_sends res q h)

/-- The failure of every send completes them all (R265). -/
theorem failAll_sends (res : Completion) (h : TableWf x.st.pend) : (failAll res x).sends = x.sends := by
  rw [← releaseAll_sends res (x.st.fromTail x.st.inflight) h, sends_eq, sends_eq]
  simp only [failAll, acc_upd_st, acc_upd_ev, failQueue_st, failQueue_ev, doneHandles_append,
    doneHandles_map_sendDone, releaseAll_st, ← Multiset.coe_add, List.map_nil, Multiset.coe_nil]
  abel

/-- The sends in flight are queued again, none is lost (R265). -/
theorem resetState_handles {a : Arq} (h : SendSpan a) :
    (a.resetState.handles : Multiset U16) = a.handles := by
  refine Multiset.coe_eq_coe.mpr ?_
  simp only [Arq.handles, resetState_pend, resetState_sendq, List.map_nil, List.nil_append, List.map_append]
  exact (requeued_handles_perm h).append_right _

/-- An allocated send is held (R266). -/
theorem alloc_sends (p : Bytes) (handle : U16) (h : tableGet x.st.pend x.st.sendHead = none) :
    (alloc p handle now x).sends = x.sends + ([handle] : List U16) := by
  have hheld (e : PendEntry) :
      (((tableSet x.st.pend x.st.sendHead e).map fun e => e.2.handle : List U16) : Multiset U16) =
        (e.handle :: x.st.pend.map fun e => e.2.handle : List U16) :=
    Multiset.coe_eq_coe.mpr ((tableSet_perm_of_none h e).map _)
  rw [alloc, sendCarrier_sends, sends_eq, sends_eq]
  simp only [acc_upd_st, acc_upd_ev, hheld, ← Multiset.cons_coe, ← Multiset.singleton_add]
  abel

/-- `StartQueued` moves sends from the queue into flight (R267). -/
theorem startFrom_sends {P : Config.Params} (queue : List Queued) (h : LiveInv P x.st) (hq : x.st.sendq = queue) :
    (startFrom now queue x).sends = x.sends := by
  induction queue generalizing x with
  | nil => rfl
  | cons p rest ih =>
    have hfits := h.queue
    rw [hq] at hfits
    unfold startFrom
    split
    case isFalse => rfl
    case isTrue hc =>
      have hpop : LiveInv P (x.upd fun a => { a with sendq := rest }).st :=
        ⟨h.opened, h.cfg, h.level, h.send, h.recv, h.gap, h.pend, fun r hr => hfits r (List.mem_cons_of_mem _ hr)⟩
      rw [ih (hpop.alloc hc.2 (hfits p List.mem_cons_self) p.handle) rfl, alloc_sends _ _ hpop.send.head_free,
        sends_eq, sends_eq, hq]
      simp only [acc_upd_st, acc_upd_ev, List.map_cons, ← Multiset.cons_coe,
        ← Multiset.singleton_add]
      abel

theorem startQueued_sends {P : Config.Params} (h : LiveInv P x.st) : (startQueued now x).sends = x.sends :=
  startFrom_sends _ h rfl

end Operations
/-! ## Reception, wake-up and closure -/

section Received

variable {P : Config.Params} {x : Acc Arq} {msg : ArqMsg} {now : Nat}

theorem processAck_sends (r : Nat) (h : TableWf x.st.pend) : (processAck r x).sends = x.sends := by
  unfold processAck
  split
  · exact (upd_sends _ rfl).trans (releaseAll_sends _ _ h)
  · rfl

theorem processX_sends (qs : List Nat) (h : TableWf x.st.pend) : (processX qs x).sends = x.sends := by
  rw [processX_eq]
  exact releaseAll_sends _ _ h

theorem drainFor_sends (n : Nat) : (drainFor n x).sends = x.sends := by
  induction n generalizing x with
  | zero => rfl
  | succ n ih =>
    unfold drainFor
    split
    · rfl
    · exact ih.trans ((upd_sends _ rfl).trans (emit_sends _ rfl))

theorem acceptData_sends (s : Nat) (d : Bytes) : (acceptData s d x).sends = x.sends := by
  unfold acceptData
  split
  · exact (drainFor_sends _).trans (upd_sends _ rfl)
  · rfl

theorem recvData_sends : (recvData P msg now x).sends = x.sends := by
  unfold recvData
  split
  · rfl
  · rw [markAck_eq]
    exact acceptData_sends _ _

/-- The data part of a normal message keeps a live session live (R280, R284 to R286). -/
theorem LiveInv.recvData (h : LiveInv P x.st) (hs : IsSeq x.st.window msg.s) : LiveInv P (recvData P msg now x).st := by
  unfold Machine.recvData
  split
  · exact h
  · exact (h.acceptData (by have := hs.1; have := hs.2; omega) _).markAck

/-- The acknowledgements of a normal message leave the window as it is (R281, R283). -/
theorem processed_window (r : Nat) (qs : List Nat) (x : Acc Arq) :
    (processX qs (processAck r x)).st.window = x.st.window := by
  rw [processX_eq, releaseAll_st, processAck_st]
  split <;> rfl

/-- Before `StartQueued` a normal message has left the session live (R280). -/
theorem LiveInv.received (h : LiveInv P x.st) (hmsg : normalMsgOk x.st.window msg = true) :
    LiveInv P
      (Machine.recvData P msg now (Machine.processX (msg.x.getD []) (Machine.processAck msg.r.toNat x))).st := by
  obtain ⟨hs, ⟨hr, hr'⟩, -⟩ := (normalMsgOk_iff _ msg).mp hmsg
  refine ((h.processAck (by omega)).processX _).recvData ?_
  rw [processed_window]
  exact hs

/-- A normal message completes or starts sends, and loses none (R280). -/
theorem recvNormal_sends (h : LiveInv P x.st) (hmsg : normalMsgOk x.st.window msg = true) :
    (recvNormal P msg now x).sends = x.sends := by
  have hwf : TableWf (processAck msg.r.toNat x).st.pend := by
    rw [processAck_st]
    split
    · exact foldl_erase_wf _ _ h.send.wf
    · exact h.send.wf
  have hack (y : Acc Arq) : (ackIfIdle y).sends = y.sends := by
    unfold ackIfIdle
    split
    · exact sendCarrier_sends _
    · rfl
  unfold recvNormal
  rw [hack, startQueued_sends (h.received hmsg), recvData_sends, processX_sends _ hwf, processAck_sends _ h.send.wf]

/-- Closure completes every send (R274, R289, R291). -/
theorem closeWith_sends (res : Completion) (h : SendSpan x.st) :
    (closeWith res x).sends = x.sends := by
  refine (upd_sends _ ?_).trans (failAll_sends res h.wf)
  refine resetState_handles ?_
  rw [failAll_st]
  exact h.eraseAll _

theorem failOnError_sends (h : TableWf x.st.pend) : (failOnError msg x).sends = x.sends := by
  unfold failOnError
  split
  · rfl
  · exact failAll_sends _ h

/-- A reset message at each of its levels (R274, R275, R277, R278). -/
theorem recvResetMsg_sends (h : SessionInv P x.st) (hp : x.st.phase = .opened) (hmsg : resetMsgFault P msg = none) :
    (recvResetMsg msg now x).sends = x.sends := by
  obtain ⟨-, -, hbounds⟩ := (resetMsgFault_eq_none_iff P msg).mp hmsg
  have hspan := ArqInv.sendSpan h.1
  unfold recvResetMsg
  split
  case h_1 => exact closeWith_sends .closed hspan
  case h_2 c _ hc => exact (sendReset_sends _ _).trans (upd_sends _ (resetState_handles hspan))
  case h_3 c _ hc =>
    unfold recvLevel2
    split
    case isFalse => exact sendReset_sends _ _
    case isTrue hr =>
      have hshake := h.handshake hp ((inReset_iff _).mp hr)
      have hmerged : HandshakeInv P (x.st.merge c) :=
        ⟨hshake.opened, hshake.cfg.merge (hbounds c hc), hshake.level, hshake.clear, hshake.queue⟩
      exact (startQueued_sends (P := P) hmerged.live).trans ((sendReset_sends _ _).trans (upd_sends _ rfl))
  case h_4 =>
    unfold recvLevel3
    split
    case isFalse => rfl
    case isTrue hl =>
      have hshake := h.handshake hp (by rw [hl]; decide)
      exact (startQueued_sends (P := P) hshake.live).trans (upd_sends _ rfl)
  case h_5 => rfl

/-- A message received in phase `Open` (R263, R271). -/
theorem recvOpen_sends (h : SessionInv P x.st) (hp : x.st.phase = .opened) :
    (recvOpen P msg now x).sends = x.sends := by
  have hwf := (ArqInv.sendSpan h.1).wf
  unfold recvOpen
  split
  · split
    · exact emit_sends _ rfl
    · rename_i hmsg
      rw [recvResetMsg_sends (h.failOnError hp msg) ((failOnError_phase msg x).trans hp) hmsg, failOnError_sends hwf]
  · split
    · exact (sendReset_sends _ _).trans (upd_sends _ rfl)
    · rename_i hr
      split
      · exact recvNormal_sends (h.live hp (not_not.mp (mt (inReset_iff _).mpr hr))).1 ‹_›
      · exact emit_sends _ rfl

/-- A retransmitted send stays in flight under its handle (R288). -/
theorem retransmit_sends {q : Nat} {entry : PendEntry} (hwf : TableWf x.st.pend) (he : (q, entry) ∈ x.st.pend) :
    (retransmit q entry now x).sends = x.sends := by
  refine (upd_sends _ (Multiset.coe_eq_coe.mpr ?_)).trans (sendCarrier_sends _)
  refine List.Perm.append_right _ ?_
  have hset := tableSet_perm_tableErase (q := q) hwf { entry with deadline := now + x.st.timeout }
  have hget := perm_cons_tableErase hwf (tableGet_of_mem _ hwf q entry he)
  exact (hset.map fun e => e.2.handle).trans (hget.map fun e => e.2.handle).symm

/-- One wake-up (R288). -/
theorem tickOpen_sends (hwf : TableWf x.st.pend) : (tickOpen now x).sends = x.sends := by
  unfold tickOpen
  split
  · split
    · exact (upd_sends _ rfl).trans (sendReset_sends _ _)
    · rfl
  · split
    case h_1 q entry hover => exact retransmit_sends hwf (mostOverdue_mem _ _ _ hover)
    case h_2 =>
      split
      · exact sendCarrier_sends _
      · rfl

/-- ARQ.RESET of an open channel (R290). -/
theorem resetOpen_sends (e : Option Bytes) (h : SendSpan x.st) :
    (resetOpen e now x).sends = x.sends := by
  cases e with
  | none => exact (sendReset_sends _ _).trans (upd_sends _ (resetState_handles h))
  | some err =>
    refine (sendReset_sends _ _).trans ((upd_sends _ (resetState_handles ?_)).trans (failAll_sends _ h.wf))
    rw [failAll_st]
    exact h.eraseAll _

end Received

/-! ## The commands of the other units -/

/-- The session is as it was and no send is completed. -/
def KeepsSends (s t : State) : Prop := t.arq = s.arq ∧ doneHandles t.events = []

namespace KeepsSends

variable {s : State} {r : Nat}

/-- An answer with the session untouched, and with no completion among its events. -/
theorem answer {u : State} {st : Status} {v : Value} {ev : List Event} (hev : doneHandles ev = [] := by rfl)
    (h : u.arq = s.arq := by rfl) : KeepsSends s (u.answer st v ev) := ⟨h, hev⟩

theorem ite {c : Prop} [Decidable c] {t u : State} (ht : KeepsSends s t) (hu : KeepsSends s u) :
    KeepsSends s (if c then t else u) := by
  split
  · exact ht
  · exact hu

theorem withMsg {f : Msg → State} (h : ∀ m, KeepsSends s (f m)) : KeepsSends s (s.withMsg r f) := by
  rcases withMsg_cases s r f with ⟨-, he⟩ | ⟨m, -, -, he⟩ <;> rw [he]
  · exact .answer
  · exact h m

theorem withHeader {m : Msg} {f : Hdr → State} (h : ∀ hd, KeepsSends s (f hd)) : KeepsSends s (s.withHeader m f) := by
  rcases withHeader_cases s m f with ⟨st, -, he⟩ | ⟨hd, -, he⟩ <;> rw [he]
  · exact .answer
  · exact h hd

end KeepsSends

section Framer

variable (P : Config.Params) (b : Byte) (x : Acc Frm)

theorem flushLine_doneHandles : doneHandles (flushLine x).ev = doneHandles x.ev := by
  rw [flushLine_ev, doneHandles_append]
  split <;> exact List.append_nil _

theorem putLine_doneHandles : doneHandles (putLine P b x).ev = doneHandles x.ev := by
  rw [putLine_ev, doneHandles_append]
  split <;> exact List.append_nil _

theorem syncTimeout_doneHandles : doneHandles (syncTimeout x).ev = doneHandles x.ev := by
  rw [syncTimeout_ev, doneHandles_append]
  split <;> exact List.append_nil _

theorem frameOutcome_doneHandles : doneHandles (frameOutcome x).ev = doneHandles x.ev := by
  rcases frameOutcome_cases x with ⟨-, he⟩ | ⟨-, -, he⟩ | ⟨-, -, -, he⟩ | ⟨-, -, -, he⟩ <;>
    simp [he, acceptFrame, doneHandles]

theorem rxByState_doneHandles : doneHandles (rxByState P b x).ev = doneHandles x.ev := by
  unfold rxByState
  split
  case h_1 =>
    unfold rxIdle
    split
    · simp [doneHandles]
    · exact flushLine_doneHandles x
    · exact putLine_doneHandles P b x
    · exact flushLine_doneHandles x
    · exact putLine_doneHandles P b x
  case h_2 => exact putLine_doneHandles P b x
  case h_3 => rw [(rxLen_cases P b x).1]
  case h_7 => exact frameOutcome_doneHandles _
  all_goals rfl

/-- A received byte completes no send (R105, R205). -/
theorem rxByte_doneHandles (f : Frm) : doneHandles (rxByte P b f).ev = [] :=
  (syncTimeout_doneHandles _).trans (rxByState_doneHandles P b _)

/-- A timeout completes no send (R105, R222). -/
theorem rxTimeout_doneHandles (f : Frm) : doneHandles (rxTimeout P f).ev = [] := by
  refine (syncTimeout_doneHandles _).trans ?_
  split
  · unfold timeoutIdle
    split
    · rfl
    · dsimp only
      split
      · exact flushLine_doneHandles _
      · rfl
  · unfold timeoutBusy lostFrame
    dsimp only
    split
    · split
      · exact flushLine_doneHandles _
      · rfl
    · rfl

end Framer

/-- The commands of CRC, MSG and FRM touch no session and complete no send (R313). -/
theorem execWith_keepsSends (P : Config.Params) {i : Instr} (s : State) (hs : i ≠ .sysReset) (hi : i.opcode / 16 ≠ 4) :
    KeepsSends s (execWith P i s) := by
  cases i with
  | sysReset => exact absurd rfl hs
  | crcReset => exact .answer
  | crcUpdate byte => exact .answer
  | crcFinish => exact .answer
  | msgClear r => exact .withMsg fun _ => .answer
  | msgSetaddr r dst src => exact .withMsg fun _ => .ite .answer .answer
  | msgSetcode r code => exact .withMsg fun _ => .answer
  | msgSetprio r prio => exact .withMsg fun _ => .answer
  | msgAdddata r => exact .withMsg fun _ => .ite .answer .answer
  | msgHeader r => exact .withMsg fun _ => .withHeader fun _ => .answer
  | msgHdrlen r =>
    refine .withMsg fun m => ?_
    split <;> exact .answer
  | msgFirstbits r n =>
    exact .withMsg fun _ => .withHeader fun _ => .ite .answer .answer
  | msgGet r => exact .withMsg fun _ => .answer
  | msgXstart r => exact .withMsg fun _ => .withHeader fun _ => .answer
  | msgXchunk r fb =>
    refine .withMsg fun m => .ite .answer ?_
    cases m.xpos with
    | none => exact .answer
    | some pos => exact .withHeader fun _ => .ite .answer .answer
  | msgAstart r => exact .withMsg fun _ => .answer
  | msgAchunk r fb value =>
    refine .withMsg fun m => .ite .answer ?_
    cases chunkBits m.buf.length fb value with
    | error st => exact .answer
    | ok p => exact .ite .answer .answer
  | msgAend r => exact .withMsg fun _ => .ite .answer .answer
  | frmRxbyte byte => exact .answer (rxByte_doneHandles P byte s.frm)
  | frmTimeout => exact .answer (rxTimeout_doneHandles P s.frm)
  | frmSend r =>
    exact .withMsg fun _ => .withHeader fun _ =>
      .ite .answer (.ite .answer .answer)
  | frmRelease => exact .answer
  | _ => exact absurd (by simp [Instr.opcode]) hi

/-! ## Every command -/

/-- No send is lost and none is completed twice: those held in `s` and the `accepted` ones are those held in `t` and
those its events have completed (R262). -/
def Conserves (s t : State) (accepted : List U16) : Prop :=
  (s.arq.handles ++ accepted).Perm (t.arq.handles ++ doneHandles t.events)

theorem KeepsSends.conserves {s t : State} (h : KeepsSends s t) : Conserves s t [] := by
  unfold Conserves
  rw [h.1, h.2]

/-- An engine's command conserves the sends where its body does. -/
theorem commitArq_conserves {s : State} {x : Acc Arq} {accepted : List U16}
    (h : x.sends = (Acc.start s.arq).sends + (accepted : Multiset U16)) : Conserves s (s.commitArq x) accepted := by
  rw [start_sends] at h
  exact Multiset.coe_eq_coe.mp h.symm

/-- The body of a command that accepts no send. -/
theorem commitArq_conserves_nil {s : State} {x : Acc Arq} (h : x.sends = (Acc.start s.arq).sends) :
    Conserves s (s.commitArq x) [] :=
  commitArq_conserves (by rw [h, Multiset.coe_nil, add_zero])

/-- The same parameters with `P_MAX` unbounded: under these the engine's invariant says nothing of the payloads. -/
abbrev anyPayload (P : Config.Params) : Config.Params := { P with pMax := none }

theorem ArqInv.session {P : Config.Params} {a : Arq} (h : ArqInv P a) : SessionInv (anyPayload P) a :=
  ⟨h, (sendsFit_iff _ a).mpr ⟨fun _ _ => rfl, fun _ _ => rfl⟩⟩

section Commands

variable {P : Config.Params} {s : State}

/-- A channel that is not open holds no send, nor does one just opened (R39, R268). -/
theorem arqOpen_conserves (h : ArqInv P s.arq) (window timeout : Nat) :
    Conserves s (arqOpen P window timeout s) [] := by
  obtain ⟨-, -, -, -, -, -, hphase⟩ := h
  unfold arqOpen
  split
  · exact KeepsSends.conserves ⟨rfl, rfl⟩
  · rename_i hp
    split
    · exact KeepsSends.conserves ⟨rfl, rfl⟩
    · obtain ⟨⟨-, -, -, -, hpend, -, -⟩, hqueue, -⟩ := hphase hp
      refine commitArq_conserves_nil ((sendReset_sends _ _).trans ?_)
      simp [start_sends, Arq.handles, Arq.opening, hpend, hqueue]

/-- ARQ.SEND accepts the handle exactly where it answers OK (R270). -/
theorem arqSend_conserves (h : ArqInv P s.arq) (handle : U16) :
    Conserves s (arqSend P handle s) (acceptedHandle (.arqSend handle) (arqSend P handle s)) := by
  unfold arqSend
  split
  · exact KeepsSends.conserves ⟨rfl, rfl⟩
  · exact KeepsSends.conserves ⟨rfl, rfl⟩
  · split
    · exact KeepsSends.conserves ⟨rfl, rfl⟩
    · split
      · exact commitArq_conserves (alloc_sends _ _ (ArqInv.sendSpan h).head_free)
      · split
        · exact KeepsSends.conserves ⟨rfl, rfl⟩
        · refine commitArq_conserves (accepted := [handle]) ?_
          simp only [sends_eq, acc_upd_st, acc_upd_ev, acc_start_st, List.map_append, ← Multiset.coe_add, List.map_cons,
            List.map_nil]
          abel

theorem arqRecv_conserves (h : ArqInv P s.arq) : Conserves s (arqRecv P s) [] := by
  unfold arqRecv
  split
  · exact KeepsSends.conserves ⟨rfl, rfl⟩
  · refine commitArq_conserves_nil ?_
    unfold recvClosed
    split
    · rfl
    · exact sendReset_sends _ _
  · rename_i hp
    exact commitArq_conserves_nil (recvOpen_sends (P := anyPayload P) h.session hp)

theorem arqTick_conserves (h : ArqInv P s.arq) : Conserves s (arqTick s) [] := by
  unfold arqTick
  split
  · exact commitArq_conserves_nil (tickOpen_sends (ArqInv.sendSpan h).wf)
  · exact KeepsSends.conserves ⟨rfl, rfl⟩

theorem arqClose_conserves (h : ArqInv P s.arq) : Conserves s (arqClose s) [] := by
  unfold arqClose
  split
  · exact KeepsSends.conserves ⟨rfl, rfl⟩
  · exact commitArq_conserves_nil (closeWith_sends _ (ArqInv.sendSpan h))
  · exact KeepsSends.conserves ⟨rfl, rfl⟩

theorem arqReset_conserves (h : ArqInv P s.arq) (hasErr : Bool) : Conserves s (arqReset hasErr s) [] := by
  unfold arqReset
  split
  · exact KeepsSends.conserves ⟨rfl, rfl⟩
  · exact KeepsSends.conserves ⟨rfl, rfl⟩
  · exact commitArq_conserves_nil (resetOpen_sends _ (ArqInv.sendSpan h))

theorem arqLowerfail_conserves (h : ArqInv P s.arq) : Conserves s (arqLowerfail s) [] := by
  unfold arqLowerfail
  split
  · exact KeepsSends.conserves ⟨rfl, rfl⟩
  · exact commitArq_conserves_nil (closeWith_sends _ (ArqInv.sendSpan h))
  · exact KeepsSends.conserves ⟨rfl, rfl⟩

end Commands

/-- Every command but SYS.RESET conserves the sends (R262). -/
theorem execWith_conserves {P : Config.Params} {i : Instr} {s : State} (h : ArqInv P s.arq) (hi : i ≠ .sysReset) :
    Conserves s (execWith P i s) (acceptedHandle i (execWith P i s)) := by
  cases i with
  | sysReset => exact absurd rfl hi
  | arqOpen window timeout => exact arqOpen_conserves h window timeout
  | arqSend handle => exact arqSend_conserves h handle
  | arqRecv => exact arqRecv_conserves h
  | arqTick => exact arqTick_conserves h
  | arqClose => exact arqClose_conserves h
  | arqReset hasErr => exact arqReset_conserves h hasErr
  | arqLowerfail => exact arqLowerfail_conserves h
  | arqNext => exact KeepsSends.conserves ⟨rfl, rfl⟩
  | _ => exact (execWith_keepsSends P s hi (by simp [Instr.opcode])).conserves

/-! ## The bound on the sends held -/

/-- The sends held are as many as their handles. -/
theorem handles_length (a : Arq) : a.handles.length = a.sendq.length + a.pend.length := by
  simp [Arq.handles, Nat.add_comm]

/-- At most half the largest window is in flight (R38). -/
theorem ArqInv.pend_length_le {P : Config.Params} {a : Arq} (h : ArqInv P a) : a.pend.length ≤ P.wMax / 2 := by
  have hflight := pend_length_le_inflight h.sendSpan
  obtain ⟨⟨-, hmax, -⟩, ⟨hspan, -⟩, -⟩ := h
  have : a.half = a.window / 2 := rfl
  omega

/-- ARQ.SEND allocates where the queue is empty and the window has a place, and queues where the queue has
one (R270). -/
theorem arqSend_bounded {P : Config.Params} {s : State} (h : ArqInv P s.arq) (handle : U16) {n : Nat}
    (hn : P.qMax = some n) (hs : s.arq.handles.length ≤ n + P.wMax / 2) :
    (arqSend P handle s).arq.handles.length ≤ n + P.wMax / 2 := by
  have hspan := h.sendSpan
  have hflight := h.pend_length_le
  unfold arqSend
  split
  · exact hs
  · exact hs
  · split
    · exact hs
    · split
      · rename_i hfree
        obtain ⟨-, hq, hspace⟩ := hfree
        have hle := pend_length_le_inflight hspan
        have hlt := (hasSpace_iff _).mp hspace
        obtain ⟨⟨-, hmax, -⟩, -⟩ := h
        have hset := (tableSet_perm_of_none hspan.head_free
          ⟨s.port.operands.payload, s.now + s.arq.timeout, handle⟩).length_eq
        rw [commitArq_arq, alloc_st, handles_length]
        dsimp only [acc_start_st]
        rw [hset, hq, List.length_cons, List.length_nil]
        omega
      · split
        · exact hs
        · rename_i hfull
          have hroom : s.arq.sendq.length < n :=
            Nat.lt_of_not_le fun hle => hfull ((queueFull_iff P _).mpr ⟨n, hn, hle⟩)
          rw [commitArq_arq, handles_length]
          simp only [acc_upd_st, acc_start_st, List.length_append, List.length_singleton]
          omega

/-- A command other than ARQ.SEND accepts no send, so it leaves no more than it found. -/
theorem execWith_handles_length_le {P : Config.Params} {i : Instr} {s : State} (h : ArqInv P s.arq)
    (hi : acceptedHandle i (execWith P i s) = []) : (execWith P i s).arq.handles.length ≤ s.arq.handles.length := by
  by_cases hr : i = .sysReset
  · subst hr
    exact Nat.zero_le _
  · have hlen := (execWith_conserves h hr).length_eq
    rw [hi, List.append_nil, List.length_append] at hlen
    omega

end Sys2Proof.Machine

namespace Sys2Proof.Settled

open Sys2Proof.Machine

/-- Settles O60, by the case of every command in `execWith_conserves`. -/
theorem handlesConserved : Obligations.HandlesConserved := fun _ _ _ h hi => execWith_conserves h hi

/-- Settles O16: only ARQ.SEND adds a send, and it tests the queue's bound; at most half the window is in flight. -/
theorem sendsStayBounded : Obligations.SendsStayBounded := by
  intro P i s h hs
  unfold sendsBounded at hs ⊢
  cases hn : P.qMax with
  | none => rfl
  | some n =>
    rw [hn] at hs
    simp only [decide_eq_true_eq, ← handles_length] at hs ⊢
    cases i with
    | arqSend handle => exact arqSend_bounded h handle hn hs
    | _ => exact (execWith_handles_length_le h rfl).trans hs

end Sys2Proof.Settled

/-! What the commands of the ARQ engine leave and emit, exactly (R263 to R265, R268, R270 to R279, R289 to R291): the
emissions and the failure of every send written out, one equation per case of a command. -/

namespace Sys2Proof.Machine

/-! ## Emissions and allocation written out -/

section Emissions

variable {x : Acc Arq} {now : Nat}

/-- The reset message of a handshake level carries the configuration (R264). -/
theorem sendReset_handshake {n : Fin 4} (e : Option Bytes) (h : n = 1 ∨ n = 2) :
    sendReset n e x =
      ⟨x.st, x.ev ++ [.lowerSend { s := if n = 1 then -1 else 0, r := if n = 1 then -1 else 0, a := true, n := some n,
                                   c := some ⟨x.st.timeout, x.st.window⟩, e := e }]⟩ := by
  rw [sendReset, mkReset, if_pos h]
  rfl

/-- `Alloc`: the entry, the head, and the data message, which carries `r` and `x` (R264, R266). -/
theorem alloc_eq (payload : Bytes) (handle : U16) (x : Acc Arq) :
    alloc payload handle now x =
      ⟨{ x.st with pend := tableSet x.st.pend x.st.sendHead ⟨payload, now + x.st.timeout, handle⟩,
                   sendHead := (x.st.sendHead + 1) % x.st.window, ackPending := false },
        x.ev ++ [.lowerSend { s := x.st.sendHead, r := x.st.recvTail, x := x.st.xField, d := some payload }]⟩ := rfl

/-- With nothing queued `StartQueued` does nothing (R267). -/
theorem startQueued_of_nil (h : x.st.sendq = []) : startQueued now x = x := by
  rw [startQueued, h]
  rfl

end Emissions

/-! ## The failure of every send -/

section Failure

variable {x : Acc Arq}

/-- The sends in flight, as entries of the queue: what `ResetState` queues again (R265). -/
theorem requeued_eq_unfinished (a : Arq) : a.requeued = a.unfinished := List.filterMap_map

/-- After `FailAll` no send is left, in flight or queued (R265). -/
theorem failAll_unfinished (res : Completion) (x : Acc Arq) :
    (failAll res x).st.unfinished ++ (failAll res x).st.sendq = [] := by
  rw [← requeued_eq_unfinished, requeued_failAll, failAll_st]
  rfl

/-- `FailAll` completes the outstanding sends in their order (R265). -/
theorem failAll_ev_eq (res : Completion) (hw : 0 < x.st.window) :
    (failAll res x).ev = x.ev ++ x.st.outstanding.map fun h => .sendDone h res := by
  rw [failAll_ev res x (fwd_lt _ _ _ hw).le, List.append_assoc, Arq.outstanding, ← requeued_eq_unfinished]
  simp only [Arq.requeued, List.map_append, List.map_map, List.map_filterMap, Option.map_map]
  rfl

/-- `ResetState` written out (R265). -/
theorem resetState_eq (a : Arq) :
    a.resetState =
      { a with sendq := a.unfinished ++ a.sendq, pend := [], oor := [], sendHead := 0, sendTail := 0, recvHead := 0,
               recvTail := 0, ackPending := false } := by
  rw [← requeued_eq_unfinished]
  rfl

/-- Where `pend` holds nothing but sends in flight, `FailAll` empties it (R39 (a), R265). -/
theorem failAll_eq (res : Completion) (h : SendSpan x.st) :
    failAll res x =
      ⟨{ x.st with pend := [], sendq := [] }, x.ev ++ x.st.outstanding.map fun h => .sendDone h res⟩ := by
  have hw : 0 < x.st.window := Nat.zero_lt_of_lt h.head_lt
  have hpend : (x.st.fromTail x.st.inflight).foldl tableErase x.st.pend = [] := by
    refine table_ext _ _ (foldl_erase_wf _ _ h.wf) .nil fun q => ?_
    have hmem := mem_fromTail x.st x.st.inflight q (fwd_lt _ _ _ hw).le h.tail_lt
    rw [tableGet_foldl_erase, tableGet_nil, ite_eq_left_iff, hmem]
    exact fun hout => (tableGet_eq_none_iff _ _).mpr fun e he heq => hout (heq ▸ h.mem e he)
  refine acc_ext ?_ (failAll_ev_eq res hw)
  rw [failAll_st, hpend]

/-- After `FailAll` nothing is queued again (R265). -/
theorem failAll_resetState (res : Completion) (x : Acc Arq) :
    (failAll res x).st.resetState =
      { x.st with sendq := [], pend := [], oor := [], sendHead := 0, sendTail := 0, recvHead := 0, recvTail := 0,
                  ackPending := false } := by
  rw [resetState_eq, failAll_unfinished, failAll_st]

/-- Closure: every send completes, and the session is closed with its sequence state clear (R274, R289, R291). -/
theorem closeWith_eq (res : Completion) (hw : 0 < x.st.window) :
    closeWith res x =
      ⟨{ x.st with phase := .closed, sendq := [], pend := [], oor := [], sendHead := 0, sendTail := 0, recvHead := 0,
                   recvTail := 0, ackPending := false, resetLevel := 0 },
        x.ev ++ x.st.outstanding.map fun h => .sendDone h res⟩ := by
  refine acc_ext ?_ (failAll_ev_eq res hw)
  rw [closeWith, acc_upd_st, failAll_resetState]

/-- A second failure finds nothing to complete (R265). -/
theorem closeWith_failAll (res res' : Completion) (hw : 0 < x.st.window) :
    closeWith res (failAll res' x) = closeWith res' x := by
  have hw' : 0 < (failAll res' x).st.window := by rwa [failAll_st]
  rw [closeWith_eq res hw', closeWith_eq res' hw, Arq.outstanding, failAll_unfinished, failAll_ev_eq res' hw,
    failAll_st]
  simp

end Failure

/-! ## ARQ.RECV, case by case -/

section Receive

variable {P : Config.Params} {x : Acc Arq} {msg : ArqMsg} {now : Nat} {s : State}

theorem arqRecv_of_opened (h : s.arq.phase = .opened) :
    arqRecv P s = s.commitArq (recvOpen P s.port.operands.msg s.now (Acc.start s.arq)) := by simp [arqRecv, h]

theorem arqRecv_of_closed (h : s.arq.phase = .closed) :
    arqRecv P s = s.commitArq (recvClosed s.port.operands.msg (Acc.start s.arq)) := by simp [arqRecv, h]

theorem arqRecv_of_unopened (h : s.arq.phase = .unopened) : arqRecv P s = s.answer .state .none [] := by
  simp [arqRecv, h, State.refuse]

/-- A reset message without a level, or of level 1 or 2 without a configuration (R263). -/
theorem recvOpen_of_malformed (ha : msg.a = true)
    (h : msg.n = none ∨ ((msg.n = some 1 ∨ msg.n = some 2) ∧ msg.c = none)) :
    recvOpen P msg now x = x.raise .arqMalformed := by simp [recvOpen, ha, resetMsgFault, h]

/-- A configuration outside its bounds (R263). -/
theorem recvOpen_of_bound {c : ArqCfg} (ha : msg.a = true)
    (h : ¬ (msg.n = none ∨ ((msg.n = some 1 ∨ msg.n = some 2) ∧ msg.c = none))) (hc : msg.c = some c)
    (hout : c.m < 4 ∨ c.t < P.tMin ∨ P.tMax < c.t) : recvOpen P msg now x = x.raise .arqBound := by
  have hfault : resetMsgFault P msg = some .arqBound := by
    rw [resetMsgFault, if_neg h, hc]
    exact if_pos ((cfgOutOfBounds_iff P c).mpr hout)
  simp [recvOpen, ha, hfault]

/-- A reset message with its level and, at levels 1 and 2, its configuration, inside its bounds (R271, R273). -/
theorem recvOpen_of_reset {n : Fin 4} (ha : msg.a = true) (hn : msg.n = some n)
    (hc : (n = 1 ∨ n = 2) → msg.c ≠ none) (hin : ∀ c, msg.c = some c → 4 ≤ c.m ∧ P.tMin ≤ c.t ∧ c.t ≤ P.tMax) :
    recvOpen P msg now x = recvResetMsg msg now (failOnError msg x) := by
  have hfault : resetMsgFault P msg = none :=
    (resetMsgFault_eq_none_iff P msg).mpr ⟨by simp [hn], by simpa [hn] using hc, hin⟩
  simp [recvOpen, ha, hfault]

theorem recvOpen_of_normal (ha : msg.a = false) (hl : x.st.resetLevel = 0) :
    recvOpen P msg now x = if normalMsgOk x.st.window msg then recvNormal P msg now x else x.raise .arqBound := by
  simp [recvOpen, ha, Arq.inReset, hl]

theorem recvOpen_duringReset (ha : msg.a = false) (hl : x.st.resetLevel ≠ 0) :
    recvOpen P msg now x = recvDuringReset now x := by
  simp [recvOpen, ha, Arq.inReset, hl]

theorem failOnError_of_none (h : msg.e = none) : failOnError msg x = x := by simp [failOnError, h]

theorem failOnError_of_some {e : Bytes} (h : msg.e = some e) : failOnError msg x = failAll (.resetError e) x := by
  simp [failOnError, h]

theorem recvResetMsg_terminal (hn : msg.n = some 0) : recvResetMsg msg now x = closeWith .closed x := by
  rw [recvResetMsg, hn]
  rfl

theorem recvResetMsg_level1 {c : ArqCfg} (hn : msg.n = some 1) (hc : msg.c = some c) :
    recvResetMsg msg now x = recvLevel1 c now x := by
  rw [recvResetMsg, hn, hc]
  rfl

theorem recvResetMsg_level2 {c : ArqCfg} (hn : msg.n = some 2) (hc : msg.c = some c) :
    recvResetMsg msg now x = recvLevel2 c now x := by
  rw [recvResetMsg, hn, hc]
  rfl

theorem recvResetMsg_level3 (hn : msg.n = some 3) : recvResetMsg msg now x = recvLevel3 now x := by
  rw [recvResetMsg, hn]
  rfl

/-- A level-1 message restarts the handshake at level 2 under the merged configuration (R275, R282). -/
theorem recvLevel1_eq (c : ArqCfg) :
    recvLevel1 c now x =
      ⟨{ x.st with sendq := x.st.unfinished ++ x.st.sendq, pend := [], oor := [], sendHead := 0, sendTail := 0,
                   recvHead := 0, recvTail := 0, ackPending := false, timeout := max x.st.timeout c.t,
                   window := min x.st.window c.m, resetLevel := 2, resetDeadline := now + max x.st.timeout c.t },
        x.ev ++ [.lowerSend { s := 0, r := 0, a := true, n := some 2,
                              c := some ⟨max x.st.timeout c.t, min x.st.window c.m⟩ }]⟩ := by
  rw [← requeued_eq_unfinished]
  rfl

/-- During the handshake a normal message has the reset message of the level sent again (R279). -/
theorem recvDuringReset_eq (hl : x.st.resetLevel = 1 ∨ x.st.resetLevel = 2) :
    recvDuringReset now x =
      ⟨{ x.st with resetDeadline := now + x.st.timeout },
        x.ev ++ [.lowerSend { s := if x.st.resetLevel = 1 then -1 else 0, r := if x.st.resetLevel = 1 then -1 else 0,
                              a := true, n := some x.st.resetLevel, c := some ⟨x.st.timeout, x.st.window⟩ }]⟩ :=
  sendReset_handshake none hl

/-- A well-formed level-2 message: an error it carries first, then its level (R273, R277). -/
theorem arqRecv_level2 {c : ArqCfg} (hp : s.arq.phase = .opened) (ha : s.port.operands.msg.a = true)
    (hn : s.port.operands.msg.n = some 2) (hc : s.port.operands.msg.c = some c)
    (hin : ∀ c, s.port.operands.msg.c = some c → 4 ≤ c.m ∧ P.tMin ≤ c.t ∧ c.t ≤ P.tMax) :
    arqRecv P s = s.commitArq (recvLevel2 c s.now (failOnError s.port.operands.msg (Acc.start s.arq))) := by
  rw [arqRecv_of_opened hp, recvOpen_of_reset ha hn (fun _ => Option.ne_none_iff_exists'.mpr ⟨c, hc⟩) hin,
    recvResetMsg_level2 hn hc]

/-- A well-formed level-3 message: an error it carries first, then its level (R273, R278). -/
theorem arqRecv_level3 (hp : s.arq.phase = .opened) (ha : s.port.operands.msg.a = true)
    (hn : s.port.operands.msg.n = some 3)
    (hin : ∀ c, s.port.operands.msg.c = some c → 4 ≤ c.m ∧ P.tMin ≤ c.t ∧ c.t ≤ P.tMax) :
    arqRecv P s = s.commitArq (recvLevel3 s.now (failOnError s.port.operands.msg (Acc.start s.arq))) := by
  rw [arqRecv_of_opened hp, recvOpen_of_reset ha hn (by simp) hin, recvResetMsg_level3 hn]

/-- Before the end of the handshake a level-2 message ends it (R277). -/
theorem recvLevel2_of_reset (c : ArqCfg) (hl : x.st.resetLevel ≠ 0) :
    recvLevel2 c now x = startQueued now
      ⟨{ x.st with timeout := max x.st.timeout c.t, window := min x.st.window c.m, resetLevel := 0 },
        x.ev ++ [.lowerSend { s := 0, r := 0, a := true, n := some 3 }]⟩ := by
  rw [recvLevel2, if_pos ((inReset_iff _).mpr hl)]
  rfl

/-- After it, a repeat is answered again (R277). -/
theorem recvLevel2_of_live (c : ArqCfg) (hl : x.st.resetLevel = 0) :
    recvLevel2 c now x = ⟨x.st, x.ev ++ [.lowerSend { s := 0, r := 0, a := true, n := some 3 }]⟩ := by
  rw [recvLevel2, if_neg fun h => (inReset_iff _).mp h hl]
  rfl

end Receive

/-! ## ARQ.SEND, case by case -/

section Send

variable {P : Config.Params} {s : State} {handle : U16}

theorem arqSend_of_opened (h : s.arq.phase = .opened) :
    arqSend P handle s =
      if payloadTooLong P s.port.operands.payload then s.refuse .range
      else if s.arq.resetLevel = 0 ∧ s.arq.sendq = [] ∧ s.arq.hasSpace then
        s.commitArq (alloc s.port.operands.payload handle s.now (Acc.start s.arq))
      else if queueFull P s.arq then s.refuse .busy
      else
        s.commitArq ((Acc.start s.arq).upd fun a =>
          { a with sendq := a.sendq ++ [{ payload := s.port.operands.payload, handle := handle }] }) := by
  simp [arqSend, h]

/-- A payload within `P_MAX` (R270). -/
theorem payloadTooLong_eq_false (payload : Bytes) (h : ∀ n, P.pMax = some n → payload.length ≤ n) :
    ¬ payloadTooLong P payload = true := by
  rw [payloadTooLong_iff]
  rintro ⟨n, hn, hlt⟩
  exact absurd (h n hn) (by omega)

end Send

/-! ## ARQ.CLOSE, ARQ.LOWERFAIL and ARQ.RESET of an open channel -/

section Restart

variable {s : State} {x : Acc Arq} {now : Nat}

theorem arqClose_of_opened (h : s.arq.phase = .opened) :
    arqClose s = s.commitArq (closeWith .closed (Acc.start s.arq)) := by simp [arqClose, h]

theorem arqLowerfail_of_opened (h : s.arq.phase = .opened) :
    arqLowerfail s = s.commitArq (closeWith (.transport s.port.operands.err) (Acc.start s.arq)) := by
  simp [arqLowerfail, h]

theorem arqReset_of_opened (hasErr : Bool) (h : s.arq.phase = .opened) :
    arqReset hasErr s =
      s.commitArq (resetOpen (if hasErr then some s.port.operands.err else none) s.now (Acc.start s.arq)) := by
  simp [arqReset, h]

/-- ARQ.RESET restarts the handshake at level 1, and its message carries the error it has (R290). -/
theorem resetOpen_eq (hw : 0 < x.st.window) (e : Option Bytes) :
    resetOpen e now x =
      ⟨{ x.st with sendq := (match e with | none => x.st.unfinished ++ x.st.sendq | some _ => []), pend := [],
                   oor := [], sendHead := 0, sendTail := 0, recvHead := 0, recvTail := 0, ackPending := false,
                   resetLevel := 1, resetDeadline := now + x.st.timeout },
        x.ev ++ (match e with | none => [] | some err => x.st.outstanding.map fun h => .sendDone h (.resetError err)) ++
          [.lowerSend { s := -1, r := -1, a := true, n := some 1, c := some ⟨x.st.timeout, x.st.window⟩,
                        e := e }]⟩ := by
  cases e with
  | none =>
    simp only [resetOpen, sendReset_handshake _ (.inl rfl), acc_upd_st, acc_upd_ev, resetState_eq, List.append_nil]
    rfl
  | some err =>
    simp only [resetOpen, sendReset_handshake _ (.inl rfl), acc_upd_st, acc_upd_ev, failAll_resetState,
      failAll_ev_eq _ hw]
    rw [failAll_st]
    rfl

end Restart

/-! ## Before opening and after closing -/

section NotOpen

variable {s : State}

theorem arqSend_of_unopened (P : Config.Params) (handle : U16) (h : s.arq.phase = .unopened) :
    arqSend P handle s = s.answer .state .none [] := by simp [arqSend, h, State.refuse]

theorem arqSend_of_closed (P : Config.Params) (handle : U16) (h : s.arq.phase = .closed) :
    arqSend P handle s = s.answer .closed .none [] := by simp [arqSend, h, State.refuse]

theorem arqClose_of_unopened (h : s.arq.phase = .unopened) : arqClose s = s.answer .state .none [] := by
  simp [arqClose, h, State.refuse]

theorem arqClose_of_closed (h : s.arq.phase = .closed) : arqClose s = s.answer .ok .none [] := by
  simp [arqClose, h, State.done]

theorem arqLowerfail_of_unopened (h : s.arq.phase = .unopened) : arqLowerfail s = s.answer .state .none [] := by
  simp [arqLowerfail, h, State.refuse]

theorem arqLowerfail_of_closed (h : s.arq.phase = .closed) : arqLowerfail s = s.answer .ok .none [] := by
  simp [arqLowerfail, h, State.done]

theorem arqReset_of_unopened (hasErr : Bool) (h : s.arq.phase = .unopened) :
    arqReset hasErr s = s.answer .state .none [] := by simp [arqReset, h, State.refuse]

theorem arqReset_of_closed (hasErr : Bool) (h : s.arq.phase = .closed) :
    arqReset hasErr s = s.answer .closed .none [] := by simp [arqReset, h, State.refuse]

end NotOpen

end Sys2Proof.Machine

namespace Sys2Proof.Settled

open Sys2Proof.Machine

/-- Settles O48, by the order of the refusals of R268. -/
theorem arqOpen : Obligations.ArqOpen := by
  refine ⟨fun w t hw ht => ?_, fun w t s => ?_⟩
  · have hfits : (Instr.arqOpen w t).wellFormed = true := by simp [Instr.wellFormed, hw, ht]
    rw [(Laws.EncodeFits.arqOpen w t hfits).2.1]
    simp only [Instr.opcode, Instr.imm]
    omega
  · intro after
    exact exec_and_execWith (after := after) fun _ => rfl

/-- Settles O49, by the order of the tests of R270; at the default every payload is short enough. -/
theorem arqSend : Obligations.ArqSend := by
  intro handle s a payload sent queued free
  have hfree : free ↔ a.resetLevel = 0 ∧ a.sendq = [] ∧ a.hasSpace = true := by rw [hasSpace_iff]
  have hparams (P : Config.Params) (hp : a.phase = .opened) :
      (∀ n, P.pMax = some n → n < payload.length → execWith P (.arqSend handle) s = s.answer .range .none []) ∧
      ((∀ n, P.pMax = some n → payload.length ≤ n) →
        (free → execWith P (.arqSend handle) s = sent) ∧
        (¬ free → (∀ n, P.qMax = some n → a.sendq.length < n) → execWith P (.arqSend handle) s = queued) ∧
        (∀ n, ¬ free → P.qMax = some n → n ≤ a.sendq.length →
          execWith P (.arqSend handle) s = s.answer .busy .none [])) := by
    refine ⟨fun n hn hlt => ?_, fun hfit => ?_⟩
    · exact (arqSend_of_opened hp).trans (if_pos ((payloadTooLong_iff P _).mpr ⟨n, hn, hlt⟩))
    · have hsend := (arqSend_of_opened hp (handle := handle)).trans (if_neg (payloadTooLong_eq_false _ hfit))
      refine ⟨fun hf => hsend.trans (if_pos (hfree.mp hf)), fun hf hroom => ?_, fun n hf hn hle => ?_⟩
      · refine (hsend.trans (if_neg (mt hfree.mpr hf))).trans (if_neg ?_)
        rw [queueFull_iff]
        exact fun ⟨n, hn, hle⟩ => Nat.not_lt_of_le hle (hroom n hn)
      · exact (hsend.trans (if_neg (mt hfree.mpr hf))).trans (if_pos ((queueFull_iff P _).mpr ⟨n, hn, hle⟩))
  have hdefault (hp : a.phase = .opened) := (hparams defaultParams hp).2 nofun
  simp only [exec_eq_next_iff]
  refine ⟨arqSend_of_unopened _ handle, arqSend_of_closed _ handle, fun hp hf => (hdefault hp).1 hf,
    fun hp hf hlt => (hdefault hp).2.1 hf ?_, fun hp hf hle => (hdefault hp).2.2 16 hf rfl hle, hparams⟩
  rintro n ⟨⟩
  exact hlt

/-- Settles O59: closure and the restart of the handshake, each after the failure of every send where it fails them. -/
theorem arqCloseLowerfailReset : Obligations.ArqCloseLowerfailReset := by
  intro s a err closed
  simp only [exec_eq_next_iff]
  refine ⟨fun hp hasErr i hi => ?_,
    fun hp hasErr => ⟨arqClose_of_closed hp, arqLowerfail_of_closed hp, arqReset_of_closed hasErr hp⟩,
    fun hp hw => ⟨(arqClose_of_opened hp).trans (congrArg s.commitArq (closeWith_eq .closed hw)),
      (arqLowerfail_of_opened hp).trans (congrArg s.commitArq (closeWith_eq (.transport err) hw)), fun hasErr => ?_⟩⟩
  · simp only [List.mem_cons, List.not_mem_nil, or_false] at hi
    rcases hi with rfl | rfl | rfl
    · exact arqClose_of_unopened hp
    · exact arqLowerfail_of_unopened hp
    · exact arqReset_of_unopened hasErr hp
  · refine (arqReset_of_opened hasErr hp).trans (congrArg s.commitArq ((resetOpen_eq hw _).trans ?_))
    cases hasErr <;> rfl

/-- Settles O51, by the phase and then by what is wrong with the message. -/
theorem arqRecvNotOpenOrDropped : Obligations.ArqRecvNotOpenOrDropped := by
  intro s msg W badReset effect
  have heffect (P : Config.Params) : effect P (fun t => execWith P .arqRecv s = t) := by
    refine ⟨arqRecv_of_unopened, fun hp ha hn => ?_, fun hp hnot => ?_, fun hp ha hbad => ?_,
      fun hp ha hbad c hc hout => ?_, fun hp ha hl hout => ?_⟩
    · have hrecv : recvClosed msg (Acc.start s.arq) = Acc.start s.arq := if_pos ⟨ha, hn⟩
      exact (arqRecv_of_closed hp).trans (congrArg s.commitArq hrecv)
    · have hrecv : recvClosed msg (Acc.start s.arq) = sendReset 0 none (Acc.start s.arq) := if_neg hnot
      exact (arqRecv_of_closed hp).trans (congrArg s.commitArq hrecv)
    · exact (arqRecv_of_opened hp).trans (congrArg s.commitArq (recvOpen_of_malformed ha hbad))
    · exact (arqRecv_of_opened hp).trans (congrArg s.commitArq (recvOpen_of_bound ha hbad hc hout))
    · have hbounds : ¬ normalMsgOk W msg = true := by
        rw [normalMsgOk_iff]
        rintro ⟨⟨hs, hs'⟩, ⟨hr, hr'⟩, hx⟩
        rcases hout with h | h | h | h | ⟨q, hq, h⟩
        · exact absurd hs (by omega)
        · exact absurd hs' (by omega)
        · exact absurd hr (by omega)
        · exact absurd hr' (by omega)
        · exact absurd (hx q hq) (by omega)
      have hrecv := (recvOpen_of_normal (P := P) (x := Acc.start s.arq) (now := s.now) ha hl).trans (if_neg hbounds)
      exact (arqRecv_of_opened hp).trans (congrArg s.commitArq hrecv)
  simp only [exec_eq_next_iff]
  exact ⟨heffect defaultParams, heffect⟩

/-- Settles O52: closure after a failure completes nothing more, and the failed sends are not queued again. -/
theorem arqRecvTerminalAndLevel1 : Obligations.ArqRecvTerminalAndLevel1 := by
  intro s hp ha hw a msg effect
  have heffect (P : Config.Params) : effect P (fun t => execWith P .arqRecv s = t) := by
    refine fun hin => ⟨fun hn => ?_, fun c hn hc => ?_⟩ <;>
      refine (arqRecv_of_opened hp).trans (congrArg s.commitArq ?_)
    · rw [recvOpen_of_reset ha hn (by simp) hin, recvResetMsg_terminal hn]
      cases he : msg.e with
      | none =>
        rw [failOnError_of_none he]
        exact closeWith_eq .closed hw
      | some e =>
        rw [failOnError_of_some he, closeWith_failAll _ _ hw]
        exact closeWith_eq (.resetError e) hw
    · rw [recvOpen_of_reset ha hn (fun _ => Option.ne_none_iff_exists'.mpr ⟨c, hc⟩) hin,
        recvResetMsg_level1 hn hc, recvLevel1_eq]
      cases he : msg.e with
      | none => rw [failOnError_of_none he]; rfl
      | some e =>
        rw [failOnError_of_some he, failAll_unfinished, failAll_ev_eq _ hw, failAll_st]
        rfl
  simp only [exec_eq_next_iff]
  exact ⟨heffect defaultParams, heffect⟩

/-- Settles O53: a failed session has nothing queued to start. -/
theorem arqRecvHandshake : Obligations.ArqRecvHandshake := by
  intro s hp a msg now third effect
  have heffect (P : Config.Params) : effect P (fun t => execWith P .arqRecv s = t) := by
    refine ⟨fun ha hin => ⟨fun he => ⟨fun c hn hc => ?_, fun hn => ?_⟩, fun e he hinv => ?_⟩, fun ha hl => ?_⟩
    · have hrecv := (arqRecv_level2 hp ha hn hc hin).trans
        (congrArg (fun x => s.commitArq (recvLevel2 c now x)) (failOnError_of_none he))
      exact ⟨fun hl => hrecv.trans (congrArg s.commitArq (recvLevel2_of_reset c hl)),
        fun hl => hrecv.trans (congrArg s.commitArq (recvLevel2_of_live c hl))⟩
    · have hrecv := (arqRecv_level3 hp ha hn hin).trans
        (congrArg (fun x => s.commitArq (recvLevel3 now x)) (failOnError_of_none he))
      exact ⟨fun hl => hrecv.trans (congrArg s.commitArq (if_pos hl)),
        fun hl => hrecv.trans (congrArg s.commitArq (if_neg hl))⟩
    · intro failed dones
      have hfail : failOnError msg (Acc.start a) = ⟨failed, dones⟩ :=
        (failOnError_of_some he).trans (failAll_eq _ (ArqInv.sendSpan hinv))
      refine ⟨fun c hn hc => ?_, fun hn => ?_⟩
      · have hrecv := (arqRecv_level2 hp ha hn hc hin).trans
          (congrArg (fun x => s.commitArq (recvLevel2 c now x)) hfail)
        exact ⟨fun hl => hrecv.trans (congrArg s.commitArq ((recvLevel2_of_reset c hl).trans (startQueued_of_nil rfl))),
          fun hl => hrecv.trans (congrArg s.commitArq (recvLevel2_of_live c hl))⟩
      · have hrecv := (arqRecv_level3 hp ha hn hin).trans
          (congrArg (fun x => s.commitArq (recvLevel3 now x)) hfail)
        exact ⟨fun hl => hrecv.trans (congrArg s.commitArq ((if_pos hl).trans (startQueued_of_nil rfl))),
          fun hl => hrecv.trans (congrArg s.commitArq (if_neg hl))⟩
    · have hne : s.arq.resetLevel ≠ 0 := by rcases hl with hl | hl <;> rw [hl] <;> decide
      exact (arqRecv_of_opened hp).trans
        (congrArg s.commitArq ((recvOpen_duringReset ha hne).trans (recvDuringReset_eq hl)))
  simp only [exec_eq_next_iff]
  exact ⟨heffect defaultParams, heffect⟩

end Sys2Proof.Settled

/-! The deadlines (R276, R288): what ARQ.NEXT answers, which entry ARQ.TICK retransmits, and that ARQ.TICK acts exactly
from the time ARQ.NEXT answers. -/

namespace Sys2Proof.Machine

/-! ## The deadlines of a session -/

/-- What `R276` takes the minimum of: the deadlines in flight, and that of a pending acknowledgement. -/
theorem mem_deadlines (a : Arq) (d : Nat) :
    d ∈ a.deadlines ↔ (∃ e ∈ a.pend, e.2.deadline = d) ∨ (a.ackPending = true ∧ a.ackDeadline = d) := by
  unfold Arq.deadlines
  split_ifs with h <;> simp [h, eq_comm]

section Next

variable {a : Arq}

theorem nextDeadline_of_not_opened (h : a.phase ≠ .opened) : a.nextDeadline = none := if_pos h

theorem nextDeadline_of_reset (hp : a.phase = .opened) (hl : a.resetLevel ≠ 0) :
    a.nextDeadline = some a.resetDeadline := by simp [Arq.nextDeadline, hp, Arq.inReset, hl]

theorem nextDeadline_of_live (hp : a.phase = .opened) (hl : a.resetLevel = 0) :
    a.nextDeadline = minimumOf a.deadlines := by simp [Arq.nextDeadline, hp, Arq.inReset, hl]

end Next

/-! ## The most overdue entry -/

section Overdue

variable {a : Arq} {now : Nat}

/-- `e` is not retransmitted after `b`: the lesser deadline, then the lesser distance from `send_tail` (R288). -/
def Arq.NoLater (a : Arq) (e b : Nat × PendEntry) : Prop :=
  e.2.deadline < b.2.deadline ∨
    (e.2.deadline = b.2.deadline ∧ fwd a.window e.1 a.sendTail ≤ fwd a.window b.1 a.sendTail)

theorem noLater_refl (a : Arq) (e : Nat × PendEntry) : a.NoLater e e := .inr ⟨rfl, le_rfl⟩

theorem noLater_trans {e b c : Nat × PendEntry} (h : a.NoLater e b) (h' : a.NoLater b c) : a.NoLater e c := by
  unfold Arq.NoLater at *
  omega

/-- An entry that is more overdue goes first, one that is not does not (R288). -/
theorem moreOverdue_spec (e b : Nat × PendEntry) :
    if a.moreOverdue e b = true then a.NoLater e b else a.NoLater b e := by
  split_ifs with h <;>
    simp only [Arq.moreOverdue, Bool.or_eq_true, Bool.and_eq_true, decide_eq_true_eq, beq_iff_eq] at h <;>
    unfold Arq.NoLater <;> omega

/-- One comparison of the search (R288). -/
def Arq.pick (a : Arq) (best : Option (Nat × PendEntry)) (e : Nat × PendEntry) : Option (Nat × PendEntry) :=
  match best with
  | none => some e
  | some b => if a.moreOverdue e b then some e else some b

/-- The search keeps the one that goes first of the entries seen (R288). -/
theorem foldl_pick (l : List (Nat × PendEntry)) (b : Nat × PendEntry) :
    ∃ m ∈ b :: l, l.foldl a.pick (some b) = some m ∧ ∀ e ∈ b :: l, a.NoLater m e := by
  induction l generalizing b with
  | nil => exact ⟨b, List.mem_singleton_self b, rfl, fun e he => List.mem_singleton.mp he ▸ noLater_refl a b⟩
  | cons c l ih =>
    have hspec := moreOverdue_spec (a := a) c b
    rw [List.foldl_cons]
    by_cases h : a.moreOverdue c b = true
    · obtain ⟨m, hm, hfold, hmin⟩ := ih c
      rw [if_pos h] at hspec
      refine ⟨m, List.mem_cons_of_mem _ hm, ?_, fun e he => ?_⟩
      · rw [Arq.pick, if_pos h, hfold]
      · rcases List.mem_cons.mp he with rfl | he
        · exact noLater_trans (hmin c List.mem_cons_self) hspec
        · exact hmin e he
    · obtain ⟨m, hm, hfold, hmin⟩ := ih b
      rw [if_neg h] at hspec
      refine ⟨m, ?_, ?_, fun e he => ?_⟩
      · rcases List.mem_cons.mp hm with rfl | hm
        · exact List.mem_cons_self
        · exact List.mem_cons_of_mem _ (List.mem_cons_of_mem _ hm)
      · rw [Arq.pick, if_neg h, hfold]
      · rcases List.mem_cons.mp he with rfl | he
        · exact hmin e List.mem_cons_self
        · rcases List.mem_cons.mp he with rfl | he
          · exact noLater_trans (hmin b List.mem_cons_self) hspec
          · exact hmin e (List.mem_cons_of_mem _ he)

theorem mostOverdue_eq (a : Arq) (now : Nat) :
    a.mostOverdue now = (a.pend.filter fun e => decide (e.2.deadline ≤ now)).foldl a.pick none := rfl

/-- No deadline has come (R288). -/
theorem mostOverdue_of_early (h : ∀ e ∈ a.pend, now < e.2.deadline) : a.mostOverdue now = none := by
  have hnone : (a.pend.filter fun e => decide (e.2.deadline ≤ now)) = [] := by
    refine List.filter_eq_nil_iff.mpr fun e he => ?_
    rw [decide_eq_true_eq]
    exact Nat.not_le_of_lt (h e he)
  rw [mostOverdue_eq, hnone]
  rfl

/-- Of the entries whose deadline has come, the one that goes first (R288). -/
theorem mostOverdue_of_due (h : ∃ e ∈ a.pend, e.2.deadline ≤ now) :
    ∃ m ∈ a.pend, m.2.deadline ≤ now ∧ a.mostOverdue now = some m ∧
      ∀ e ∈ a.pend, e.2.deadline ≤ now → a.NoLater m e := by
  have hmem (e : Nat × PendEntry) :
      e ∈ (a.pend.filter fun e => decide (e.2.deadline ≤ now)) ↔ e ∈ a.pend ∧ e.2.deadline ≤ now := by
    rw [List.mem_filter, decide_eq_true_eq]
  rw [mostOverdue_eq]
  obtain ⟨d, hd, hdue⟩ := h
  cases hl : a.pend.filter fun e => decide (e.2.deadline ≤ now) with
  | nil => exact absurd ((hmem d).mpr ⟨hd, hdue⟩) (by simp [hl])
  | cons b l =>
    obtain ⟨m, hm, hfold, hmin⟩ := foldl_pick (a := a) l b
    rw [← hl] at hm hmin
    exact ⟨m, ((hmem m).mp hm).1, ((hmem m).mp hm).2, hfold, fun e he hle => hmin e ((hmem e).mpr ⟨he, hle⟩)⟩

end Overdue

/-! ## ARQ.TICK, case by case -/

section Tick

variable {s : State} {x : Acc Arq} {now : Nat}

theorem arqTick_of_opened (h : s.arq.phase = .opened) :
    arqTick s = s.commitArq (tickOpen s.now (Acc.start s.arq)) := if_pos h

theorem arqTick_of_not_opened (h : s.arq.phase ≠ .opened) : arqTick s = s.answer .ok .none [] := if_neg h

/-- Before the deadline of the handshake nothing is sent (R288). -/
theorem tickOpen_reset_early (hl : x.st.resetLevel ≠ 0) (h : now < x.st.resetDeadline) : tickOpen now x = x := by
  rw [tickOpen, if_pos ((inReset_iff _).mpr hl), if_neg (Nat.not_le_of_lt h)]

/-- From it on the reset message of the level is sent, and the deadline set anew (R288). -/
theorem tickOpen_reset_due (hl : x.st.resetLevel ≠ 0) (h : x.st.resetDeadline ≤ now) :
    tickOpen now x =
      (sendReset x.st.resetLevel none x).upd fun a => { a with resetDeadline := now + a.timeout } := by
  rw [tickOpen, if_pos ((inReset_iff _).mpr hl), if_pos h]

/-- The entry that goes first is retransmitted with a new deadline, and its message carries `r` (R264, R288). -/
theorem tickOpen_retransmit (hl : x.st.resetLevel = 0) {q : Nat} {e : PendEntry}
    (h : x.st.mostOverdue now = some (q, e)) :
    tickOpen now x =
      ⟨{ x.st with pend := tableSet x.st.pend q { e with deadline := now + x.st.timeout }, ackPending := false },
        x.ev ++ [.lowerSend { s := q, r := x.st.recvTail, x := x.st.xField, d := some e.payload }]⟩ := by
  rw [tickOpen, if_neg fun hr => (inReset_iff _).mp hr hl, h]
  rfl

/-- With no deadline of a send come, a due acknowledgement is sent (R288). -/
theorem tickOpen_of_early (hl : x.st.resetLevel = 0) (h : ∀ e ∈ x.st.pend, now < e.2.deadline) :
    tickOpen now x =
      if x.st.ackPending = true ∧ x.st.ackDeadline ≤ now then
        ⟨{ x.st with ackPending := false },
          x.ev ++ [.lowerSend { s := x.st.sendHead, r := x.st.recvTail, x := x.st.xField }]⟩
      else x := by
  rw [tickOpen, if_neg fun hr => (inReset_iff _).mp hr hl, mostOverdue_of_early h]
  rfl

/-- At level 0 nothing is sent before the least of the deadlines (R276, R288). -/
theorem tickOpen_live_early (hl : x.st.resetLevel = 0) (h : ∀ d ∈ x.st.deadlines, now < d) : tickOpen now x = x := by
  have hack : ¬ (x.st.ackPending = true ∧ x.st.ackDeadline ≤ now) := fun ⟨hack, hle⟩ =>
    Nat.not_le_of_lt (h _ ((mem_deadlines _ _).mpr (.inr ⟨hack, rfl⟩))) hle
  rw [tickOpen_of_early hl fun e he => h _ ((mem_deadlines _ _).mpr (.inl ⟨e, he, rfl⟩)), if_neg hack]

/-- At level 0 one message is sent from the least of the deadlines on (R276, R288). -/
theorem tickOpen_live_due (hl : x.st.resetLevel = 0) {d : Nat} (hd : d ∈ x.st.deadlines) (h : d ≤ now) :
    ∃ msg, (tickOpen now x).ev = x.ev ++ [.lowerSend msg] := by
  by_cases hdue : ∃ e ∈ x.st.pend, e.2.deadline ≤ now
  · obtain ⟨⟨q, e⟩, -, -, hmost, -⟩ := mostOverdue_of_due hdue
    rw [tickOpen_retransmit hl hmost]
    exact ⟨_, rfl⟩
  · have hearly : ∀ e ∈ x.st.pend, now < e.2.deadline := fun e he => Nat.lt_of_not_le fun hle => hdue ⟨e, he, hle⟩
    rw [tickOpen_of_early hl hearly]
    rcases (mem_deadlines _ _).mp hd with ⟨e, he, rfl⟩ | ⟨hack, rfl⟩
    · exact absurd h (Nat.not_le_of_lt (hearly e he))
    · rw [if_pos ⟨hack, h⟩]
      exact ⟨_, rfl⟩

end Tick

end Sys2Proof.Machine

namespace Sys2Proof.Settled

open Sys2Proof.Machine

/-- Settles O56: the minimum is one of the deadlines and no deadline is below it. -/
theorem arqNext : Obligations.ArqNext := by
  refine ⟨rfl, fun s => ?_⟩
  intro a due
  refine ⟨a.nextDeadline, rfl, nextDeadline_of_not_opened, nextDeadline_of_reset, fun hp hl => ?_⟩
  have hdue (d : Nat) : due d ↔ d ∈ a.deadlines := (mem_deadlines a d).symm
  simp only [hdue, nextDeadline_of_live hp hl]
  refine ⟨?_, fun d hd => minimumOf_spec _ d hd⟩
  rw [minimumOf_eq_none, List.eq_nil_iff_forall_not_mem]

/-- Settles O57: the search over the entries whose deadline has come keeps the one that goes first. -/
theorem arqTick : Obligations.ArqTick := by
  intro s a now
  simp only [exec_eq_next_iff]
  refine ⟨arqTick_of_not_opened, fun hp hl => ?_, fun hp hl => ⟨fun hdue => ?_, fun hearly => ?_⟩⟩
  · have hne : a.resetLevel ≠ 0 := by rcases hl with hl | hl <;> rw [hl] <;> decide
    refine (arqTick_of_opened hp).trans ?_
    by_cases hd : a.resetDeadline ≤ now
    · rw [if_pos hd]
      exact congrArg s.commitArq ((tickOpen_reset_due hne hd).trans
        (congrArg (Acc.upd · _) (sendReset_handshake (x := Acc.start a) none hl)))
    · rw [if_neg hd]
      exact congrArg s.commitArq (tickOpen_reset_early (x := Acc.start a) hne (Nat.lt_of_not_le hd))
  · obtain ⟨⟨q, e⟩, hmem, hle, hmost, hfirst⟩ := mostOverdue_of_due hdue
    exact ⟨q, e, hmem, hle, fun q' e' hmem' hle' => hfirst (q', e') hmem' hle',
      (arqTick_of_opened hp).trans (congrArg s.commitArq (tickOpen_retransmit hl hmost))⟩
  · exact (arqTick_of_opened hp).trans
      ((congrArg s.commitArq (tickOpen_of_early hl hearly)).trans (apply_ite s.commitArq _ _ _))

/-- Settles O58, by the phase and the level: in each ARQ.TICK tests the deadline that ARQ.NEXT answers. -/
theorem tickAgreesWithNext : Obligations.TickAgreesWithNext := by
  intro s o ho
  obtain rfl : s.arq.nextDeadline = o := by
    simpa [Machine.arqNext] using ho
  simp only [exec_eq_next_iff]
  by_cases hp : s.arq.phase = .opened
  · have htick := arqTick_of_opened hp
    have hquiet (h : tickOpen s.now (Acc.start s.arq) = Acc.start s.arq) :
        Machine.arqTick s = s.answer .ok .none [] := htick.trans (congrArg s.commitArq h)
    have hsends {msg : ArqMsg} (h : (tickOpen s.now (Acc.start s.arq)).ev = [.lowerSend msg]) :
        ∃ t msg, Machine.arqTick s = t ∧ t.events = [.lowerSend msg] := ⟨_, msg, htick, h⟩
    by_cases hl : s.arq.resetLevel = 0
    · rw [nextDeadline_of_live hp hl]
      refine ⟨fun hnone => hquiet (tickOpen_live_early hl ?_), fun d hd hlt => hquiet (tickOpen_live_early hl ?_),
        fun d hd hle => ?_⟩
      · rw [acc_start_st, (minimumOf_eq_none _).mp hnone]
        exact nofun
      · exact fun d' hd' => Nat.lt_of_lt_of_le hlt ((minimumOf_spec _ _ hd).2 d' hd')
      · obtain ⟨msg, hev⟩ := tickOpen_live_due (x := Acc.start s.arq) hl (minimumOf_spec _ _ hd).1 hle
        exact hsends hev
    · rw [nextDeadline_of_reset hp hl]
      refine ⟨nofun, ?_, ?_⟩ <;> rintro d ⟨⟩ hd
      · exact hquiet (tickOpen_reset_early hl hd)
      · exact hsends (congrArg Acc.ev (tickOpen_reset_due (x := Acc.start s.arq) hl hd))
  · rw [nextDeadline_of_not_opened hp]
    exact ⟨fun _ => arqTick_of_not_opened hp, nofun, nofun⟩

end Sys2Proof.Settled

/-! `StartQueued` (R266, R267): it allocates the oldest queued sends, as many as there are free places in the window. What
a run of allocations leaves and emits. -/

namespace Sys2Proof.Machine

/-- The allocation of a list of sends, in order (R266). -/
def allocAll (now : Nat) (ps : List Queued) (x : Acc Arq) : Acc Arq :=
  ps.foldl (fun y p => alloc p.payload p.handle now y) x

/-- How many queued sends find a free place in the window (R266, R267). -/
def Arq.startable (a : Arq) : Nat := min a.sendq.length (a.half - a.inflight)

/-- The data messages that a run of allocations emits (R264, R266). -/
def Arq.dataMsgs (a : Arq) (ps : List Queued) : List ArqMsg :=
  ps.mapIdx fun i p =>
    { s := ((a.sendHead + i) % a.window : Nat), r := a.recvTail, x := a.xField, d := some p.payload }

section Allocations

variable {x : Acc Arq} {now : Nat}

theorem allocAll_cons (p : Queued) (ps : List Queued) :
    allocAll now (p :: ps) x = allocAll now ps (alloc p.payload p.handle now x) := rfl

/-- One step of the head on the way to the end of the run. -/
theorem head_add (head i W : Nat) : ((head + 1) % W + i) % W = (head + (i + 1)) % W := by
  rw [Nat.mod_add_mod, Nat.add_right_comm, Nat.add_assoc]

/-- A run of allocations moves the head by its length, writes `pend`, and clears `ack_pending` unless it is empty
(R264, R266). -/
theorem allocAll_st (ps : List Queued) (hhead : x.st.sendHead < x.st.window) :
    (allocAll now ps x).st =
      { x.st with sendHead := (x.st.sendHead + ps.length) % x.st.window, pend := (allocAll now ps x).st.pend,
                  ackPending := if ps = [] then x.st.ackPending else false } := by
  induction ps generalizing x with
  | nil =>
    obtain ⟨a, ev⟩ := x
    rw [if_pos rfl, List.length_nil, Nat.add_zero, Nat.mod_eq_of_lt hhead]
    rfl
  | cons p ps ih =>
    rw [allocAll_cons, ih (Nat.mod_lt _ (Nat.zero_lt_of_lt hhead))]
    simp only [alloc_eq, head_add, List.length_cons, ite_self, reduceCtorEq, if_false]

/-- The first message of a run, and those of the run that starts behind it. -/
theorem dataMsgs_cons (a : Arq) (p : Queued) (ps : List Queued) (hhead : a.sendHead < a.window) (pend : Table PendEntry)
    (acked : Bool) :
    a.dataMsgs (p :: ps) =
      { s := a.sendHead, r := a.recvTail, x := a.xField, d := some p.payload } ::
        Arq.dataMsgs { a with pend := pend, sendHead := (a.sendHead + 1) % a.window, ackPending := acked } ps := by
  simp only [Arq.dataMsgs, List.mapIdx_cons, Nat.add_zero, Nat.mod_eq_of_lt hhead, head_add]
  rfl

/-- A run of allocations emits its data messages, in order, and nothing else (R264, R266). -/
theorem allocAll_ev (ps : List Queued) (hhead : x.st.sendHead < x.st.window) :
    (allocAll now ps x).ev = x.ev ++ (x.st.dataMsgs ps).map .lowerSend := by
  induction ps generalizing x with
  | nil => exact (List.append_nil _).symm
  | cons p ps ih =>
    rw [allocAll_cons, ih (Nat.mod_lt _ (Nat.zero_lt_of_lt hhead)), alloc_eq, dataMsgs_cons _ p ps hhead _ false,
      List.map_cons, List.append_assoc]
    rfl

/-- A run no longer than the window writes an entry at each of its sequence numbers, and no other (R266). -/
theorem allocAll_pend (ps : List Queued) (hhead : x.st.sendHead < x.st.window) (hlen : ps.length ≤ x.st.window)
    (hwf : TableWf x.st.pend) :
    (∀ i p, ps[i]? = some p → tableGet (allocAll now ps x).st.pend ((x.st.sendHead + i) % x.st.window) =
      some ⟨p.payload, now + x.st.timeout, p.handle⟩) ∧
    ∀ q, (∀ i, i < ps.length → q ≠ (x.st.sendHead + i) % x.st.window) →
      tableGet (allocAll now ps x).st.pend q = tableGet x.st.pend q := by
  induction ps generalizing x with
  | nil => exact ⟨nofun, fun _ _ => rfl⟩
  | cons p ps ih =>
    rw [List.length_cons] at hlen
    have hhead' : (alloc p.payload p.handle now x).st.sendHead < x.st.window := Nat.mod_lt _ (Nat.zero_lt_of_lt hhead)
    obtain ⟨hin, hout⟩ := ih (x := alloc p.payload p.handle now x) hhead' (Nat.le_of_succ_le hlen)
      (tableSet_wf _ _ _ hwf)
    have hstep (i : Nat) : ((alloc p.payload p.handle now x).st.sendHead + i) % x.st.window =
        (x.st.sendHead + (i + 1)) % x.st.window := head_add _ _ _
    have hget (q : Nat) : tableGet (alloc p.payload p.handle now x).st.pend q =
        if q = x.st.sendHead then some ⟨p.payload, now + x.st.timeout, p.handle⟩ else tableGet x.st.pend q :=
      tableGet_set _ _ _ _ hwf
    have hfresh : ∀ i, i < ps.length → x.st.sendHead ≠ (x.st.sendHead + (i + 1)) % x.st.window := by
      intro i hi heq
      have hfwd := fwd_of_add x.st.window x.st.sendHead (i + 1) (by omega)
      rw [← heq, fwd_self] at hfwd
      omega
    refine ⟨fun i r hr => ?_, fun q hq => ?_⟩
    · cases i with
      | zero =>
        cases hr
        rw [Nat.add_zero, Nat.mod_eq_of_lt hhead, allocAll_cons, hout _ fun i hi => (hstep i).symm ▸ hfresh i hi, hget,
          if_pos rfl]
      | succ i =>
        rw [← hstep]
        exact hin i r hr
    · have hne : q ≠ x.st.sendHead := by
        have := hq 0 (Nat.succ_pos _)
        rwa [Nat.add_zero, Nat.mod_eq_of_lt hhead] at this
      rw [allocAll_cons, hout q fun i hi => (hstep i).symm ▸ hq (i + 1) (Nat.succ_lt_succ hi), hget, if_neg hne]

/-- The loop of `StartQueued` allocates the front of the queue, up to the free places of the window (R267). -/
theorem startFrom_eq (queue : List Queued) (hhead : x.st.sendHead < x.st.window) (htail : x.st.sendTail < x.st.window)
    (hl : x.st.resetLevel = 0) (hq : x.st.sendq = queue) :
    startFrom now queue x =
      allocAll now (queue.take (min queue.length (x.st.half - x.st.inflight)))
        (x.upd fun a => { a with sendq := queue.drop (min queue.length (x.st.half - x.st.inflight)) }) := by
  induction queue generalizing x with
  | nil =>
    obtain ⟨a, ev⟩ := x
    cases a
    cases hq
    rfl
  | cons p rest ih =>
    unfold startFrom
    split
    case isTrue hc =>
      have hspace : x.st.inflight < x.st.window / 2 := (hasSpace_iff _).mp hc.2
      have hnext : (alloc p.payload p.handle now (x.upd fun a => { a with sendq := rest })).st.inflight =
          x.st.inflight + 1 :=
        fwd_succ_left x.st.window x.st.sendHead x.st.sendTail hhead htail (by show x.st.inflight + 1 < _; omega)
      have hrest := ih (x := alloc p.payload p.handle now (x.upd fun a => { a with sendq := rest }))
        (Nat.mod_lt _ (Nat.zero_lt_of_lt hhead)) htail hl rfl
      have hcount : min (p :: rest).length (x.st.half - x.st.inflight) =
          min rest.length (x.st.half - (x.st.inflight + 1)) + 1 := by
        rw [List.length_cons, show x.st.half = x.st.window / 2 from rfl]
        omega
      rw [hrest, hnext, hcount, List.take_succ_cons, List.drop_succ_cons, allocAll_cons]
      rfl
    case isFalse hc =>
      have hfull : ¬ x.st.inflight < x.st.window / 2 := fun h => hc ⟨hl, (hasSpace_iff _).mpr h⟩
      have hcount : min (p :: rest).length (x.st.half - x.st.inflight) = 0 := by
        rw [show x.st.half = x.st.window / 2 from rfl]
        omega
      rw [hcount, List.take_zero, List.drop_zero, ← hq]
      rfl

/-- `StartQueued` at level 0 allocates the oldest queued sends, as many as have a free place (R267). -/
theorem startQueued_eq (hhead : x.st.sendHead < x.st.window) (htail : x.st.sendTail < x.st.window)
    (hl : x.st.resetLevel = 0) :
    startQueued now x =
      allocAll now (x.st.sendq.take x.st.startable)
        (x.upd fun a => { a with sendq := x.st.sendq.drop x.st.startable }) :=
  startFrom_eq _ hhead htail hl rfl

/-- With no free place, or nothing queued, `StartQueued` does nothing (R267). -/
theorem startQueued_of_zero (hhead : x.st.sendHead < x.st.window) (htail : x.st.sendTail < x.st.window)
    (hl : x.st.resetLevel = 0) (hn : x.st.startable = 0) : startQueued now x = x := by
  rw [startQueued_eq hhead htail hl, hn]
  rfl

/-- Otherwise the queue gets shorter, and the messages of the sends started carry `r` and data (R264, R267). -/
theorem startQueued_of_pos (hhead : x.st.sendHead < x.st.window) (htail : x.st.sendTail < x.st.window)
    (hl : x.st.resetLevel = 0) (hn : x.st.startable ≠ 0) :
    (startQueued now x).st.sendq ≠ x.st.sendq ∧ (startQueued now x).st.ackPending = false ∧
      ∃ msgs : List ArqMsg, msgs ≠ [] ∧ (∀ msg ∈ msgs, msg.d ≠ none) ∧
        (startQueued now x).ev = x.ev ++ msgs.map .lowerSend := by
  have hle : x.st.startable ≤ x.st.sendq.length := Nat.min_le_left _ _
  have hlen : (x.st.sendq.take x.st.startable).length = x.st.startable := List.length_take_of_le hle
  have hne : x.st.sendq.take x.st.startable ≠ [] := fun he => hn (by rw [← hlen, he, List.length_nil])
  have hhead' : (x.upd fun a => { a with sendq := x.st.sendq.drop x.st.startable }).st.sendHead < x.st.window := hhead
  rw [startQueued_eq hhead htail hl, allocAll_st _ hhead', if_neg hne, allocAll_ev _ hhead']
  refine ⟨fun he => ?_, rfl, _, ?_, fun msg hmsg => ?_, rfl⟩
  · have hdrop : x.st.sendq.drop x.st.startable = x.st.sendq := he
    have hshort := congrArg List.length hdrop
    rw [List.length_drop] at hshort
    omega
  · intro he
    have hnone := congrArg List.length he
    rw [Arq.dataMsgs, List.length_mapIdx, hlen] at hnone
    exact hn hnone
  · obtain ⟨i, hi, rfl⟩ := List.mem_mapIdx.mp hmsg
    exact Option.some_ne_none _

end Allocations

end Sys2Proof.Machine

namespace Sys2Proof.Settled

open Sys2Proof.Machine

/-- Settles O50: `StartQueued` is a run of allocations, and the run fits in half the window. -/
theorem startQueuedFillsWindow : Obligations.StartQueuedFillsWindow := by
  intro P now a hr hwf hin hl n x
  obtain ⟨-, -, -, hhead, htail, -⟩ := hr
  have hx : x = allocAll now (a.sendq.take n) ⟨{ a with sendq := a.sendq.drop n }, []⟩ :=
    startQueued_eq (x := Acc.start a) hhead htail hl
  have hlen : (a.sendq.take n).length = n := List.length_take_of_le (Nat.min_le_left _ _)
  have hfits : n ≤ a.window := by
    have : a.half = a.window / 2 := rfl
    omega
  have hempty : a.sendq.take n = [] ↔ n = 0 := by rw [← List.length_eq_zero_iff, hlen]
  obtain ⟨hget, hkeep⟩ := allocAll_pend (now := now) (x := ⟨{ a with sendq := a.sendq.drop n }, []⟩) (a.sendq.take n)
    hhead (hlen.trans_le hfits) hwf
  rw [hlen, ← hx] at hkeep
  rw [← hx] at hget
  refine ⟨?_, fun i p hi hp => hget i p ?_, hkeep, ?_⟩
  · have hst := allocAll_st (now := now) (x := ⟨{ a with sendq := a.sendq.drop n }, []⟩) (a.sendq.take n) hhead
    rw [← hx, hlen] at hst
    simpa only [hempty] using hst
  · rw [List.getElem?_take_of_lt hi, hp]
  · rw [hx, allocAll_ev _ hhead, Arq.dataMsgs, List.mapIdx_eq_zipIdx_map, List.mapIdx_eq_zipIdx_map, List.map_map]
    rfl

end Sys2Proof.Settled

/-! A normal message at level 0 (R280 to R287): the sends its `r` and `x` complete, what its data does to the receiving
side, and the acknowledgement at its end. -/

namespace Sys2Proof.Machine

/-! ## The completions of `r` and `x` -/

/-- Filtering and dropping repetitions commute. -/
theorem eraseDups_filter (p : Nat → Bool) (l : List Nat) : (l.filter p).eraseDups = l.eraseDups.filter p := by
  induction hn : l.length using Nat.strong_induction_on generalizing l with
  | _ n ih =>
    cases l with
    | nil => rfl
    | cons a l =>
      have hrest := ih _ (by rw [← hn, List.length_cons]; exact Nat.lt_succ_of_le (List.length_filter_le _ _))
        (l.filter fun b => !b == a) rfl
      rw [List.filter_comm] at hrest
      rw [List.eraseDups_cons]
      by_cases ha : p a = true
      · rw [List.filter_cons_of_pos ha, List.filter_cons_of_pos ha, List.eraseDups_cons, hrest]
      · have hsame : (l.filter p).filter (fun b => !b == a) = l.filter p :=
          List.filter_eq_self.mpr fun b hb => by
            have hne : b ≠ a := fun he => ha (he ▸ (List.mem_filter.mp hb).2)
            simp [hne]
        rw [List.filter_cons_of_neg ha, List.filter_cons_of_neg ha, ← hrest, hsame]

section Completions

variable {x : Acc Arq}

/-- The completion of the send at `q`, where it is in flight (R265). -/
def Arq.completion (a : Arq) (res : Completion) (q : Nat) : Option Event :=
  (tableGet a.pend q).map fun e => .sendDone e.handle res

/-- A list of releases completes each of its sends once, in the order of the list (R265, R283). -/
theorem releaseAll_ev_eraseDups (res : Completion) (qs : List Nat) (x : Acc Arq) :
    (releaseAll res qs x).ev = x.ev ++ qs.eraseDups.filterMap (x.st.completion res) := by
  induction qs generalizing x with
  | nil => exact (List.append_nil _).symm
  | cons q qs ih =>
    have hrest : qs.eraseDups.filterMap ((release res x q).st.completion res) =
        (qs.filter fun b => !b == q).eraseDups.filterMap (x.st.completion res) := by
      rw [eraseDups_filter, List.filterMap_filter]
      refine List.filterMap_congr fun p _ => ?_
      rw [Arq.completion, release_st, tableGet_erase]
      by_cases hp : p = q <;> simp [hp, Arq.completion]
    have hstep : releaseAll res (q :: qs) x = releaseAll res qs (release res x q) := rfl
    rw [hstep, ih, hrest, List.eraseDups_cons, List.filterMap_cons]
    rcases release_cases res x q with ⟨hg, he⟩ | ⟨e, hg, he⟩ <;> rw [he] <;> simp [Arq.completion, hg]

/-- Only sends complete on a release (R265). -/
theorem releaseAll_ev_handles (res : Completion) (qs : List Nat) (x : Acc Arq) :
    ∃ handles : List U16, (releaseAll res qs x).ev = x.ev ++ handles.map (.sendDone · res) := by
  refine ⟨qs.eraseDups.filterMap fun q => (tableGet x.st.pend q).map PendEntry.handle, ?_⟩
  rw [releaseAll_ev_eraseDups, List.map_filterMap]
  simp only [Option.map_map]
  rfl

end Completions

/-! ## The sending side after `r` and `x` -/

section Acknowledged

variable {x : Acc Arq} {r : Nat} {xs : List Nat}

/-- `send_tail` after `r` (R281). -/
def Arq.ackTail (a : Arq) (r : Nat) : Nat := if fwd a.window r a.sendTail ≤ a.inflight then r else a.sendTail

/-- The sends in flight after `r` (R281). -/
def Arq.ackLeft (a : Arq) (r : Nat) : Nat :=
  if fwd a.window r a.sendTail ≤ a.inflight then a.inflight - fwd a.window r a.sendTail else a.inflight

/-- `q` is covered by `r`: in flight before it (R281). -/
def Arq.Covered (a : Arq) (r q : Nat) : Prop :=
  fwd a.window r a.sendTail ≤ a.inflight ∧ q < a.window ∧ fwd a.window q a.sendTail < fwd a.window r a.sendTail

/-- `q` is in flight after `r` (R283). -/
def Arq.InFlightAfter (a : Arq) (r q : Nat) : Prop := fwd a.window q (a.ackTail r) < a.ackLeft r

theorem processAck_frame (r : Nat) (x : Acc Arq) :
    (processAck r x).st = { x.st with sendTail := x.st.ackTail r, pend := (processAck r x).st.pend } := by
  rw [processAck_st, Arq.ackTail]
  split_ifs <;> rfl

/-- The acknowledgements write `send_tail` and `pend` alone (R281, R283). -/
theorem acknowledged_frame (r : Nat) (xs : List Nat) (x : Acc Arq) :
    (processX xs (processAck r x)).st =
      { x.st with sendTail := x.st.ackTail r, pend := (processX xs (processAck r x)).st.pend } := by
  rw [processX_eq, releaseAll_st, processAck_frame]

/-- What is left in flight is the distance from the new tail to the head (R38, R281). -/
theorem processAck_inflight (h : SendSpan x.st) (hr : r < x.st.window) :
    (processAck r x).st.inflight = x.st.ackLeft r := by
  rw [processAck_frame]
  show fwd x.st.window x.st.sendHead (x.st.ackTail r) = _
  unfold Arq.ackTail Arq.ackLeft
  split_ifs with hin
  · exact fwd_sub _ _ _ _ h.head_lt hr h.tail_lt hin
  · rfl

/-- The covered sends have left `pend`, the others are as they were (R281). -/
theorem processAck_pend (h : SendSpan x.st) (r q : Nat) :
    (x.st.Covered r q → tableGet (processAck r x).st.pend q = none) ∧
    (¬ x.st.Covered r q → tableGet (processAck r x).st.pend q = tableGet x.st.pend q) := by
  have hle : fwd x.st.window r x.st.sendTail ≤ x.st.window := (fwd_lt _ _ _ (Nat.zero_lt_of_lt h.head_lt)).le
  have hcovered := mem_fromTail x.st _ q hle h.tail_lt
  rw [processAck_st]
  by_cases hin : fwd x.st.window r x.st.sendTail ≤ x.st.inflight
  · rw [if_pos hin, tableGet_foldl_erase]
    exact ⟨fun hq => if_pos (hcovered.mpr hq.2), fun hq => if_neg fun hmem => hq ⟨hin, hcovered.mp hmem⟩⟩
  · rw [if_neg hin]
    exact ⟨fun hq => absurd hq.1 hin, fun _ => rfl⟩

/-- A send still in flight after `r` is not covered by it (R38). -/
theorem not_covered_of_inFlightAfter (h : SendSpan x.st) (hr : r < x.st.window)
    {q : Nat} (hq : x.st.InFlightAfter r q) : ¬ x.st.Covered r q := by
  rintro ⟨hin, hlt, hshort⟩
  have hspan := h.head_lt
  have htail := h.tail_lt
  unfold Arq.InFlightAfter Arq.ackTail Arq.ackLeft at hq
  rw [if_pos hin, if_pos hin] at hq
  have hhead : x.st.inflight < x.st.window := fwd_lt _ _ _ (Nat.zero_lt_of_lt hr)
  rw [fwd_eq _ _ _ hlt htail, fwd_eq _ _ _ hr htail] at hshort
  rw [fwd_eq _ _ _ hlt hr, fwd_eq _ _ _ hr htail] at hq
  split_ifs at hshort hq <;> omega

/-- The sends that `x` names are those of its entries that are in flight after `r` (R283). -/
theorem processX_processAck_eq (h : SendSpan x.st) (hr : r < x.st.window) :
    processX xs (processAck r x) =
      releaseAll .ok (xs.filter fun q => decide (fwd x.st.window q (x.st.ackTail r) < x.st.ackLeft r))
        (processAck r x) := by
  rw [processX_eq, processAck_inflight h hr, processAck_frame]

/-- The sends that `r` covers or `x` names have left `pend`, the others are as they were (R281, R283). -/
theorem acknowledged_pend (h : SendSpan x.st) (hr : r < x.st.window) (q : Nat) :
    ((x.st.Covered r q ∨ (q ∈ xs ∧ x.st.InFlightAfter r q)) →
      tableGet (processX xs (processAck r x)).st.pend q = none) ∧
    (¬ (x.st.Covered r q ∨ (q ∈ xs ∧ x.st.InFlightAfter r q)) →
      tableGet (processX xs (processAck r x)).st.pend q = tableGet x.st.pend q) := by
  have hnamed : (q ∈ xs.filter fun q => decide (fwd x.st.window q (x.st.ackTail r) < x.st.ackLeft r)) ↔
      q ∈ xs ∧ x.st.InFlightAfter r q := by
    rw [List.mem_filter, decide_eq_true_eq, Arq.InFlightAfter]
  obtain ⟨hcovered, hkept⟩ := processAck_pend h r q
  rw [processX_processAck_eq h hr, releaseAll_st, tableGet_foldl_erase]
  constructor
  · rintro (hc | hn)
    · rw [hcovered hc, ite_self]
    · rw [if_pos (hnamed.mpr hn)]
  · intro hno
    obtain ⟨hc, hn⟩ := not_or.mp hno
    rw [if_neg (mt hnamed.mp hn), hkept hc]

theorem acknowledged_wf (r : Nat) (xs : List Nat) (h : TableWf x.st.pend) :
    TableWf (processX xs (processAck r x)).st.pend := by
  rw [processX_eq, releaseAll_st, processAck_st]
  split_ifs
  · exact foldl_erase_wf _ _ (foldl_erase_wf _ _ h)
  · exact foldl_erase_wf _ _ h

/-- The completions of `r`, in sequence order, then those of `x`, each once, in list order (R281, R283). -/
theorem acknowledged_ev (h : SendSpan x.st) (hr : r < x.st.window) :
    (processX xs (processAck r x)).ev =
      x.ev ++
        ((if fwd x.st.window r x.st.sendTail ≤ x.st.inflight then
            (List.range (fwd x.st.window r x.st.sendTail)).filterMap fun i =>
              x.st.completion .ok ((x.st.sendTail + i) % x.st.window)
          else []) ++
        (xs.eraseDups.filter fun q => decide (fwd x.st.window q (x.st.ackTail r) < x.st.ackLeft r)).filterMap
          (x.st.completion .ok)) := by
  have hack : (processAck r x).ev = x.ev ++
      if fwd x.st.window r x.st.sendTail ≤ x.st.inflight then
        (List.range (fwd x.st.window r x.st.sendTail)).filterMap fun i =>
          x.st.completion .ok ((x.st.sendTail + i) % x.st.window)
      else [] := by
    unfold processAck
    split_ifs with hin
    · rw [acc_upd_ev, releaseAll_ev _ _ _ (fromTail_nodup _ _ (fwd_lt _ _ _ (Nat.zero_lt_of_lt hr)).le), Arq.fromTail,
        List.filterMap_map]
      rfl
    · exact (List.append_nil _).symm
  have hsame : ∀ q ∈ xs.eraseDups.filter fun q => decide (fwd x.st.window q (x.st.ackTail r) < x.st.ackLeft r),
      (processAck r x).st.completion .ok q = x.st.completion .ok q := by
    intro q hq
    have hin : x.st.InFlightAfter r q := by
      simpa only [decide_eq_true_eq, Arq.InFlightAfter] using (List.mem_filter.mp hq).2
    rw [Arq.completion, (processAck_pend h r q).2 (not_covered_of_inFlightAfter h hr hin), Arq.completion]
  rw [processX_processAck_eq h hr, releaseAll_ev_eraseDups, eraseDups_filter, List.filterMap_congr hsame, hack,
    List.append_assoc]

theorem acknowledged_ev_handles (r : Nat) (xs : List Nat) (x : Acc Arq) :
    ∃ handles : List U16, (processX xs (processAck r x)).ev = x.ev ++ handles.map (.sendDone · .ok) := by
  rw [processX_eq]
  obtain ⟨late, hlate⟩ := releaseAll_ev_handles .ok (xs.filter fun q => decide (fwd (processAck r x).st.window q
    (processAck r x).st.sendTail < (processAck r x).st.inflight)) (processAck r x)
  have hack : ∃ early : List U16, (processAck r x).ev = x.ev ++ early.map (.sendDone · .ok) := by
    unfold processAck
    split_ifs
    · exact releaseAll_ev_handles _ _ _
    · exact ⟨[], (List.append_nil _).symm⟩
  obtain ⟨early, hearly⟩ := hack
  exact ⟨early ++ late, by rw [hlate, hearly, List.map_append, List.append_assoc]⟩

end Acknowledged

/-! ## The receiving side -/

section Delivered

variable {x : Acc Arq}

/-- The receiving side is a span (R38, R39 (b)). -/
abbrev RecvSpan (a : Arq) : Prop := SpanInv a.window a.recvHead a.recvTail a.oor

theorem ArqInv.recvSpan {P : Config.Params} {a : Arq} (h : ArqInv P a) : RecvSpan a := by
  obtain ⟨⟨-, -, -, -, -, hhead, htail, -⟩, ⟨-, hspan⟩, -, ⟨hwf, hmem⟩, -⟩ := h
  exact ⟨hhead, htail, hspan, hwf, fun e he => ⟨(hmem e he).1, (hmem e he).2.2⟩⟩

/-- From `x` to `y` the `payloads` have been handed over, which stood in `oor` from `recv_tail` on, and `recv_tail` has
moved behind them (R285). -/
structure Drained (x y : Acc Arq) (payloads : List Bytes) : Prop where
  ev : y.ev = x.ev ++ payloads.map .dispatch
  tail : y.st.recvTail = (x.st.recvTail + payloads.length) % x.st.window
  held : ∀ i p, payloads[i]? = some p → tableGet x.st.oor ((x.st.recvTail + i) % x.st.window) = some p
  left : ∀ q, tableGet y.st.oor q =
    if ∃ i, i < payloads.length ∧ q = (x.st.recvTail + i) % x.st.window then none else tableGet x.st.oor q

theorem Drained.refl (ht : x.st.recvTail < x.st.window) : Drained x x [] where
  ev := (List.append_nil _).symm
  tail := (Nat.mod_eq_of_lt ht).symm
  held := nofun
  left _ := (if_neg fun ⟨_, hi, _⟩ => Nat.not_lt_zero _ hi).symm

/-- One round of `Drain` (R285). -/
def drainStep (payload : Bytes) (x : Acc Arq) : Acc Arq :=
  (x.emit (.dispatch payload)).upd fun a =>
    { a with oor := tableErase a.oor a.recvTail, recvTail := a.nextSeq a.recvTail }

theorem Drained.cons {y : Acc Arq} {payload : Bytes} {payloads : List Bytes} (ht : x.st.recvTail < x.st.window)
    (hget : tableGet x.st.oor x.st.recvTail = some payload) (h : Drained (drainStep payload x) y payloads) :
    Drained x y (payload :: payloads) := by
  have hplace (i : Nat) : ((drainStep payload x).st.recvTail + i) % (drainStep payload x).st.window =
      (x.st.recvTail + (i + 1)) % x.st.window := head_add _ _ _
  have herase (q : Nat) : tableGet (drainStep payload x).st.oor q =
      if q = x.st.recvTail then none else tableGet x.st.oor q := tableGet_erase _ _ _
  have hfirst : (x.st.recvTail + 0) % x.st.window = x.st.recvTail := Nat.mod_eq_of_lt ht
  refine ⟨?_, h.tail.trans (hplace _), fun i p hp => ?_, fun q => ?_⟩
  · rw [h.ev, List.map_cons, ← List.singleton_append, ← List.append_assoc]
    rfl
  · cases i with
    | zero =>
      cases hp
      rw [hfirst, hget]
    | succ i =>
      have hheld := h.held i p hp
      rw [hplace, herase] at hheld
      split_ifs at hheld
      exact hheld
  · rw [h.left, herase]
    simp only [hplace, List.length_cons]
    by_cases hq : q = x.st.recvTail
    · rw [if_pos hq, ite_self, if_pos ⟨0, Nat.succ_pos _, hq.trans hfirst.symm⟩]
    · rw [if_neg hq]
      refine if_congr ⟨fun ⟨i, hi, he⟩ => ⟨i + 1, Nat.succ_lt_succ hi, he⟩, fun ⟨i, hi, he⟩ => ?_⟩ rfl rfl
      cases i with
      | zero => exact absurd (he.trans hfirst) hq
      | succ i => exact ⟨i, Nat.lt_of_succ_lt_succ hi, he⟩

/-- `Drain` hands over what stands in `oor` from `recv_tail` on (R285). -/
theorem drainFor_drained (n : Nat) (ht : x.st.recvTail < x.st.window) :
    ∃ payloads, Drained x (drainFor n x) payloads := by
  induction n generalizing x with
  | zero => exact ⟨[], .refl ht⟩
  | succ n ih =>
    unfold drainFor
    split
    · exact ⟨[], .refl ht⟩
    · rename_i payload hget
      obtain ⟨payloads, h⟩ := ih (x := drainStep payload x) (Nat.mod_lt _ (Nat.zero_lt_of_lt ht))
      exact ⟨payload :: payloads, h.cons ht hget⟩

/-- What `oor` reads once the payload `d` is buffered at `q` (R284). -/
def Arq.bufferedAt (a : Arq) (q : Nat) (d : Bytes) (p : Nat) : Option Bytes :=
  if p = q ∧ tableGet a.oor q = none then some d else tableGet a.oor p

theorem buffer_oor {a : Arq} (hwf : TableWf a.oor) (q : Nat) (d : Bytes) (p : Nat) :
    tableGet (a.buffer q d).oor p = a.bufferedAt q d p := by
  show tableGet (if (tableGet a.oor q).isNone then tableSet a.oor q d else a.oor) p = _
  unfold Arq.bufferedAt
  cases hq : tableGet a.oor q with
  | none =>
    rw [Option.isNone_none, if_pos rfl, tableGet_set _ _ _ _ hwf]
    simp only [and_true]
  | some v => simp

/-- What `AcceptData` does to the receiving side inside the forward half of the window: the payloads up to the first gap
are dispatched (R284, R285). -/
structure Accepted (a : Arq) (q : Nat) (d : Bytes) (b : Arq) (payloads : List Bytes) : Prop where
  head : b.recvHead = if a.rspan ≤ fwd a.window q a.recvTail then (q + 1) % a.window else a.recvHead
  count : payloads.length ≤ a.half
  tail : b.recvTail = (a.recvTail + payloads.length) % a.window
  held : payloads.map some =
    (List.range payloads.length).map fun i => a.bufferedAt q d ((a.recvTail + i) % a.window)
  gap : a.bufferedAt q d b.recvTail = none
  left : ∀ p, tableGet b.oor p =
    if ∃ i, i < payloads.length ∧ p = (a.recvTail + i) % a.window then none else a.bufferedAt q d p

/-- `AcceptData` writes the receiving side alone (R284). -/
theorem acceptData_frame (q : Nat) (d : Bytes) (x : Acc Arq) :
    (acceptData q d x).st =
      { x.st with oor := (acceptData q d x).st.oor, recvHead := (acceptData q d x).st.recvHead,
                  recvTail := (acceptData q d x).st.recvTail } := by
  unfold acceptData
  split
  · unfold drain
    rw [drainFor_frame]
    rfl
  · rfl

theorem acceptData_outside {q : Nat} {d : Bytes} (hk : x.st.half ≤ fwd x.st.window q x.st.recvTail) :
    acceptData q d x = x := if_neg (Nat.not_lt_of_le hk)

theorem acceptData_inside {q : Nat} {d : Bytes}
    (h : RecvSpan x.st)
    (hk : fwd x.st.window q x.st.recvTail < x.st.half) :
    ∃ payloads, (acceptData q d x).ev = x.ev ++ payloads.map .dispatch ∧
      Accepted x.st q d (acceptData q d x).st payloads := by
  have ht := h.tail_lt
  have hhalf : x.st.half = x.st.window / 2 := rfl
  have hread := buffer_oor h.wf q d
  have hdrain : acceptData q d x = drainFor (x.st.buffer q d).oor.length (x.upd fun a => a.buffer q d) := if_pos hk
  have hstop := drainFor_stop _ (x.upd fun a => a.buffer q d) (Nat.le_refl (x.st.buffer q d).oor.length)
  obtain ⟨payloads, hdrained⟩ := drainFor_drained (x := x.upd fun a => a.buffer q d) (x.st.buffer q d).oor.length ht
  have hhead := congrArg Arq.recvHead (drainFor_frame (x.st.buffer q d).oor.length (x.upd fun a => a.buffer q d))
  rw [← hdrain] at hstop hdrained hhead
  have htail : (acceptData q d x).st.recvTail = (x.st.recvTail + payloads.length) % x.st.window := hdrained.tail
  have hheld (i : Nat) (p : Bytes) (hp : payloads[i]? = some p) :
      x.st.bufferedAt q d ((x.st.recvTail + i) % x.st.window) = some p := (hread _).symm.trans (hdrained.held i p hp)
  have hleft (p : Nat) : tableGet (acceptData q d x).st.oor p =
      if ∃ i, i < payloads.length ∧ p = (x.st.recvTail + i) % x.st.window then none else x.st.bufferedAt q d p := by
    rw [← hread]
    exact hdrained.left p
  have hnear (p : Nat) (v : Bytes) (hp : x.st.bufferedAt q d p = some v) :
      fwd x.st.window p x.st.recvTail < x.st.half := by
    unfold Arq.bufferedAt at hp
    split_ifs at hp with hc
    · exact hc.1 ▸ hk
    · exact Nat.lt_of_lt_of_le (h.mem _ (mem_of_tableGet _ _ _ hp)).2 h.span_le
  have hcount : payloads.length ≤ x.st.half := by
    by_contra hlong
    have hlt : x.st.half < payloads.length := Nat.lt_of_not_le hlong
    have := hnear _ _ (hheld x.st.half _ (List.getElem?_eq_getElem hlt))
    rw [fwd_of_add _ _ _ (by omega)] at this
    omega
  refine ⟨payloads, hdrained.ev, hhead, hcount, htail, ?_, ?_, hleft⟩
  · refine List.ext_getElem (by simp) fun i hi hi' => ?_
    rw [List.getElem_map, List.getElem_map, List.getElem_range]
    rw [List.length_map] at hi
    exact (hheld i _ (List.getElem?_eq_getElem hi)).symm
  · have hfresh : ¬ ∃ i, i < payloads.length ∧
        (acceptData q d x).st.recvTail = (x.st.recvTail + i) % x.st.window := by
      rintro ⟨i, hi, he⟩
      have hend := fwd_of_add x.st.window x.st.recvTail payloads.length (by omega)
      rw [← htail, he, fwd_of_add _ _ i (by omega)] at hend
      omega
    rwa [hleft, if_neg hfresh] at hstop

/-- `AcceptData` in both halves of the window (R284, R285). -/
theorem acceptData_cases (q : Nat) (d : Bytes) (h : RecvSpan x.st) :
    ∃ payloads, (acceptData q d x).ev = x.ev ++ payloads.map .dispatch ∧
      (x.st.half ≤ fwd x.st.window q x.st.recvTail → payloads = [] ∧ acceptData q d x = x) ∧
      (fwd x.st.window q x.st.recvTail < x.st.half → Accepted x.st q d (acceptData q d x).st payloads) := by
  by_cases hk : fwd x.st.window q x.st.recvTail < x.st.half
  · obtain ⟨payloads, hev, hacc⟩ := acceptData_inside (d := d) h hk
    exact ⟨payloads, hev, fun hout => absurd hk (Nat.not_lt_of_le hout), fun _ => hacc⟩
  · have hsame := acceptData_outside (d := d) (Nat.le_of_not_lt hk)
    exact ⟨[], by rw [hsame]; exact (List.append_nil _).symm, fun _ => ⟨rfl, hsame⟩, fun hin => absurd hin hk⟩

/-- The data of a normal message goes to the receiving side, and marks an acknowledgement unless one was pending
(R280, R284, R286). -/
theorem recvData_of_some {P : Config.Params} {msg : ArqMsg} {d : Bytes} (now : Nat) (hd : msg.d = some d)
    (x : Acc Arq) :
    recvData P msg now x =
      ⟨{ x.st with oor := (acceptData msg.s.toNat d x).st.oor, recvHead := (acceptData msg.s.toNat d x).st.recvHead,
                   recvTail := (acceptData msg.s.toNat d x).st.recvTail, ackPending := true,
                   ackDeadline := if x.st.ackPending = true then x.st.ackDeadline
                     else now + P.ackDelay x.st.timeout },
        (acceptData msg.s.toNat d x).ev⟩ := by
  simp only [recvData, hd]
  rw [markAck_eq, acceptData_frame]

/-- A data message after the acknowledgements have written `send_tail` and `pend`: what it hands over, and what it
leaves (R280, R284 to R286). -/
theorem recvData_cases {P : Config.Params} {msg : ArqMsg} {q : Nat} {d : Bytes} (now : Nat) (hd : msg.d = some d)
    (hq : msg.s = q) {a : Arq} (h : RecvSpan a) (tail : Nat) (pend : Table PendEntry)
    (ev : List Event) :
    ∃ (w : Acc Arq) (payloads : List Bytes), recvData P msg now ⟨{ a with sendTail := tail, pend := pend }, ev⟩ = w ∧
      w.ev = ev ++ payloads.map .dispatch ∧
      w.st = { a with sendTail := tail, pend := pend, oor := w.st.oor, recvHead := w.st.recvHead,
                      recvTail := w.st.recvTail, ackPending := true,
                      ackDeadline := if a.ackPending = true then a.ackDeadline else now + P.ackDelay a.timeout } ∧
      (a.half ≤ fwd a.window q a.recvTail →
        payloads = [] ∧ w.st.oor = a.oor ∧ w.st.recvTail = a.recvTail ∧ w.st.recvHead = a.recvHead) ∧
      (fwd a.window q a.recvTail < a.half → Accepted a q d w.st payloads) := by
  obtain ⟨payloads, hev, hout, hin⟩ := acceptData_cases (x := ⟨{ a with sendTail := tail, pend := pend }, ev⟩) q d h
  refine ⟨_, payloads, recvData_of_some now hd _, ?_⟩
  rw [hq, Int.toNat_natCast]
  refine ⟨hev, rfl, fun hk => ?_, fun hk => ?_⟩
  · obtain ⟨hnone, hsame⟩ := hout hk
    rw [hsame]
    exact ⟨hnone, rfl, rfl, rfl⟩
  · have hacc := hin hk
    exact ⟨hacc.head, hacc.count, hacc.tail, hacc.held, hacc.gap, hacc.left⟩

theorem recvData_of_none {P : Config.Params} {msg : ArqMsg} (now : Nat) (hd : msg.d = none) (x : Acc Arq) :
    recvData P msg now x = x := by simp only [recvData, hd]

end Delivered

/-! ## The end of a normal message -/

section Answered

variable {P : Config.Params} {w : Acc Arq} {now : Nat}

/-- The end of a normal message, from `w` with an acknowledgement pending to `u`, with the messages sent: the queued
sends carry it, or it waits for the sends in flight, or it goes out (R267, R280, R287). -/
structure Answered (w u : Acc Arq) (msgs : List ArqMsg) : Prop where
  ev : u.ev = w.ev ++ msgs.map .lowerSend
  frame : u.st = { w.st with sendq := u.st.sendq, pend := u.st.pend, sendHead := u.st.sendHead,
                             ackPending := u.st.ackPending }
  started : u.st.sendq ≠ w.st.sendq → u.st.ackPending = false ∧ msgs ≠ [] ∧ ∀ msg ∈ msgs, msg.d ≠ none
  waiting : u.st.sendq = w.st.sendq → u.st.pend ≠ [] → u.st.ackPending = true ∧ msgs = []
  idle : u.st.sendq = w.st.sendq → u.st.pend = [] → u.st.ackPending = false ∧
    msgs = [{ s := u.st.sendHead, r := u.st.recvTail, x := u.st.xField }]

theorem ackIfIdle_startQueued (hhead : w.st.sendHead < w.st.window) (htail : w.st.sendTail < w.st.window)
    (hl : w.st.resetLevel = 0) (hack : w.st.ackPending = true) :
    ∃ msgs, Answered w (ackIfIdle (startQueued now w)) msgs := by
  by_cases hn : w.st.startable = 0
  · rw [startQueued_of_zero hhead htail hl hn, ackIfIdle_eq]
    by_cases hp : w.st.pend = []
    · rw [if_pos ⟨hack, hp⟩]
      exact ⟨_, rfl, rfl, fun hne => absurd rfl hne, fun _ hne => absurd hp hne, fun _ _ => ⟨rfl, rfl⟩⟩
    · rw [if_neg fun h => hp h.2]
      exact ⟨[], (List.append_nil _).symm, rfl, fun hne => absurd rfl hne, fun _ _ => ⟨hack, rfl⟩,
        fun _ he => absurd he hp⟩
  · obtain ⟨hshort, hclear, msgs, hne, hdata, hev⟩ := startQueued_of_pos (now := now) hhead htail hl hn
    have hframe := startFrom_frame now w.st.sendq w
    rw [ackIfIdle_eq, hclear, if_neg (by simp)]
    exact ⟨msgs, hev, hframe, fun _ => ⟨hclear, hne, hdata⟩, fun he => absurd he hshort, fun he => absurd he hshort⟩

end Answered

/-! ## Events by kind -/

section Kinds

variable (handles : List U16) (payloads : List Bytes) (msgs : List ArqMsg)

/-- The events of a normal message in R287's order: completions, dispatches, messages. -/
def answerEvents : List Event :=
  handles.map (.sendDone · .ok) ++ payloads.map .dispatch ++ msgs.map .lowerSend

theorem dispatched_answerEvents : dispatched (answerEvents handles payloads msgs) = payloads := by
  simp [dispatched, answerEvents, List.filterMap_append, List.filterMap_map]

theorem lowerSends_answerEvents : lowerSends (answerEvents handles payloads msgs) = msgs := by
  simp [lowerSends, answerEvents, List.filterMap_append, List.filterMap_map]

end Kinds

/-! ## ARQ.RECV of a normal message -/

section Normal

variable {P : Config.Params} {s : State} {r : Nat}

theorem ackTail_lt {a : Arq} (hr : r < a.window) (ht : a.sendTail < a.window) : a.ackTail r < a.window := by
  unfold Arq.ackTail
  split_ifs
  · exact hr
  · exact ht

/-- At level 0 a normal message inside its bounds is received (R271, R280). -/
theorem arqRecv_of_normal (hp : s.arq.phase = .opened) (hl : s.arq.resetLevel = 0) (ha : s.port.operands.msg.a = false)
    (hs : 0 ≤ s.port.operands.msg.s ∧ s.port.operands.msg.s < s.arq.window) (hr : s.port.operands.msg.r = r)
    (hlt : r < s.arq.window) (hx : ∀ q ∈ s.port.operands.msg.x.getD [], q < s.arq.window) :
    arqRecv P s = s.commitArq (ackIfIdle (startQueued s.now (recvData P s.port.operands.msg s.now
      (processX (s.port.operands.msg.x.getD []) (processAck r (Acc.start s.arq)))))) := by
  have hok : normalMsgOk s.arq.window s.port.operands.msg = true := (normalMsgOk_iff _ _).mpr ⟨hs, by omega, hx⟩
  rw [arqRecv_of_opened hp, recvOpen_of_normal ha hl, acc_start_st, if_pos hok, recvNormal, hr, Int.toNat_natCast]

end Normal

end Sys2Proof.Machine

namespace Sys2Proof.Settled

open Sys2Proof.Machine

/-- Settles O54: the send side is that of `acknowledged_pend` and `acknowledged_ev`; data writes the receiving side and
the acknowledgement. -/
theorem arqAcknowledgement : Obligations.ArqAcknowledgement := by
  intro s r a W msg now x hp hl ha hs hs' hr hlt hx k tail left covered named done dones effect
  have heffect (P : Config.Params) : effect P (fun t => execWith P .arqRecv s = t) := by
    intro hinv
    have hspan : SendSpan a := ArqInv.sendSpan hinv
    have hrecvSpan : RecvSpan a := ArqInv.recvSpan hinv
    have hrecv : execWith P .arqRecv s = _ := arqRecv_of_normal hp hl ha ⟨hs, hs'⟩ hr hlt hx
    obtain ⟨pend, hpend⟩ : ∃ pend, pend = (processX x (processAck r (Acc.start a))).st.pend := ⟨_, rfl⟩
    have hz : processX x (processAck r (Acc.start a)) = ⟨{ a with sendTail := tail, pend := pend }, dones⟩ := by
      rw [hpend]
      exact acc_ext (acknowledged_frame r x (Acc.start a)) (acknowledged_ev (x := Acc.start a) hspan hlt)
    have hwf : TableWf pend := hpend ▸ acknowledged_wf r x hspan.wf
    have hgone (q : Nat) := acknowledged_pend (x := Acc.start a) (xs := x) hspan hlt q
    rw [← hpend] at hgone
    rw [hz] at hrecv
    have hanswer {w w' : Acc Arq} (hw : recvData P msg now ⟨{ a with sendTail := tail, pend := pend }, dones⟩ = w)
        (he : w = w') : execWith P .arqRecv s = s.commitArq (ackIfIdle (startQueued now w')) :=
      hrecv.trans (congrArg (fun w => s.commitArq (ackIfIdle (startQueued now w))) (hw.trans he))
    cases hd : msg.d with
    | none =>
      refine ⟨a, pend, [], rfl, fun _ => ⟨rfl, rfl⟩, hwf, fun q => (hgone q).1, fun q => (hgone q).2,
        hanswer (recvData_of_none now hd _) ?_⟩
      simp
    | some d =>
      obtain ⟨q, hq⟩ := Int.eq_ofNat_of_zero_le hs
      obtain ⟨w, payloads, hw, hwev, hwst, -⟩ := recvData_cases (P := P) now hd hq hrecvSpan tail pend dones
      refine ⟨{ a with oor := w.st.oor, recvHead := w.st.recvHead, recvTail := w.st.recvTail }, pend, payloads, rfl,
        nofun, hwf, fun q => (hgone q).1, fun q => (hgone q).2, hanswer hw (acc_ext ?_ hwev)⟩
      rw [hwst]
      simp
  simp only [exec_eq_next_iff]
  exact ⟨heffect defaultParams, heffect⟩

/-- Settles O55: `Accepted` says what the receiving side becomes, `Answered` how the acknowledgement goes, and the three
kinds of events come one after the other. -/
theorem arqDataDelivery : Obligations.ArqDataDelivery := by
  intro P s q d hinv hp hl hq ha hd hs hr hr' hx a k t
  obtain ⟨r, hnat⟩ := Int.eq_ofNat_of_zero_le hr
  have hlt : r < s.arq.window := by omega
  have hspan : SendSpan a := ArqInv.sendSpan hinv
  obtain ⟨z, hz⟩ : ∃ z, z = processX (s.port.operands.msg.x.getD []) (processAck r (Acc.start a)) := ⟨_, rfl⟩
  have hframe : z.st = { a with sendTail := a.ackTail r, pend := z.st.pend } :=
    hz ▸ acknowledged_frame r _ (Acc.start a)
  obtain ⟨handles, hdones⟩ := acknowledged_ev_handles r (s.port.operands.msg.x.getD []) (Acc.start a)
  rw [← hz] at hdones
  obtain ⟨w, payloads, hw, hwev, hwst, hout, hin⟩ := recvData_cases (P := P) s.now hd hs (ArqInv.recvSpan hinv)
    (a.ackTail r) z.st.pend z.ev
  obtain ⟨u, hu⟩ : ∃ u, u = ackIfIdle (startQueued s.now w) := ⟨_, rfl⟩
  have ht : t = s.commitArq u := by
    refine (arqRecv_of_normal hp hl ha (by omega) hnat hlt hx).trans ?_
    rw [hu, ← hw, ← hframe, hz]
  obtain ⟨msgs, hanswered⟩ : ∃ msgs, Answered w u msgs := by
    rw [hu]
    refine ackIfIdle_startQueued ?_ ?_ ?_ ?_ <;> rw [hwst]
    · exact hspan.head_lt
    · exact ackTail_lt hlt hspan.tail_lt
    · exact hl
  have hev : t.events = answerEvents handles payloads msgs := by
    rw [ht]
    show u.ev = _
    rw [hanswered.ev, hwev, hdones]
    rfl
  have hdispatched : dispatched t.events = payloads := hev ▸ dispatched_answerEvents handles payloads msgs
  have hsends : lowerSends t.events = msgs := hev ▸ lowerSends_answerEvents handles payloads msgs
  have harq : t.arq = u.st := congrArg State.arq ht
  have hsendq : w.st.sendq = a.sendq := by rw [hwst]
  have hoor : u.st.oor = w.st.oor := by rw [hanswered.frame]
  have htail : u.st.recvTail = w.st.recvTail := by rw [hanswered.frame]
  have hhead : u.st.recvHead = w.st.recvHead := by rw [hanswered.frame]
  have hdeadline : u.st.ackDeadline = w.st.ackDeadline := by rw [hanswered.frame]
  rw [hdispatched, hsends, harq, ← hsendq, hoor, htail, hhead, hdeadline]
  refine ⟨hout, fun hk => ?_, congrArg Arq.ackDeadline hwst, hanswered.started, hanswered.waiting,
    fun he hp => ?_, handles, hev⟩
  · have hacc := hin hk
    exact ⟨hacc.head, payloads.length, hacc.count, hacc.tail, hacc.held, hacc.gap, hacc.left⟩
  · rw [← htail]
    exact hanswered.idle he hp

end Sys2Proof.Settled

/-! What a command reads and writes of the block (R24, R313): run on two states that agree on its unit, it writes the same
into the unit, answers the same and leaves each of the two otherwise as it was. That is one equation between the two
outcomes, from which both the write frame and the noninterference of the units follow. One closure rule per form the
meanings are written in, and one lemma per command with a case split of its own. -/

namespace Sys2Proof.Machine

/-- The four units of the block with state of their own (R20). -/
inductive BlockUnit where
  | crc | msg | frm | arq

/-- The state `s` with the unit as `t` holds it. -/
def BlockUnit.put : BlockUnit → State → State → State
  | .crc, s, t => { s with crc := t.crc }
  | .msg, s, t => { s with msgs := t.msgs }
  | .frm, s, t => { s with frm := t.frm }
  | .arq, s, t => { s with arq := t.arq }

/-- What a command of the unit makes of `s`, told by what it made of another state: the unit and the answer are the
outcome `t`'s, and all the rest is as in `s`. -/
def State.replay (s : State) (k : BlockUnit) (t : State) : State :=
  { k.put s t with port := { s.port with answer := t.port.answer } }

/-- The outcome on a state itself: nothing but the unit and the port has changed. -/
theorem eq_put_of_replay_self {k : BlockUnit} {s t : State} (h : t = s.replay k t) :
    t = { k.put s t with port := t.port } :=
  have hport : t.port = { s.port with answer := t.port.answer } := congrArg State.port h
  h.trans (congrArg (fun p => { k.put s t with port := p }) hport.symm)

/-! ## The forms of a meaning -/

section Forms

variable {k : BlockUnit} {s t : State} {r : Nat} {m : Msg}

theorem put_crc_eq_self (h : s.crc = t.crc) : BlockUnit.crc.put s t = s := by rw [BlockUnit.put, ← h]

theorem put_msg_eq_self (h : s.msgs = t.msgs) : BlockUnit.msg.put s t = s := by rw [BlockUnit.put, ← h]

theorem put_frm_eq_self (h : s.frm = t.frm) : BlockUnit.frm.put s t = s := by rw [BlockUnit.put, ← h]

theorem put_arq_eq_self (h : s.arq = t.arq) : BlockUnit.arq.put s t = s := by rw [BlockUnit.put, ← h]

/-- A command that writes no unit: a refusal, or a value read. -/
theorem answer_replay (hk : k.put s t = s) (st : Status) (v : Value) (ev : List Event) :
    s.answer st v ev = s.replay k (t.answer st v ev) := by
  cases k <;> exact congrArg (State.answer · st v ev) hk.symm

theorem ite_replay {c : Prop} [Decidable c] {a b a' b' : State} (ha : a = s.replay k a') (hb : b = s.replay k b') :
    (if c then a else b) = s.replay k (if c then a' else b') := by
  split
  · exact ha
  · exact hb

/-- Two equal register files have the same register, or the same one missing (R101). -/
theorem withMsg_replay (hk : k.put s t = s) (hm : s.msgs = t.msgs) {f g : Msg → State}
    (h : ∀ m, f m = s.replay k (g m)) : s.withMsg r f = s.replay k (t.withMsg r g) := by
  unfold State.withMsg State.msg?
  rw [hm]
  cases t.msgs[r]? with
  | none => exact answer_replay hk _ _ _
  | some m => exact h m

/-- The header is the message's own (R153). -/
theorem withHeader_replay (hk : k.put s t = s) {f g : Hdr → State} (h : ∀ hd, f hd = s.replay k (g hd)) :
    s.withHeader m f = s.replay k (t.withHeader m g) := by
  unfold State.withHeader
  cases needHeader m with
  | error st => exact answer_replay hk _ _ _
  | ok hd => exact h hd

theorem setMsg_replay (hm : s.msgs = t.msgs) (r : Nat) (m : Msg) (v : Value) :
    (s.setMsg r m).done v = s.replay .msg ((t.setMsg r m).done v) := by
  unfold State.setMsg
  rw [hm]
  rfl

/-- A framer command's outcome replaces the framer's record whatever it was. -/
theorem commitFrm_replay (x : Acc Frm) : s.commitFrm x = s.replay .frm (t.commitFrm x) := rfl

/-- An ARQ command's outcome replaces the session record whatever it was. -/
theorem commitArq_replay (x : Acc Arq) : s.commitArq x = s.replay .arq (t.commitArq x) := rfl

end Forms

/-! ## The commands with a case split of their own -/

section Commands

variable {P : Config.Params} {s t : State} {r : Nat}

/-- The bytes to append are the operand record's (R164). -/
theorem msgAdddata_replay (ho : s.port.operands = t.port.operands) (hm : s.msgs = t.msgs) :
    msgAdddata r s = s.replay .msg (msgAdddata r t) := by
  unfold msgAdddata
  rw [ho]
  exact withMsg_replay (put_msg_eq_self hm) hm fun _ =>
    ite_replay (answer_replay (put_msg_eq_self hm) _ _ _) (setMsg_replay hm _ _ _)

theorem msgHdrlen_replay (hm : s.msgs = t.msgs) : msgHdrlen r s = s.replay .msg (msgHdrlen r t) := by
  have hk := put_msg_eq_self hm
  refine withMsg_replay hk hm fun m => ?_
  split <;> exact answer_replay hk _ _ _

theorem msgXchunk_replay (hm : s.msgs = t.msgs) (fb : Nat) :
    msgXchunk P r fb s = s.replay .msg (msgXchunk P r fb t) := by
  have hk := put_msg_eq_self hm
  refine withMsg_replay hk hm fun m => ite_replay (answer_replay hk _ _ _) ?_
  cases m.xpos with
  | none => exact answer_replay hk _ _ _
  | some pos =>
    exact withHeader_replay hk fun _ => ite_replay (answer_replay hk _ _ _) (setMsg_replay hm _ _ _)

theorem msgAchunk_replay (hm : s.msgs = t.msgs) (fb value : Nat) :
    msgAchunk P r fb value s = s.replay .msg (msgAchunk P r fb value t) := by
  have hk := put_msg_eq_self hm
  refine withMsg_replay hk hm fun m => ite_replay (answer_replay hk _ _ _) ?_
  cases chunkBits m.buf.length fb value with
  | error st => exact answer_replay hk _ _ _
  | ok p => exact ite_replay (answer_replay hk _ _ _) (setMsg_replay hm _ _ _)

/-- FRM.SEND reads a message register and no field of the framer (R224). -/
theorem frmSend_replay (hm : s.msgs = t.msgs) (hf : s.frm = t.frm) :
    frmSend P r s = s.replay .frm (frmSend P r t) := by
  have hk := put_frm_eq_self hf
  exact withMsg_replay hk hm fun _ => withHeader_replay hk fun _ =>
    ite_replay (answer_replay hk _ _ _) (ite_replay (answer_replay hk _ _ _) (answer_replay hk _ _ _))

theorem arqOpen_replay (ho : s.port.operands = t.port.operands) (ha : s.arq = t.arq) (window timeout : Nat) :
    arqOpen P window timeout s = s.replay .arq (arqOpen P window timeout t) := by
  have hk := put_arq_eq_self ha
  unfold arqOpen State.now
  rw [ha, ho]
  exact ite_replay (answer_replay hk _ _ _) (ite_replay (answer_replay hk _ _ _) (commitArq_replay _))

theorem arqSend_replay (ho : s.port.operands = t.port.operands) (ha : s.arq = t.arq) (handle : U16) :
    arqSend P handle s = s.replay .arq (arqSend P handle t) := by
  have hk := put_arq_eq_self ha
  unfold arqSend State.now
  rw [ha, ho]
  cases t.arq.phase with
  | unopened => exact answer_replay hk _ _ _
  | closed => exact answer_replay hk _ _ _
  | opened =>
    exact ite_replay (answer_replay hk _ _ _)
      (ite_replay (commitArq_replay _) (ite_replay (answer_replay hk _ _ _) (commitArq_replay _)))

theorem arqRecv_replay (ho : s.port.operands = t.port.operands) (ha : s.arq = t.arq) :
    arqRecv P s = s.replay .arq (arqRecv P t) := by
  unfold arqRecv State.now
  rw [ha, ho]
  cases t.arq.phase with
  | unopened => exact answer_replay (put_arq_eq_self ha) _ _ _
  | closed => exact commitArq_replay _
  | opened => exact commitArq_replay _

theorem arqTick_replay (ho : s.port.operands = t.port.operands) (ha : s.arq = t.arq) :
    arqTick s = s.replay .arq (arqTick t) := by
  unfold arqTick State.now
  rw [ha, ho]
  exact ite_replay (commitArq_replay _) (answer_replay (put_arq_eq_self ha) _ _ _)

theorem arqClose_replay (ha : s.arq = t.arq) : arqClose s = s.replay .arq (arqClose t) := by
  unfold arqClose
  rw [ha]
  cases t.arq.phase with
  | unopened => exact answer_replay (put_arq_eq_self ha) _ _ _
  | opened => exact commitArq_replay _
  | closed => exact answer_replay (put_arq_eq_self ha) _ _ _

theorem arqReset_replay (ho : s.port.operands = t.port.operands) (ha : s.arq = t.arq) (hasErr : Bool) :
    arqReset hasErr s = s.replay .arq (arqReset hasErr t) := by
  unfold arqReset State.now
  rw [ha, ho]
  cases t.arq.phase with
  | unopened => exact answer_replay (put_arq_eq_self ha) _ _ _
  | closed => exact answer_replay (put_arq_eq_self ha) _ _ _
  | opened => exact commitArq_replay _

theorem arqLowerfail_replay (ho : s.port.operands = t.port.operands) (ha : s.arq = t.arq) :
    arqLowerfail s = s.replay .arq (arqLowerfail t) := by
  unfold arqLowerfail
  rw [ha, ho]
  cases t.arq.phase with
  | unopened => exact answer_replay (put_arq_eq_self ha) _ _ _
  | opened => exact commitArq_replay _
  | closed => exact answer_replay (put_arq_eq_self ha) _ _ _

end Commands

/-! ## The four units -/

section Units

variable (P : Config.Params) {i : Instr} {s t : State}

theorem execWith_replay_crc (hi : i.opcode / 16 = 1) (hc : s.crc = t.crc) :
    execWith P i s = s.replay .crc (execWith P i t) := by
  cases i with
  | crcReset => rfl
  | crcUpdate byte =>
    simp only [execWith, crcUpdate, hc]
    rfl
  | crcFinish =>
    simp only [execWith, crcFinish, hc]
    exact answer_replay (put_crc_eq_self hc) _ _ _
  | _ => simp [Instr.opcode] at hi

theorem execWith_replay_msg (hi : i.opcode / 16 = 2) (ho : s.port.operands = t.port.operands) (hm : s.msgs = t.msgs) :
    execWith P i s = s.replay .msg (execWith P i t) := by
  have hk := put_msg_eq_self hm
  cases i with
  | msgClear r => exact withMsg_replay hk hm fun _ => setMsg_replay hm _ _ _
  | msgSetaddr r dst src =>
    exact withMsg_replay hk hm fun _ => ite_replay (answer_replay hk _ _ _) (setMsg_replay hm _ _ _)
  | msgSetcode r code => exact withMsg_replay hk hm fun _ => setMsg_replay hm _ _ _
  | msgSetprio r prio => exact withMsg_replay hk hm fun _ => setMsg_replay hm _ _ _
  | msgAdddata r => exact msgAdddata_replay ho hm
  | msgHeader r => exact withMsg_replay hk hm fun _ => withHeader_replay hk fun _ => answer_replay hk _ _ _
  | msgHdrlen r => exact msgHdrlen_replay hm
  | msgFirstbits r n =>
    exact withMsg_replay hk hm fun _ => withHeader_replay hk fun _ =>
      ite_replay (answer_replay hk _ _ _) (answer_replay hk _ _ _)
  | msgGet r => exact withMsg_replay hk hm fun _ => answer_replay hk _ _ _
  | msgXstart r => exact withMsg_replay hk hm fun _ => withHeader_replay hk fun _ => setMsg_replay hm _ _ _
  | msgXchunk r fb => exact msgXchunk_replay hm fb
  | msgAstart r => exact withMsg_replay hk hm fun _ => setMsg_replay hm _ _ _
  | msgAchunk r fb value => exact msgAchunk_replay hm fb value
  | msgAend r => exact withMsg_replay hk hm fun _ => ite_replay (answer_replay hk _ _ _) (setMsg_replay hm _ _ _)
  | _ => simp [Instr.opcode] at hi

theorem execWith_replay_frm (hi : i.opcode / 16 = 3) (hm : s.msgs = t.msgs) (hf : s.frm = t.frm) :
    execWith P i s = s.replay .frm (execWith P i t) := by
  cases i with
  | frmRxbyte byte =>
    simp only [execWith, frmRxbyte, hf]
    exact commitFrm_replay _
  | frmTimeout =>
    simp only [execWith, frmTimeout, hf]
    exact commitFrm_replay _
  | frmSend r => exact frmSend_replay hm hf
  | frmRelease =>
    simp only [execWith, frmRelease, hf]
    rfl
  | _ => simp [Instr.opcode] at hi

theorem execWith_replay_arq (hi : i.opcode / 16 = 4) (ho : s.port.operands = t.port.operands) (ha : s.arq = t.arq) :
    execWith P i s = s.replay .arq (execWith P i t) := by
  cases i with
  | arqOpen window timeout => exact arqOpen_replay ho ha window timeout
  | arqSend handle => exact arqSend_replay ho ha handle
  | arqRecv => exact arqRecv_replay ho ha
  | arqTick => exact arqTick_replay ho ha
  | arqClose => exact arqClose_replay ha
  | arqReset hasErr => exact arqReset_replay ho ha hasErr
  | arqLowerfail => exact arqLowerfail_replay ho ha
  | arqNext =>
    simp only [execWith, arqNext, ha]
    exact answer_replay (put_arq_eq_self ha) _ _ _
  | _ => simp [Instr.opcode] at hi

end Units

end Sys2Proof.Machine

namespace Sys2Proof.Settled

open Sys2Proof.Machine

/-- Settles O10: a state agrees with itself on every unit, so the outcome is the state with its unit and port replaced. -/
theorem unitsWriteTheirOwnState : Obligations.UnitsWriteTheirOwnState := fun P _ _ =>
  ⟨fun hi => eq_put_of_replay_self (execWith_replay_crc P hi rfl),
    fun hi => eq_put_of_replay_self (execWith_replay_msg P hi rfl rfl),
    fun hi => eq_put_of_replay_self (execWith_replay_frm P hi rfl rfl),
    fun hi => eq_put_of_replay_self (execWith_replay_arq P hi rfl rfl)⟩

/-- Settles O11: the outcome on one of the two states has the unit and the answer of the outcome on the other. -/
theorem unitsReadTheirOwnState : Obligations.UnitsReadTheirOwnState := by
  intro P i s t ho
  refine ⟨fun hi hc => ?_, fun hi hm => ?_, fun hi hm hf => ?_, fun hi ha => ?_⟩
  · rw [execWith_replay_crc P hi hc]
    exact ⟨rfl, rfl⟩
  · rw [execWith_replay_msg P hi ho hm]
    exact ⟨rfl, rfl⟩
  · rw [execWith_replay_frm P hi hm hf]
    exact ⟨rfl, rfl⟩
  · rw [execWith_replay_arq P hi ho ha]
    exact ⟨rfl, rfl⟩

end Sys2Proof.Settled

/-! How many error reports a command emits (R351, R365). A report is raised in three places: at the end of a complete frame
(R216), at the fourth idle timeout (R222), and where a received ARQ message is malformed or out of bounds (R263). Each of
the three is reached at most once in a command, and every other operation emits events that are no report. -/

namespace Sys2Proof.Machine

theorem reportCount_append (ev ev' : List Event) : reportCount (ev ++ ev') = reportCount ev + reportCount ev' := by
  rw [reportCount, List.filter_append, List.length_append]
  rfl

/-! ## Emissions -/

/-- The error reports emitted so far (R365). -/
def Acc.reports {σ : Type} (x : Acc σ) : Nat := reportCount x.ev

section Emission

variable {σ β : Type} (x : Acc σ)

/-- An event that is no report. -/
theorem emit_reports (e : Event) (h : reportCount [e] = 0 := by rfl) : (x.emit e).reports = x.reports := by
  rw [Acc.reports, acc_emit_ev, reportCount_append, h]
  rfl

theorem raise_reports (k : ErrKind) : (x.raise k).reports = x.reports + 1 := reportCount_append _ _

/-- A loop whose rounds report nothing. -/
theorem foldl_reports {f : Acc σ → β → Acc σ} (h : ∀ y b, (f y b).reports = y.reports) (l : List β) :
    (l.foldl f x).reports = x.reports := by
  induction l generalizing x with
  | nil => rfl
  | cons b l ih => exact (ih _).trans (h x b)

end Emission

/-! ## The framer -/

section Framer

variable (P : Config.Params) (b : Byte) (x : Acc Frm)

theorem flushLine_reports : (flushLine x).reports = x.reports := by
  unfold flushLine
  split
  · rfl
  · exact emit_reports x _

theorem putLine_reports : (putLine P b x).reports = x.reports := by
  unfold putLine
  split
  · exact flushLine_reports x
  · rfl

theorem syncTimeout_reports : (syncTimeout x).reports = x.reports := by
  unfold syncTimeout
  split
  · rfl
  · exact emit_reports _ _

theorem acceptFrame_reports : (acceptFrame x).reports = x.reports :=
  (emit_reports _ _).trans (emit_reports _ _)

/-- The tests of R216 exclude each other: one report, or the acceptance of the frame. -/
theorem frameOutcome_reports_le : (frameOutcome x).reports ≤ x.reports + 1 := by
  rcases frameOutcome_cases x with ⟨-, he⟩ | ⟨-, -, he⟩ | ⟨-, -, -, he⟩ | ⟨-, -, -, he⟩ <;> rw [he]
  · exact (raise_reports x _).le
  · exact (raise_reports x _).le
  · exact (raise_reports x _).le
  · exact (acceptFrame_reports x).trans_le (Nat.le_succ _)

theorem rxIdle_reports : (rxIdle P b x).reports = x.reports := by
  unfold rxIdle
  cases classify P b with
  | ack => exact emit_reports x _
  | mark p => exact flushLine_reports x
  | lead n => exact putLine_reports P b x
  | eol => exact flushLine_reports x
  | text => exact putLine_reports P b x

/-- Only the second CRC byte of a frame can report (R205, R216). -/
theorem rxByState_reports_le : (rxByState P b x).reports ≤ x.reports + 1 := by
  unfold rxByState
  cases x.st.s with
  | idle => exact (rxIdle_reports P b x).trans_le (Nat.le_succ _)
  | utf8 => exact (putLine_reports P b x).trans_le (Nat.le_succ _)
  | len => exact (congrArg reportCount (rxLen_cases P b x).1).trans_le (Nat.le_succ _)
  | len2 => exact Nat.le_succ _
  | data => exact Nat.le_succ _
  | crc1 => exact Nat.le_succ _
  | crc2 => exact frameOutcome_reports_le _

theorem rxByte_reports_le (f : Frm) : (rxByte P b f).reports ≤ 1 :=
  (syncTimeout_reports _).trans_le (rxByState_reports_le P b _)

theorem timeoutIdle_reports : (timeoutIdle P x).reports = x.reports := by
  unfold timeoutIdle
  split
  · rfl
  · dsimp only
    split
    · exact flushLine_reports _
    · rfl

theorem lostFrame_reports : (lostFrame x).reports = x.reports + 1 := by
  rw [← raise_reports x .lost]
  unfold lostFrame
  dsimp only
  split
  · exact flushLine_reports _
  · rfl

theorem timeoutBusy_reports_le : (timeoutBusy x).reports ≤ x.reports + 1 := by
  unfold timeoutBusy
  dsimp only
  split
  · exact (lostFrame_reports _).le
  · exact Nat.le_succ _

theorem rxTimeout_reports_le (f : Frm) : (rxTimeout P f).reports ≤ 1 := by
  refine (syncTimeout_reports _).trans_le ?_
  split
  · exact (timeoutIdle_reports P _).trans_le (Nat.zero_le _)
  · exact timeoutBusy_reports_le _

end Framer

/-! ## The ARQ engine -/

section Engine

variable {P : Config.Params} {msg : ArqMsg} {res : Completion} {now : Nat} (x : Acc Arq)

theorem sendCarrier_reports (m : ArqMsg) : (sendCarrier m x).reports = x.reports := emit_reports x _

theorem sendReset_reports (n : Fin 4) (e : Option Bytes) : (sendReset n e x).reports = x.reports :=
  emit_reports x _

theorem release_reports (q : Nat) : (release res x q).reports = x.reports := by
  unfold release
  split
  · rfl
  · exact emit_reports x _

theorem releaseAll_reports (qs : List Nat) : (releaseAll res qs x).reports = x.reports :=
  foldl_reports x release_reports qs

theorem failQueue_reports (queue : List Queued) : (failQueue res queue x).reports = x.reports :=
  foldl_reports x (fun y _ => emit_reports y _) queue

/-- The failure of every send reports completions, and no error (R265). -/
theorem failAll_reports : (failAll res x).reports = x.reports :=
  (failQueue_reports _ _).trans (releaseAll_reports x _)

theorem alloc_reports (p : Bytes) (handle : U16) : (alloc p handle now x).reports = x.reports :=
  sendCarrier_reports _ _

theorem startFrom_reports (queue : List Queued) : (startFrom now queue x).reports = x.reports := by
  induction queue generalizing x with
  | nil => rfl
  | cons p rest ih =>
    unfold startFrom
    split
    · exact (ih _).trans (alloc_reports _ _ _)
    · rfl

theorem startQueued_reports : (startQueued now x).reports = x.reports := startFrom_reports x _

theorem processAck_reports (r : Nat) : (processAck r x).reports = x.reports := by
  unfold processAck
  split
  · exact releaseAll_reports x _
  · rfl

theorem processX_reports (qs : List Nat) : (processX qs x).reports = x.reports := by
  rw [processX_eq]
  exact releaseAll_reports x _

theorem drainFor_reports (n : Nat) : (drainFor n x).reports = x.reports := by
  induction n generalizing x with
  | zero => rfl
  | succ n ih =>
    unfold drainFor
    split
    · rfl
    · exact (ih _).trans (emit_reports x _)

theorem acceptData_reports (s : Nat) (d : Bytes) : (acceptData s d x).reports = x.reports := by
  unfold acceptData
  split
  · exact drainFor_reports _ _
  · rfl

theorem recvData_reports : (recvData P msg now x).reports = x.reports := by
  unfold recvData
  split
  · rfl
  · rw [markAck_eq]
    exact acceptData_reports x _ _

theorem ackIfIdle_reports : (ackIfIdle x).reports = x.reports := by
  unfold ackIfIdle
  split
  · exact sendCarrier_reports x _
  · rfl

/-- A normal message without a violation reports nothing (R280). -/
theorem recvNormal_reports : (recvNormal P msg now x).reports = x.reports := by
  rw [recvNormal, ackIfIdle_reports, startQueued_reports, recvData_reports, processX_reports, processAck_reports]

theorem closeWith_reports : (closeWith res x).reports = x.reports := failAll_reports x

theorem failOnError_reports : (failOnError msg x).reports = x.reports := by
  unfold failOnError
  split
  · rfl
  · exact failAll_reports x

/-- A well-formed reset message reports nothing, whatever its level (R274, R275, R277, R278). -/
theorem recvResetMsg_reports : (recvResetMsg msg now x).reports = x.reports := by
  unfold recvResetMsg
  split
  case h_1 => exact closeWith_reports (res := .closed) x
  case h_2 => exact sendReset_reports _ _ _
  case h_3 =>
    unfold recvLevel2
    split
    · exact (startQueued_reports _).trans (sendReset_reports _ _ _)
    · exact sendReset_reports x _ _
  case h_4 =>
    unfold recvLevel3
    split
    · exact startQueued_reports _
    · rfl
  case h_5 => rfl

/-- A message is reported only where it is refused, and then nothing else is done with it (R263, R271). -/
theorem recvOpen_reports_le : (recvOpen P msg now x).reports ≤ x.reports + 1 := by
  unfold recvOpen
  split
  · split
    · exact (raise_reports x _).le
    · rw [recvResetMsg_reports, failOnError_reports]
      exact Nat.le_succ _
  · split
    · exact (sendReset_reports _ _ _).trans_le (Nat.le_succ _)
    · split
      · exact (recvNormal_reports x).trans_le (Nat.le_succ _)
      · exact (raise_reports x _).le

theorem recvClosed_reports : (recvClosed msg x).reports = x.reports := by
  unfold recvClosed
  split
  · rfl
  · exact sendReset_reports x _ _

theorem tickOpen_reports : (tickOpen now x).reports = x.reports := by
  unfold tickOpen
  split
  · split
    · exact sendReset_reports x _ _
    · rfl
  · split
    · exact sendCarrier_reports x _
    · split
      · exact sendCarrier_reports x _
      · rfl

theorem resetOpen_reports (e : Option Bytes) : (resetOpen e now x).reports = x.reports := by
  refine (sendReset_reports _ _ _).trans ?_
  cases e with
  | none => rfl
  | some err => exact failAll_reports x

end Engine

/-! ## The commands -/

/-- The last command has emitted at most one error report (R365). -/
def ReportsAtMostOnce (t : State) : Prop := reportCount t.events ≤ 1

namespace ReportsAtMostOnce

variable {s : State} {r : Nat}

/-- An answer without events: a refusal, or the end of a command that emits none. -/
theorem silent {st : Status} {v : Value} : ReportsAtMostOnce (s.answer st v []) := Nat.zero_le 1

theorem commitFrm {x : Acc Frm} (h : x.reports ≤ 1) : ReportsAtMostOnce (s.commitFrm x) := h

theorem commitArq {x : Acc Arq} (h : x.reports ≤ 1) : ReportsAtMostOnce (s.commitArq x) := h

/-- An ARQ command whose body reports nothing. -/
theorem commitArq_of_eq {x : Acc Arq} (h : x.reports = 0) : ReportsAtMostOnce (s.commitArq x) :=
  .commitArq (h.trans_le (Nat.zero_le 1))

theorem ite {c : Prop} [Decidable c] {t u : State} (ht : ReportsAtMostOnce t) (hu : ReportsAtMostOnce u) :
    ReportsAtMostOnce (if c then t else u) := by
  split
  · exact ht
  · exact hu

theorem withMsg {f : Msg → State} (h : ∀ m, ReportsAtMostOnce (f m)) : ReportsAtMostOnce (s.withMsg r f) := by
  rcases withMsg_cases s r f with ⟨-, he⟩ | ⟨m, -, -, he⟩ <;> rw [he]
  · exact .silent
  · exact h m

theorem withHeader {m : Msg} {f : Hdr → State} (h : ∀ hd, ReportsAtMostOnce (f hd)) :
    ReportsAtMostOnce (s.withHeader m f) := by
  rcases withHeader_cases s m f with ⟨st, -, he⟩ | ⟨hd, -, he⟩ <;> rw [he]
  · exact .silent
  · exact h hd

end ReportsAtMostOnce

section Commands

variable (P : Config.Params) (r : Nat) (s : State)

theorem msgHdrlen_reportsAtMostOnce : ReportsAtMostOnce (msgHdrlen r s) := by
  refine .withMsg fun m => ?_
  split
  · exact .silent
  · exact .silent

theorem msgXchunk_reportsAtMostOnce (fb : Nat) : ReportsAtMostOnce (msgXchunk P r fb s) := by
  refine .withMsg fun m => .ite .silent ?_
  cases m.xpos with
  | none => exact .silent
  | some pos => exact .withHeader fun _ => .ite .silent .silent

theorem msgAchunk_reportsAtMostOnce (fb value : Nat) : ReportsAtMostOnce (msgAchunk P r fb value s) := by
  refine .withMsg fun m => .ite .silent ?_
  cases chunkBits m.buf.length fb value with
  | error st => exact .silent
  | ok p => exact .ite .silent .silent

theorem arqSend_reportsAtMostOnce (handle : U16) : ReportsAtMostOnce (arqSend P handle s) := by
  unfold arqSend
  cases s.arq.phase with
  | unopened => exact .silent
  | closed => exact .silent
  | opened =>
    exact .ite .silent (.ite (.commitArq_of_eq (alloc_reports _ _ _)) (.ite .silent (.commitArq_of_eq rfl)))

theorem arqRecv_reportsAtMostOnce : ReportsAtMostOnce (arqRecv P s) := by
  unfold arqRecv
  cases s.arq.phase with
  | unopened => exact .silent
  | closed => exact .commitArq_of_eq (recvClosed_reports _)
  | opened => exact .commitArq (recvOpen_reports_le _)

theorem arqClose_reportsAtMostOnce : ReportsAtMostOnce (arqClose s) := by
  unfold arqClose
  cases s.arq.phase with
  | unopened => exact .silent
  | opened => exact .commitArq_of_eq (closeWith_reports _)
  | closed => exact .silent

theorem arqReset_reportsAtMostOnce (hasErr : Bool) : ReportsAtMostOnce (arqReset hasErr s) := by
  unfold arqReset
  cases s.arq.phase with
  | unopened => exact .silent
  | closed => exact .silent
  | opened => exact .commitArq_of_eq (resetOpen_reports _ _)

theorem arqLowerfail_reportsAtMostOnce : ReportsAtMostOnce (arqLowerfail s) := by
  unfold arqLowerfail
  cases s.arq.phase with
  | unopened => exact .silent
  | opened => exact .commitArq_of_eq (closeWith_reports _)
  | closed => exact .silent

end Commands

/-- The bodies of FRM.RXBYTE, FRM.TIMEOUT and ARQ.RECV are the ones with a report to count (R364, R365). -/
theorem execWith_reportsAtMostOnce (P : Config.Params) (i : Instr) (s : State) :
    ReportsAtMostOnce (execWith P i s) := by
  cases i with
  | sysReset | crcReset | crcUpdate | crcFinish | frmRelease | arqNext => exact .silent
  | msgClear | msgSetcode | msgSetprio | msgGet | msgAstart => exact .withMsg fun _ => .silent
  | msgSetaddr | msgAdddata | msgAend => exact .withMsg fun _ => .ite .silent .silent
  | msgHeader | msgXstart => exact .withMsg fun _ => .withHeader fun _ => .silent
  | msgHdrlen r => exact msgHdrlen_reportsAtMostOnce r s
  | msgFirstbits r n => exact .withMsg fun _ => .withHeader fun _ => .ite .silent .silent
  | msgXchunk r fb => exact msgXchunk_reportsAtMostOnce P r s fb
  | msgAchunk r fb value => exact msgAchunk_reportsAtMostOnce P r s fb value
  | frmRxbyte byte => exact .commitFrm (rxByte_reports_le P byte s.frm)
  | frmTimeout => exact .commitFrm (rxTimeout_reports_le P s.frm)
  | frmSend r => exact .withMsg fun _ => .withHeader fun _ => .ite .silent (.ite .silent (Nat.zero_le 1))
  | arqOpen window timeout => exact .ite .silent (.ite .silent (.commitArq_of_eq (sendReset_reports _ _ _)))
  | arqSend handle => exact arqSend_reportsAtMostOnce P s handle
  | arqRecv => exact arqRecv_reportsAtMostOnce P s
  | arqTick => exact .ite (.commitArq_of_eq (tickOpen_reports _)) .silent
  | arqClose => exact arqClose_reportsAtMostOnce s
  | arqReset hasErr => exact arqReset_reportsAtMostOnce s hasErr
  | arqLowerfail => exact arqLowerfail_reportsAtMostOnce s

end Sys2Proof.Machine

namespace Sys2Proof.Settled

open Sys2Proof.Machine

/-- Settles O9, by the case of every command in `execWith_reportsAtMostOnce`. -/
theorem atMostOneReport : Obligations.AtMostOneReport := execWith_reportsAtMostOnce

end Sys2Proof.Settled

/-! SYS.RESET (R390). -/

namespace Sys2Proof.Machine

/-- R390 at any parameters: the reset units under the old port, answered OK with no value and no event. -/
theorem execWith_sysReset (P : Config.Params) (s : State) :
    execWith P .sysReset s = (State.resetUnits P s.port).answer .ok .none [] := rfl

end Sys2Proof.Machine

namespace Sys2Proof.Settled

open Sys2Proof.Machine

/-- Settles O13: `exec` is `execWith` at the default parameters, so both halves are `execWith_sysReset`. -/
theorem sysResetRestores : Obligations.SysResetRestores := by
  intro s
  refine ⟨?_, fun P => execWith_sysReset P s⟩
  rw [exec_eq_execWith, execWith_sysReset]

end Sys2Proof.Settled
